-- ==== Sys2Proof/Word.lean ====
section
/-! DEFINITION. The words of the SPT decoder core: bytes, header fields, pixels and the symbols of the input channel
(00_scope.md R4, R5, R11; 20_memory.md R41, R42). -/

namespace Sys2Proof

/-- An unsigned 8-bit input value (R5, R7). -/
abbrev Byte := BitVec 8

/-- A header field: width or height, unsigned 16 bits (R4). -/
abbrev Field := BitVec 16

/-- One pixel, one bit: `true` is 1, white; `false` is 0, black (R11). -/
abbrev Pixel := Bool

/-- One answer of the input channel (R42; the glossary's "Symbol"). -/
inductive Symbol where
  /-- `Byte(b)`: one byte of the stream. -/
  | byte (b : Byte)
  /-- `End`: end of stream. -/
  | endSym
  /-- `Err`: a read error. -/
  | errSym
deriving DecidableEq, Repr

/-- The one terminator after the last byte of a finite stream (R41). -/
inductive Terminator where
  | endMark
  | errMark
deriving DecidableEq, Repr

/-- The bytes of an infinite stream from some offset on (R41), each by its own offset. -/
inductive Endless where
  /-- The bytes `first, more` over and over: offset `k` has number `k` modulo their count. -/
  | repeating (first : Byte) (more : List Byte)
  /-- Any infinite sequence of bytes: a free value, told from others by its `seed` (log 1). -/
  | free (seed : Nat)
deriving DecidableEq, Repr

/-- What follows the bytes of a stream that are written out (R41). -/
inductive Tail where
  /-- The host has given nothing more yet: the channel does not answer (R42, R114). -/
  | waiting
  /-- The terminator. -/
  | ends (t : Terminator)
  /-- Bytes without end, and no terminator. -/
  | forever (e : Endless)
deriving DecidableEq, Repr

end Sys2Proof
end

