-- ==== Sys2Proof/Config.lean ====
section
/-! DEFINITION. What one implementation fixes, and the free values: the OPEN parameter COUNTER_LIMIT (92_eei_decisions.md D21),
the draws of a short header (40_header_parser.md R73, D6), what a host reads while the block is busy (70_reset_and_hazards.md R115,
D22). The fixed parameters of 00_scope.md R4 stand as literals and widths where they are used: 64 header bytes, 16-bit fields,
32-bit `pos` and `lim`, 14-bit `nb` and `row_cnt`. -/

namespace Sys2Proof

/-- The parameters of one implementation. State carries them in `cfg`; no step changes them (assumption log 4). -/
structure Params where
  /-- COUNTER_LIMIT (R4, D21): `none` is infinity, the default; `some n`: consuming byte number n + 1 is refused (R42). -/
  counterLimit : Option Nat
  /-- Which of the free sequences of draws this block takes: the model's own, so that two blocks on a platform need not draw equal
  bytes (R10, R108; log 3, log 17). -/
  drawSource : Nat
deriving DecidableEq, Repr

/-- FREE VALUE: the `k`-th `draw u8` in the life of the block that draws from `source` (R6, R73, D6; log 3). -/
opaque Config.drawByte : (source k : Nat) → Byte

/-- FREE VALUE: the byte at offset `k` of the infinite stream `seed` (R41; log 1). -/
opaque Config.endlessByte : (seed k : Nat) → Byte

/-- FREE VALUE: what reading the entry `hdr[i]` gives while it holds `none`. No run reaches such a read (R75; log 5). -/
opaque Config.absentHdrByte : Nat → Byte

/-- FREE VALUE: what reading the entry `rowbuf[j]` gives while it holds `none`. No run reaches such a read (R31, R79; log 5). -/
opaque Config.absentRowByte : Nat → Byte

/-- FREE VALUE: what the one-bit output number `line` shows a host that reads it while a block is busy; the `occasion`s number the
reads of all blocks of a platform (R115, U10; log 6). -/
opaque Config.busyBit : (occasion line : Nat) → Bool

/-- FREE VALUE: the same for the outputs that are numbers (R115, U10; log 6). -/
opaque Config.busyNat : (occasion line : Nat) → Nat

/-- FREE VALUE: what `MemRead(i, 1)` answers while the block is busy (R115, U10; log 6). -/
opaque Config.busyCell : (occasion i : Nat) → Option Pixel

end Sys2Proof
end

