-- ==== Sys2Proof/Syntax.lean ====
section
/-! DEFINITION. The operations of the block as data: one constructor of `Instr` for each row of opcode_table.json, the FSM states
that select them (10_state.md R14), and what stands before the decoder in each of these states (30_encoding.md R67). -/

namespace Sys2Proof

/-- The FSM state `st`: exactly these 11 values (R14). -/
inductive Fsm where
  /-- 0 IDLE: after reset; no decode has run. -/
  | idle
  /-- 1 HDR: capturing header bytes. -/
  | hdr
  /-- 2 DISPATCH: latching the header fields and choosing the path. -/
  | dispatch
  /-- 3 RLE_CTRL: waiting for an RLE control byte. -/
  | rleCtrl
  /-- 4 RLE_LIT: waiting for a literal data byte. -/
  | rleLit
  /-- 5 RLE_REPD: waiting for the data byte of a repeat run. -/
  | rleRepd
  /-- 6 RLE_REPW: writing one replay. -/
  | rleRepw
  /-- 7 RLE_CHK: the bound check after an RLE block. -/
  | rleChk
  /-- 8 RAW_ROW: capturing a byte of a raw row. -/
  | rawRow
  /-- 9 DONE: the decode ended normally. -/
  | done
  /-- 10 ERR: the decode ended with an error. -/
  | err
deriving DecidableEq, Repr

/-- The kinds of error that `err_code` names (R34, R96). -/
inductive ErrKind where
  /-- 0 NONE: never raised. -/
  | noError
  /-- 1 HEADER_TOO_SHORT. -/
  | headerTooShort
  /-- 2 IO_FAILURE. -/
  | ioFailure
  /-- 3 TRUNCATED_STREAM. -/
  | truncatedStream
  /-- 4 ZERO_WIDTH. -/
  | zeroWidth
deriving DecidableEq, Repr

/-- The steps the operation RLE_LIT takes (R87, R90; log 12). -/
inductive LitPart where
  /-- The control byte `c < 128` in state RLE_CTRL (R87). -/
  | ctrl (c : Byte)
  /-- What the channel answers where a data byte is due, in state RLE_LIT (R90). -/
  | data (a : Symbol)
deriving DecidableEq, Repr

/-- The steps the operation RLE_REP takes (R87, R91, R92; log 12). -/
inductive RepPart where
  /-- The control byte `c ≥ 128` in state RLE_CTRL (R87). -/
  | ctrl (c : Byte)
  /-- What the channel answers where the data byte is due, in state RLE_REPD (R91). -/
  | data (a : Symbol)
  /-- One replay of the pattern, in state RLE_REPW (R92). -/
  | replay
deriving DecidableEq, Repr

/-- The operations of the block: one constructor for each row of opcode_table.json. -/
inductive Instr where
  /-- HDR_BYTE: capture the header byte `b` (R72). -/
  | hdrByte (b : Byte)
  /-- HDR_SHORT: end of stream inside the header (R73). -/
  | hdrShort
  /-- HDR_ERR: a read error inside the header (R74). -/
  | hdrErr
  /-- SEL_RLE: latch the fields, enter the compressed path (R77, R84); `w` and `h` are the header's W and H. -/
  | selRle (w h : Field)
  /-- SEL_RAW: latch the fields, enter the raw path (R77, R78). -/
  | selRaw (w h : Field)
  /-- RLE_LIT: a literal run (R87, R90). -/
  | rleLit (p : LitPart)
  /-- RLE_REP: a repeat run (R87, R91, R92). -/
  | rleRep (p : RepPart)
  /-- RLE_END: end of stream at a control byte (R88). -/
  | rleEnd
  /-- RLE_CTRL_ERR: a read error at a control byte (R89). -/
  | rleCtrlErr
  /-- RLE_CHK: the bound check (R93). -/
  | rleChk
  /-- RAW_BYTE: capture a raw row's byte, commit a full row (R79). -/
  | rawByte (b : Byte)
  /-- RAW_END: end of stream on the raw path (R81). -/
  | rawEnd
  /-- RAW_ERR: a read error on the raw path (R82). -/
  | rawErr
deriving DecidableEq, Repr

/-- What stands before the decoder when the FSM takes a step: the code of one operation (R67). -/
inductive CodeUnit where
  /-- The channel's answer, in a state that consumes input. -/
  | symbol (a : Symbol)
  /-- The 64 captured header bytes (format HDR64, R59), in state DISPATCH. -/
  | header (h : List Byte)
  /-- Nothing: an internal step. -/
  | internal
deriving DecidableEq, Repr

/-- Why the decoder rejects a code unit. No step of the FSM meets one of these (log 22). -/
inductive Reject where
  /-- IDLE, DONE and ERR select no operation (R112). -/
  | terminalState
  /-- The unit is not of the kind that the state takes (R14). -/
  | wrongUnit
  /-- A header that is not 64 bytes long (R59). -/
  | headerLength
deriving DecidableEq, Repr

end Sys2Proof
end

