-- ==== Sys2Proof/WellFormed.lean ====
section
/-! DEFINITION. Well-formed instructions: a control byte is of the run kind that its operation names (30_encoding.md R60). Every
other operand value is admitted (R68). -/

namespace Sys2Proof

/-- The check of one operation, constructor by constructor. -/
def Instr.wf : Instr → Bool
  | .hdrByte _ => true
  | .hdrShort => true
  | .hdrErr => true
  | .selRle _ _ => true
  | .selRaw _ _ => true
  | .rleLit (.ctrl c) => decide (c.toNat < 128)
  | .rleLit (.data _) => true
  | .rleRep (.ctrl c) => decide (128 ≤ c.toNat)
  | .rleRep (.data _) => true
  | .rleRep .replay => true
  | .rleEnd => true
  | .rleCtrlErr => true
  | .rleChk => true
  | .rawByte _ => true
  | .rawEnd => true
  | .rawErr => true

end Sys2Proof
end

