-- ==== Sys2Proof/Decode.lean ====
section
/-! DEFINITION. From code units to operations and back (30_encoding.md R59 to R69). The FSM state and one bit select the operation
(R67): bit 7 of header byte 39 in DISPATCH, bit 7 of the control byte in RLE_CTRL. No encoding is reserved (R68). -/

namespace Sys2Proof

/-! ### Header fields (R45, R59, R75) -/

/-- `HdrWidth(hdr) = hdr[35] ++ hdr[34]` (R75). -/
def hdrWidth (h : List Byte) : Field := h.getD 35 0 ++ h.getD 34 0

/-- `HdrHeight(hdr) = hdr[37] ++ hdr[36]` (R75). -/
def hdrHeight (h : List Byte) : Field := h.getD 37 0 ++ h.getD 36 0

/-- `HdrCompressed(hdr) = hdr[39][7]` (R75). -/
def hdrCompressed (h : List Byte) : Bool := (h.getD 39 0).getLsbD 7

/-! ### The decoder -/

/-- State HDR (rows HDR_BYTE, HDR_SHORT, HDR_ERR). -/
def decodeHdr : Symbol → Instr
  | .byte b => .hdrByte b
  | .endSym => .hdrShort
  | .errSym => .hdrErr

/-- State DISPATCH (rows SEL_RLE, SEL_RAW): the path depends on `hdr[39][7]` alone (R67). -/
def decodeDispatch (h : List Byte) : Instr :=
  if hdrCompressed h then .selRle (hdrWidth h) (hdrHeight h) else .selRaw (hdrWidth h) (hdrHeight h)

/-- State RLE_CTRL (rows RLE_LIT, RLE_REP, RLE_END, RLE_CTRL_ERR): the run kind is the bit `c[7]` (R60, R87). -/
def decodeCtrl : Symbol → Instr
  | .byte c => if c.getLsbD 7 then .rleRep (.ctrl c) else .rleLit (.ctrl c)
  | .endSym => .rleEnd
  | .errSym => .rleCtrlErr

/-- State RAW_ROW (rows RAW_BYTE, RAW_END, RAW_ERR). -/
def decodeRaw : Symbol → Instr
  | .byte b => .rawByte b
  | .endSym => .rawEnd
  | .errSym => .rawErr

/-- A state that consumes input takes a symbol. -/
def onSymbol (f : Symbol → Instr) : CodeUnit → Except Reject Instr
  | .symbol a => .ok (f a)
  | .header _ => .error .wrongUnit
  | .internal => .error .wrongUnit

/-- DISPATCH takes the 64 header bytes. -/
def onHeader (f : List Byte → Instr) : CodeUnit → Except Reject Instr
  | .symbol _ => .error .wrongUnit
  | .header h => if h.length = 64 then .ok (f h) else .error .headerLength
  | .internal => .error .wrongUnit

/-- RLE_REPW and RLE_CHK take nothing. -/
def onInternal (i : Instr) : CodeUnit → Except Reject Instr
  | .symbol _ => .error .wrongUnit
  | .header _ => .error .wrongUnit
  | .internal => .ok i

/-- The operation that the state `st` selects from the code unit `u` (the "state" and "symbol" columns of opcode_table.json). -/
def decode (st : Fsm) (u : CodeUnit) : Except Reject Instr :=
  match st with
  | .idle => .error .terminalState
  | .hdr => onSymbol decodeHdr u
  | .dispatch => onHeader decodeDispatch u
  | .rleCtrl => onSymbol decodeCtrl u
  | .rleLit => onSymbol (fun a => .rleLit (.data a)) u
  | .rleRepd => onSymbol (fun a => .rleRep (.data a)) u
  | .rleRepw => onInternal (.rleRep .replay) u
  | .rleChk => onInternal .rleChk u
  | .rawRow => onSymbol decodeRaw u
  | .done => .error .terminalState
  | .err => .error .terminalState

/-! ### The encoder -/

/-- The 64 bytes of `HDR w=W, h=H, flag=F` (R70). -/
def headerBytes (w h : Field) (flag : Byte) : List Byte :=
  List.replicate 34 0 ++
    [w.extractLsb' 0 8, w.extractLsb' 8 8, h.extractLsb' 0 8, h.extractLsb' 8 8, 0, flag] ++ List.replicate 24 0

/-- The state that runs an operation, and the code unit that selects it there. -/
def encode : Instr → Fsm × CodeUnit
  | .hdrByte b => (.hdr, .symbol (.byte b))
  | .hdrShort => (.hdr, .symbol .endSym)
  | .hdrErr => (.hdr, .symbol .errSym)
  | .selRle w h => (.dispatch, .header (headerBytes w h 0x80))
  | .selRaw w h => (.dispatch, .header (headerBytes w h 0x00))
  | .rleLit (.ctrl c) => (.rleCtrl, .symbol (.byte c))
  | .rleLit (.data a) => (.rleLit, .symbol a)
  | .rleRep (.ctrl c) => (.rleCtrl, .symbol (.byte c))
  | .rleRep (.data a) => (.rleRepd, .symbol a)
  | .rleRep .replay => (.rleRepw, .internal)
  | .rleEnd => (.rleCtrl, .symbol .endSym)
  | .rleCtrlErr => (.rleCtrl, .symbol .errSym)
  | .rleChk => (.rleChk, .internal)
  | .rawByte b => (.rawRow, .symbol (.byte b))
  | .rawEnd => (.rawRow, .symbol .endSym)
  | .rawErr => (.rawRow, .symbol .errSym)

/-- The stream bytes a code unit stands for. -/
def unitBytes : CodeUnit → List Byte
  | .symbol (.byte b) => [b]
  | .symbol .endSym => []
  | .symbol .errSym => []
  | .header h => h
  | .internal => []

/-! ### Words of the opcode table -/

/-- Byte number `k` of the word `w`: byte 0 is the least significant. -/
def wordByte (w k : Nat) : Byte := BitVec.ofNat 8 (w >>> (8 * k))

/-- The instruction read from a word alone, with no FSM state beside it. A word of 512 bits is a header record (HDR64); any other
word of 8 bits or more is an RLE block, whose first byte is the control byte (CTRL8), "the block's two instructions". The rows that
the FSM state alone selects, and the same byte read as header byte 39, cannot be told from a word alone (log 8). -/
def decodeTableWord (nbits w : Nat) : Option Instr :=
  if nbits = 512 then (decode .dispatch (.header ((List.range 64).map (wordByte w)))).toOption
  else if 8 ≤ nbits then (decode .rleCtrl (.symbol (.byte (wordByte w 0)))).toOption
  else none

end Sys2Proof
end

