-- ==== Sys2Proof/Machine/State.lean ====
section
/-! DEFINITION. The state of the block (10_state.md R13 to R40), the host's side of its input channel (20_memory.md R41, R42), and
the reasons a step can stop. All of it is plain data. -/

namespace Sys2Proof.Machine

/-- Sparse storage: pairs of an index and what it holds, indexes strictly rising (`Memory.wf`). An index that is not listed holds
`none`, the spec's own value of an entry nothing has written (R18, R31, R32), so no listed entry equals it. -/
abbrev Memory (α : Type) := List (Nat × α)

/-- The input stream as far as the host has given it (R41; log 1). `bytes[k]` is the byte at offset `k`; `tail` is what follows the
last of them: nothing yet, the terminator, or bytes without end. -/
structure Stream where
  bytes : List Byte
  tail : Tail
deriving DecidableEq, Repr

/-- One move of the host, or its leave for the FSM to take one step (R13; log 2). -/
inductive HostEvent where
  /-- The command `reset` (R110). -/
  | reset
  /-- The command `start` with `abort_short_in`, over the stream the host has opened for it (R111, R113). -/
  | start (abortShortIn : Bool) (stream : Stream)
  /-- The channel comes to have the stream's next symbol (R42, R114). -/
  | supply (a : Symbol)
  /-- The host changes a byte of the stream, which R117 tells it not to do (log 16). -/
  | alter (k : Nat) (b : Byte)
  /-- The FSM takes a step. -/
  | run
deriving DecidableEq, Repr

/-- The state of the block and of its environment. -/
structure State where
  /-- `st`, the FSM state (R14). -/
  st : Fsm
  /-- `abort_short` (R17). -/
  abortShort : Bool
  /-- `hdr[0..63]` (R18). -/
  hdr : Memory Byte
  /-- `hdr_cnt` (R19). -/
  hdrCnt : BitVec 7
  /-- `off`, the bytes consumed (R16). -/
  off : Nat
  /-- `eos` (R20). -/
  eos : Bool
  /-- `width` (R21). -/
  width : Field
  /-- `height` (R21). -/
  height : Field
  /-- `compressed` (R21). -/
  compressed : Bool
  /-- `lim` (R22). -/
  lim : BitVec 32
  /-- `pos`, the pixel cursor (R23). -/
  pos : BitVec 32
  /-- `ctrl` (R24). -/
  ctrl : Byte
  /-- `lit_rem` (R25). -/
  litRem : BitVec 8
  /-- `rep_rem` (R26). -/
  repRem : BitVec 8
  /-- `pat` (R27). -/
  pat : Byte
  /-- `bounds_stop` (R28). -/
  boundsStop : Bool
  /-- `nb`, the raw row length (R29). -/
  nb : BitVec 14
  /-- `row_cnt` (R30). -/
  rowCnt : BitVec 14
  /-- `rowbuf[0..8191]` (R31). -/
  rowbuf : Memory Byte
  /-- `PB`, the PixelBuffer (R32). -/
  pb : Memory Pixel
  /-- `pb_cols` (R33). -/
  pbCols : Field
  /-- `pb_rows` (R33). -/
  pbRows : Nat
  /-- `err_code` (R34). -/
  errCode : ErrKind
  /-- `err_off` (R35). -/
  errOff : Nat
  /-- `warn_short` (R36). -/
  warnShort : Bool
  /-- The stream the input channel answers from (R41, R42): the environment's. -/
  stream : Stream
  /-- The host's pending moves, oldest first: the environment's (log 2). -/
  host : List HostEvent
  /-- How many draws have been taken: the model's own (R6, R73; log 3). -/
  draws : Nat
  /-- The parameters of this block; no step changes them (log 4, log 17). -/
  cfg : Params
deriving DecidableEq, Repr

/-- The model never faults: the block's errors are architected outcomes, `st = ERR`, "not faults of the model" (R10; log 21). So
this type has no constructor. -/
inductive Fault where
deriving DecidableEq, Repr

/-- Why a step has no meaning. -/
inductive Refusal where
  /-- Raised by `exec` for an instruction that has no meaning yet. Safe. -/
  | notModelled (mnemonic : String)
  /-- Raised by every step that would consume byte number COUNTER_LIMIT + 1, when COUNTER_LIMIT is finite (R10, R42, D21). Safe. -/
  | counterLimit
  /-- Raised by the FSM's step if the decoder rejected its code unit; no state does (log 22). Safe. -/
  | undecodable (r : Reject)
deriving DecidableEq, Repr

/-- The outcome of a meaning or a step. -/
abbrev Result := Host.Outcome State Fault Refusal

/-- The machine right after `reset` (R40, R110). The last four fields are no registers of the spec (log 10). -/
def State.reset : State where
  st := .idle
  abortShort := false
  hdr := []
  hdrCnt := 0
  off := 0
  eos := false
  width := 0
  height := 0
  compressed := false
  lim := 0
  pos := 0
  ctrl := 0
  litRem := 0
  repRem := 0
  pat := 0
  boundsStop := false
  nb := 0
  rowCnt := 0
  rowbuf := []
  pb := []
  pbCols := 0
  pbRows := 0
  errCode := .noError
  errOff := 0
  warnShort := false
  stream := { bytes := [], tail := .waiting }
  host := []
  draws := 0
  cfg := { counterLimit := none, drawSource := 0 }

end Sys2Proof.Machine
end

