-- ==== Sys2Proof/Machine/Memory.lean ====
section
/-! DEFINITION. Reading and writing the three stores `hdr`, `rowbuf` and `PB` (10_state.md R18, R31, R32). -/

namespace Sys2Proof.Machine

/-- The canonical form: indexes strictly rising. -/
abbrev Memory.wf {α : Type} (m : Memory α) : Prop := m.Pairwise (fun a b => a.1 < b.1)

/-- The indexes that hold something, in their order. -/
def Memory.keys {α : Type} (m : Memory α) : List Nat := m.map (fun c => c.1)

/-- What index `i` holds; `none` where nothing has been written. -/
def Memory.read {α : Type} (m : Memory α) (i : Nat) : Option α :=
  match m with
  | [] => none
  | (j, u) :: rest => if i = j then some u else Memory.read rest i

/-- Index `i` comes to hold `v`. -/
def Memory.write {α : Type} (m : Memory α) (i : Nat) (v : α) : Memory α :=
  match m with
  | [] => [(i, v)]
  | (j, u) :: rest =>
    if i < j then (i, v) :: (j, u) :: rest
    else if i = j then (i, v) :: rest
    else (j, u) :: Memory.write rest i v

/-- The indexes `0` to `n − 1` come to hold `none`. -/
def Memory.clearBelow {α : Type} (m : Memory α) (n : Nat) : Memory α := m.filter (fun c => decide (n ≤ c.1))

end Sys2Proof.Machine
end

