-- ==== Sys2Proof/Machine/Operands.lean ====
section
/-! DEFINITION. Operands: the bytes of a stream (20_memory.md R41), the counts assembled from encoded fields (30_encoding.md R64 to R66), the pixels of a data byte
(42_rle_decoder.md R85), a raw row's columns (41_raw_unpacker.md R80), and the captured header as a list of bytes. -/

namespace Sys2Proof.Machine

/-- The byte at offset `k` of an infinite stream (R41). -/
def endlessByte (e : Endless) (k : Nat) : Byte :=
  match e with
  | .repeating first more => (first :: more).getD (k % (more.length + 1)) first
  | .free seed => Config.endlessByte seed k

/-- The byte at offset `k` of a stream, if it has one there (R41). -/
def Stream.byteAt (x : Stream) (k : Nat) : Option Byte :=
  match x.bytes[k]? with
  | some b => some b
  | none =>
    match x.tail with
    | .waiting => none
    | .ends _ => none
    | .forever e => some (endlessByte e k)

/-- `lit_count = c + 1` (R64). -/
def litCount (c : Byte) : BitVec 8 := BitVec.ofNat 8 (c.toNat + 1)

/-- `rep_count = (256 − c) + 1`, the inclusive count (R65). -/
def repCount (c : Byte) : BitVec 8 := BitVec.ofNat 8 ((256 - c.toNat) + 1)

/-- `nb = (width + 7) div 8` (R66). -/
def rowLength (w : Field) : BitVec 14 := BitVec.ofNat 14 ((w.toNat + 7) / 8)

/-- `width × height`, exact in 32 bits (R8, R22). -/
def pixelCount (w h : Field) : BitVec 32 := BitVec.ofNat 32 (w.toNat * h.toNat)

/-- Pixel `k` of the data byte `d`, most significant bit first: `d[7 − k]` (R46). -/
def pixelOf (d : Byte) (k : Nat) : Pixel := d.getLsbD (7 - k)

/-- `Unpack8(d)`: the 8 pixels of `d` (R85). -/
def unpack8 (d : Byte) : List Pixel := (List.range 8).map (pixelOf d)

/-- The header byte at offset `i`. Where the entry holds `none`, a free value (log 5). -/
def hdrByteAt (s : State) (i : Nat) : Byte := (Memory.read s.hdr i).getD (Config.absentHdrByte i)

/-- The 64 captured header bytes, the operand of DISPATCH (R77). -/
def capturedHeader (s : State) : List Byte := (List.range 64).map (hdrByteAt s)

/-- The row byte `rowbuf[j]`. Where the entry holds `none`, a free value (log 5). -/
def rowByteAt (buf : Memory Byte) (j : Nat) : Byte := (Memory.read buf j).getD (Config.absentRowByte j)

/-- Column `x` of the row in `buf`: `r[x div 8][7 − (x mod 8)]` (R80). -/
def rowPixel (buf : Memory Byte) (x : Nat) : Pixel := pixelOf (rowByteAt buf (x / 8)) (x % 8)

end Sys2Proof.Machine
end

