-- ==== Sys2Proof/Machine/Flags.lean ====
section
/-! DEFINITION. The tests that steer the FSM, the status levels and the register codes (10_state.md R14, R34, R37). -/

namespace Sys2Proof.Machine

/-- The code of `st` (R14). -/
def fsmCode : Fsm → BitVec 4
  | .idle => 0
  | .hdr => 1
  | .dispatch => 2
  | .rleCtrl => 3
  | .rleLit => 4
  | .rleRepd => 5
  | .rleRepw => 6
  | .rleChk => 7
  | .rawRow => 8
  | .done => 9
  | .err => 10

/-- The code of `err_code` (R34, R96). -/
def errCodeBits : ErrKind → BitVec 3
  | .noError => 0
  | .headerTooShort => 1
  | .ioFailure => 2
  | .truncatedStream => 3
  | .zeroWidth => 4

/-- The states in which the block takes no step (R112). -/
def terminal : Fsm → Bool
  | .idle => true
  | .hdr => false
  | .dispatch => false
  | .rleCtrl => false
  | .rleLit => false
  | .rleRepd => false
  | .rleRepw => false
  | .rleChk => false
  | .rawRow => false
  | .done => true
  | .err => true

/-- The states whose step consumes input (the last column of R14's table). -/
def wantsSymbol : Fsm → Bool
  | .idle => false
  | .hdr => true
  | .dispatch => false
  | .rleCtrl => true
  | .rleLit => true
  | .rleRepd => true
  | .rleRepw => false
  | .rleChk => false
  | .rawRow => true
  | .done => false
  | .err => false

/-- `busy = (st ∉ {IDLE, DONE, ERR})` (R37). -/
def State.busy (s : State) : Bool := !terminal s.st

/-- `done = (st = DONE)` (R37). -/
def State.isDone (s : State) : Bool := decide (s.st = .done)

/-- `error = (st = ERR)` (R37). -/
def State.isError (s : State) : Bool := decide (s.st = .err)

/-- `result_valid = (st = DONE)` (R37, R98). -/
def State.resultValid (s : State) : Bool := decide (s.st = .done)

/-- The header is complete: `hdr_cnt = 64` (R72). -/
def hdrFull (cnt : BitVec 7) : Bool := decide (cnt = 64)

/-- A full row has been read: `row_cnt = nb` (R79). -/
def rowFull (cnt nb : BitVec 14) : Bool := decide (cnt = nb)

/-- The bound check `pos ≥ lim` (R9, R93). -/
def pastLimit (pos lim : BitVec 32) : Bool := decide (lim.toNat ≤ pos.toNat)

/-- A run's counter has come to 0 (R90, R92). -/
def runOver (cnt : BitVec 8) : Bool := decide (cnt = 0)

end Sys2Proof.Machine
end

