-- ==== Sys2Proof/Machine/Ops.lean ====
section
/-! DEFINITION. The shared operations: reading the input channel (20_memory.md R42), writing the PixelBuffer (R51, R86), ending a
decode (60_exceptions.md R97, R98), latching the header fields and entering a path (R77, R78, R84). -/

namespace Sys2Proof.Machine

/-! ### The input channel -/

/-- The symbol a terminator is answered by. -/
def terminatorSymbol : Terminator → Symbol
  | .endMark => .endSym
  | .errMark => .errSym

/-- The channel's answer when `k` bytes have been consumed: the byte at offset `k` or else the terminator (R42); `none` while the
host has given neither (the block then holds, R10). -/
def Stream.answer (x : Stream) (k : Nat) : Option Symbol :=
  match x.byteAt k with
  | some b => some (.byte b)
  | none =>
    match x.tail with
    | .waiting => none
    | .ends t => some (terminatorSymbol t)
    | .forever _ => none

/-- What `ReadSym()` would return now: `End` without a request once `eos` is set, else the channel's answer (R20, R42). -/
def nextSymbol (s : State) : Option Symbol :=
  if s.eos then some .endSym else s.stream.answer s.off

/-- The `Byte` case of `ReadSym()`: `off` rises by 1, unless a finite COUNTER_LIMIT is reached (R16, R42). -/
def takeByte (s : State) : Option State :=
  if s.cfg.counterLimit = some s.off then none else some { s with off := s.off + 1 }

/-- Goes on with a byte consumed, or is refused at COUNTER_LIMIT (R42, R10). -/
def withByte (s : State) (k : State → State) : Result :=
  match takeByte s with
  | none => .refused .counterLimit
  | some t => .next (k t)

/-- The `End` case of `ReadSym()`: `eos <- 1` (R20, R42). -/
def takeEnd (s : State) : State := { s with eos := true }

/-! ### Ending a decode -/

/-- `raise E(off)`, the one error primitive (R97). It writes `err_code`, `err_off` and `st`, and nothing else. -/
def raise (e : ErrKind) (s : State) : State := { s with errCode := e, errOff := s.off, st := .err }

/-- `finish()` (R98). -/
def finish (s : State) : State := { s with st := .done }

/-! ### The PixelBuffer -/

/-- `MemWrite(i, 1, v)` (R51). -/
def memWrite (m : Memory Pixel) (i : Nat) (v : Pixel) : Memory Pixel := Memory.write m i v

/-- Pixels written from cell `i` on, each through the write gate: a pixel at or past `lim` is dropped (R86). -/
def writeGated (lim i : Nat) (ps : List Pixel) (m : Memory Pixel) : Memory Pixel :=
  match ps with
  | [] => m
  | v :: rest => writeGated lim (i + 1) rest (if i < lim then memWrite m i v else m)

/-- `RleWrite8(Unpack8(d))`: one group at the cursor through the gate; the cursor always advances by 8 (R86). -/
def rleWrite8 (d : Byte) (s : State) : State :=
  { s with
    pb := writeGated s.lim.toNat s.pos.toNat (unpack8 d) s.pb
    pos := s.pos + 8 }

/-- Cells `base` to `base + n − 1` written from left to right with `pix 0`, `pix 1`, … (R79). -/
def writeRow (base n : Nat) (pix : Nat → Pixel) (m : Memory Pixel) : Memory Pixel :=
  (List.range n).foldl (fun m x => memWrite m (base + x) (pix x)) m

/-- The commit of a full raw row: `width` cells of row `pb_rows`, then the next row (R79). -/
def commitRow (s : State) : State :=
  { s with
    pb := writeRow (s.pbRows * s.width.toNat) s.width.toNat (rowPixel s.rowbuf) s.pb
    pbRows := s.pbRows + 1
    rowCnt := 0
    rowbuf := Memory.clearBelow s.rowbuf s.nb.toNat }

/-! ### The header -/

/-- Entries `i` to `i + k − 1` of the header come to hold the draws number `d`, `d + 1`, … of `source` (R73). -/
def fillDraws (source d i k : Nat) (m : Memory Byte) : Memory Byte :=
  match k with
  | 0 => m
  | k' + 1 => fillDraws source (d + 1) (i + 1) k' (Memory.write m i (Config.drawByte source d))

/-- `for i in n .. 63: hdr[i] <- draw u8`, one draw a missing byte (R73). R6 leaves open how draws relate to one another: that the
draws of one block are numbered through its life, and that those of another block come from another sequence when its `drawSource`
is another, is the model's choice (DESIGN CHOICE, log 3). -/
def drawMissing (s : State) : State :=
  { s with
    hdr := fillDraws s.cfg.drawSource s.draws s.hdrCnt.toNat (64 - s.hdrCnt.toNat) s.hdr
    draws := s.draws + (64 - s.hdrCnt.toNat) }

/-! ### Dispatch and path entry -/

/-- The fields are latched (R77). -/
def latchFields (w h : Field) (c : Bool) (s : State) : State :=
  { s with width := w, height := h, compressed := c }

/-- `RleEntry()` (R84). -/
def rleEntry (s : State) : State :=
  { s with
    lim := pixelCount s.width s.height
    pos := 0
    pbCols := s.width
    pbRows := s.height.toNat + 1
    st := .rleCtrl }

/-- `RawEntry()` (R78). -/
def rawEntry (s : State) : State :=
  if s.width = 0 then raise .zeroWidth s
  else
    { s with
      nb := rowLength s.width
      rowCnt := 0
      pbCols := s.width
      pbRows := 0
      st := .rawRow }

end Sys2Proof.Machine
end

