-- ==== Sys2Proof/Machine/Header.lean ====
section
/-! DEFINITION. The header parser: HDR_BYTE, HDR_SHORT, HDR_ERR (40_header_parser.md R72 to R74). -/

namespace Sys2Proof.Machine

/-- HDR_BYTE (R72). -/
def execHdrByte (b : Byte) (s : State) : Result :=
  withByte s fun t =>
    { t with
      hdr := Memory.write t.hdr t.hdrCnt.toNat b
      hdrCnt := t.hdrCnt + 1
      st := if hdrFull (t.hdrCnt + 1) then .dispatch else .hdr }

/-- HDR_SHORT (R73): an error if the host asked for it, else a warning and free draws for the missing bytes. -/
def execHdrShort (s : State) : Result :=
  if s.abortShort then .next (raise .headerTooShort (takeEnd s))
  else .next { drawMissing (takeEnd s) with warnShort := true, st := .dispatch }

/-- HDR_ERR (R74). -/
def execHdrErr (s : State) : Result := .next (raise .ioFailure s)

end Sys2Proof.Machine
end

