-- ==== Sys2Proof/Machine/PathSelect.lean ====
section
/-! DEFINITION. The dispatcher: SEL_RLE and SEL_RAW (40_header_parser.md R77, 42_rle_decoder.md R84, 41_raw_unpacker.md R78). -/

namespace Sys2Proof.Machine

/-- SEL_RLE (R77, R84). -/
def execSelRle (w h : Field) (s : State) : Result := .next (rleEntry (latchFields w h true s))

/-- SEL_RAW (R77, R78); a zero width raises ZERO_WIDTH before any read (log 14). -/
def execSelRaw (w h : Field) (s : State) : Result := .next (rawEntry (latchFields w h false s))

end Sys2Proof.Machine
end

