-- ==== Sys2Proof/Machine/Raw.lean ====
section
/-! DEFINITION. The raw unpacker: RAW_BYTE, RAW_END, RAW_ERR (41_raw_unpacker.md R79 to R83). There is no height cap (R83). -/

namespace Sys2Proof.Machine

/-- A row byte is held in `rowbuf` (R79). -/
def captureRowByte (b : Byte) (s : State) : State :=
  { s with
    rowbuf := Memory.write s.rowbuf s.rowCnt.toNat b
    rowCnt := s.rowCnt + 1
    st := .rawRow }

/-- RAW_BYTE (R79): capture, and commit the row when all `nb` bytes have arrived. -/
def execRawByte (b : Byte) (s : State) : Result :=
  withByte s fun t =>
    if rowFull (captureRowByte b t).rowCnt (captureRowByte b t).nb then commitRow (captureRowByte b t)
    else captureRowByte b t

/-- RAW_END (R81): a partial row is discarded. -/
def execRawEnd (s : State) : Result :=
  .next (finish { takeEnd s with rowbuf := Memory.clearBelow s.rowbuf s.nb.toNat, rowCnt := 0 })

/-- RAW_ERR (R82). -/
def execRawErr (s : State) : Result := .next (raise .ioFailure s)

end Sys2Proof.Machine
end

