-- ==== Sys2Proof/Machine/Rle.lean ====
section
/-! DEFINITION. The RLE decoder: RLE_LIT, RLE_REP, RLE_END, RLE_CTRL_ERR, RLE_CHK (42_rle_decoder.md R86 to R93). -/

namespace Sys2Proof.Machine

/-- A control byte `c < 128` (R87). -/
def litStart (c : Byte) (s : State) : State :=
  { s with ctrl := c, litRem := litCount c, st := .rleLit }

/-- A literal data byte (R90). -/
def litByte (d : Byte) (s : State) : State :=
  { rleWrite8 d s with
    litRem := s.litRem - 1
    st := if runOver (s.litRem - 1) then .rleChk else .rleLit }

/-- A control byte `c ≥ 128` (R87). -/
def repStart (c : Byte) (s : State) : State :=
  { s with ctrl := c, repRem := repCount c, st := .rleRepd }

/-- The data byte of a repeat run (R91). -/
def repByte (d : Byte) (s : State) : State := { s with pat := d, st := .rleRepw }

/-- One replay (R92). -/
def replayOnce (s : State) : State :=
  { rleWrite8 s.pat s with
    repRem := s.repRem - 1
    st := if runOver (s.repRem - 1) then .rleChk else .rleRepw }

/-- What a run's step does with the channel's answer where a data byte is due (R90, R91): a missing byte is never taken as zero. -/
def onData (a : Symbol) (k : Byte → State → State) (s : State) : Result :=
  match a with
  | .byte d => withByte s (k d)
  | .endSym => .next (raise .truncatedStream (takeEnd s))
  | .errSym => .next (raise .ioFailure s)

/-- RLE_LIT (R87, R90). -/
def execRleLit (p : LitPart) (s : State) : Result :=
  match p with
  | .ctrl c => withByte s (litStart c)
  | .data a => onData a litByte s

/-- RLE_REP (R87, R91, R92). -/
def execRleRep (p : RepPart) (s : State) : Result :=
  match p with
  | .ctrl c => withByte s (repStart c)
  | .data a => onData a repByte s
  | .replay => .next (replayOnce s)

/-- RLE_END (R88). -/
def execRleEnd (s : State) : Result := .next (finish (takeEnd s))

/-- RLE_CTRL_ERR (R89). -/
def execRleCtrlErr (s : State) : Result := .next (raise .ioFailure s)

/-- The bound check (R93). -/
def boundCheck (s : State) : State :=
  if s.width = 0 then raise .zeroWidth s
  else if pastLimit s.pos s.lim then finish { s with boundsStop := true }
  else { s with st := .rleCtrl }

/-- RLE_CHK (R93). -/
def execRleChk (s : State) : Result := .next (boundCheck s)

end Sys2Proof.Machine
end

