-- ==== Sys2Proof/Machine/Dispatch.lean ====
section
/-! DEFINITION. The meaning of every row of opcode_table.json, one arm each. -/

namespace Sys2Proof.Machine

def exec (i : Instr) (s : State) : Host.Outcome State Fault Refusal :=
  match i with
  -- header parser
  | .hdrByte b => Sys2Proof.Machine.execHdrByte b s
  | .hdrShort => Sys2Proof.Machine.execHdrShort s
  | .hdrErr => Sys2Proof.Machine.execHdrErr s
  -- dispatcher
  | .selRle w h => Sys2Proof.Machine.execSelRle w h s
  | .selRaw w h => Sys2Proof.Machine.execSelRaw w h s
  -- RLE decoder
  | .rleLit p => Sys2Proof.Machine.execRleLit p s
  | .rleRep p => Sys2Proof.Machine.execRleRep p s
  | .rleEnd => Sys2Proof.Machine.execRleEnd s
  | .rleCtrlErr => Sys2Proof.Machine.execRleCtrlErr s
  | .rleChk => Sys2Proof.Machine.execRleChk s
  -- raw unpacker
  | .rawByte b => Sys2Proof.Machine.execRawByte b s
  | .rawEnd => Sys2Proof.Machine.execRawEnd s
  | .rawErr => Sys2Proof.Machine.execRawErr s

end Sys2Proof.Machine
end

