-- ==== Sys2Proof/Machine/HostPort.lean ====
section
/-! DEFINITION. The host's side of the block: the commands `reset` and `start` (70_reset_and_hazards.md R110, R111), the channel's
supply (R114), and what the host reads (10_state.md R37, R38; 20_memory.md R52; 70_reset_and_hazards.md R115). -/

namespace Sys2Proof.Machine

/-! ### Commands -/

/-- `reset`: every register at its value of R40 (R110). The environment, the count of draws and the parameters are no registers. -/
def hostReset (s : State) : State :=
  { State.reset with stream := s.stream, host := s.host, draws := s.draws, cfg := s.cfg }

/-- `start` over the stream `x`: a new decode from IDLE, DONE or ERR; ignored while busy (R111). -/
def hostStart (abortShortIn : Bool) (x : Stream) (s : State) : State :=
  if s.busy then s
  else { hostReset s with abortShort := abortShortIn, stream := x, st := .hdr }

/-! ### The input channel -/

/-- The stream's next symbol comes to the channel (R42, R114). Nothing follows a terminator or bytes without end (R41; log 16). -/
def Stream.supply (x : Stream) (a : Symbol) : Stream :=
  match x.tail with
  | .waiting =>
    match a with
    | .byte b => { x with bytes := x.bytes ++ [b] }
    | .endSym => { x with tail := .ends .endMark }
    | .errSym => { x with tail := .ends .errMark }
  | .ends _ => x
  | .forever _ => x

/-- The bytes `0` to `n − 1` and all that are written out already, written out. -/
def Stream.unroll (x : Stream) (n : Nat) : List Byte :=
  match x.tail with
  | .waiting => x.bytes
  | .ends _ => x.bytes
  | .forever e => x.bytes ++ (List.range (n - x.bytes.length)).map (fun j => endlessByte e (x.bytes.length + j))

/-- The byte at offset `k` is changed, if the stream has one there (R117; log 16). -/
def Stream.alter (x : Stream) (k : Nat) (b : Byte) : Stream := { x with bytes := (x.unroll (k + 1)).set k b }

/-- A request is outstanding: the block waits for the channel's answer (R10 "hold", R42). -/
def State.requesting (s : State) : Bool := wantsSymbol s.st && !s.eos

/-! ### What the host reads -/

/-- The host-visible outputs (R37). -/
structure Outputs where
  status : BitVec 4
  busy : Bool
  done : Bool
  error : Bool
  resultValid : Bool
  errCode : BitVec 3
  errOff : Nat
  warnShort : Bool
  boundsStop : Bool
  width : Field
  height : Field
  compressed : Bool
  pbCols : Field
  pbRows : Nat
  off : Nat
deriving DecidableEq, Repr

/-- The outputs as the registers have them (R37). -/
def registerOutputs (s : State) : Outputs where
  status := fsmCode s.st
  busy := s.busy
  done := s.isDone
  error := s.isError
  resultValid := s.resultValid
  errCode := errCodeBits s.errCode
  errOff := s.errOff
  warnShort := s.warnShort
  boundsStop := s.boundsStop
  width := s.width
  height := s.height
  compressed := s.compressed
  pbCols := s.pbCols
  pbRows := s.pbRows
  off := s.off

/-- The outputs at the read number `occasion`, while the block is busy: any values (R115), but for `busy` itself (log 6). -/
def busyOutputs (occasion : Nat) : Outputs where
  status := BitVec.ofNat 4 (Config.busyNat occasion 0)
  busy := true
  done := Config.busyBit occasion 0
  error := Config.busyBit occasion 1
  resultValid := Config.busyBit occasion 2
  errCode := BitVec.ofNat 3 (Config.busyNat occasion 1)
  errOff := Config.busyNat occasion 2
  warnShort := Config.busyBit occasion 3
  boundsStop := Config.busyBit occasion 4
  width := BitVec.ofNat 16 (Config.busyNat occasion 3)
  height := BitVec.ofNat 16 (Config.busyNat occasion 4)
  compressed := Config.busyBit occasion 5
  pbCols := BitVec.ofNat 16 (Config.busyNat occasion 5)
  pbRows := Config.busyNat occasion 6
  off := Config.busyNat occasion 7

/-- What the host reads of the outputs (R37, R115). -/
def hostOutputs (occasion : Nat) (s : State) : Outputs :=
  if s.busy then busyOutputs occasion else registerOutputs s

/-- `MemRead(i, 1)`: cell `i` of the PixelBuffer, without side effect (R52); any value while the block is busy (R115). -/
def memRead (occasion : Nat) (s : State) (i : Nat) : Option Pixel :=
  if s.busy then Config.busyCell occasion i else Memory.read s.pb i

/-- The decode's result `(pb_cols, pb_rows, PB)`, when there is one (R38, R98). -/
def result (s : State) : Option (Field × Nat × Memory Pixel) :=
  if s.resultValid then some (s.pbCols, s.pbRows, s.pb) else none

end Sys2Proof.Machine
end

