-- ==== Sys2Proof/Machine/Advance.lean ====
section
/-! DEFINITION. One step: the FSM's (00_scope.md R10, 10_state.md R13, R14) and the host's moves between the FSM's steps. -/

namespace Sys2Proof.Machine

/-- What stands before the decoder: the channel's answer in a state that consumes input, the captured header in DISPATCH, nothing in
an internal step. `none`: the channel has not answered, and the block holds (R10, R42). -/
def fetch (s : State) : Option CodeUnit :=
  if wantsSymbol s.st then (nextSymbol s).map .symbol
  else if s.st = .dispatch then some (.header (capturedHeader s))
  else some .internal

/-- The operation selected by the FSM state and the code unit runs (R67). -/
def runUnit (u : CodeUnit) (s : State) : Result :=
  match decode s.st u with
  | .ok i => exec i s
  | .error r => .refused (.undecodable r)

/-- One step of the FSM. In IDLE, DONE and ERR it takes no step (R112); while the channel has not answered it holds (R10). Both are
steps that change nothing (log 15). -/
def fsmStep (s : State) : Result :=
  if terminal s.st then .next s
  else
    match fetch s with
    | none => .next s
    | some u => runUnit u s

/-- One move of the host, taken between two steps of the FSM, or its leave for the FSM to take one (R13; log 2). -/
def hostMove (e : HostEvent) (s : State) : Result :=
  match e with
  | .reset => .next (hostReset s)
  | .start a x => .next (hostStart a x s)
  | .supply a => .next { s with stream := s.stream.supply a }
  | .alter k b => .next { s with stream := s.stream.alter k b }
  | .run => fsmStep s

/-- The next pending move of the host, or a step of the FSM when none is pending. -/
def advance (s : State) : Result :=
  match s.host with
  | [] => fsmStep s
  | e :: rest => hostMove e { s with host := rest }

/-! ### The outcomes of an FSM step (R10) -/

inductive StepKind where
  | nextState
  | hold
  | terminal
  | refused
deriving DecidableEq, Repr

/-- Which of R10's outcomes the FSM's step has. -/
def stepKind (s : State) : StepKind :=
  if terminal s.st then .terminal
  else
    match fetch s with
    | none => .hold
    | some u =>
      match runUnit u s with
      | .next _ => .nextState
      | .fault r => nomatch r
      | .refused _ => .refused

/-! ### Placing an instruction -/

/-- How many bytes the longest instruction has: a literal block of 128 data bytes (R61). -/
def longestBlock : Nat := 129

/-- The bytes of a stream up to offset `k`, then `code`; an offset before `k` where the stream has no byte is filled with 0. -/
def placeAt (x : Stream) (k : Nat) (code : List Byte) : List Byte :=
  (List.range k).map (fun j => (x.byteAt j).getD 0) ++ code

/-- Byte `k` of the word `w` of `nbits` bits (a whole number of bytes): the bits above `nbits` are 0. -/
def placedByte (nbits w k : Nat) : Byte := if 8 * k < nbits then wordByte w k else 0

/-- The word `w` of `nbits` bits placed so that the next step runs it: a header record into `hdr` before DISPATCH, anything else
into the stream at `off` before RLE_CTRL (log 8, log 9). -/
def placeWord (s : State) (nbits w : Nat) : State :=
  if nbits = 512 then
    { s with
      st := .dispatch
      hdr := (List.range 64).map (fun i => (i, placedByte nbits w i))
      hdrCnt := 64
      host := [] }
  else
    { s with
      st := .rleCtrl
      eos := false
      stream := { s.stream with bytes := placeAt s.stream s.off ((List.range longestBlock).map (placedByte nbits w)) }
      host := [] }

end Sys2Proof.Machine
end

