-- ==== Sys2Proof/Machine/Step.lean ====
section
/-! DEFINITION. The step function of the machine. -/

namespace Sys2Proof.Machine

/-- One step: the host's next pending move, or, when none is pending, one step of the FSM (00_scope.md R10, 10_state.md R13). -/
def step (s : State) : Host.Outcome State Fault Refusal := advance s

/-- `s` with the word `w` placed where the next step fetches its instruction (log 8, log 9). -/
def State.withFetchWord (s : State) (nbits w : Nat) : State := placeWord s nbits w

end Sys2Proof.Machine
end

