-- ==== Sys2Proof/Machine/Block.lean ====
section
/-! DEFINITION. The effect of one whole RLE block as one function (42_rle_decoder.md R94), beside the FSM that takes it step by step. -/

namespace Sys2Proof.Machine

/-- A part of a block: it goes on, or the block has ended (or waits for the channel) within it. -/
inductive Flow where
  | go (s : State)
  | ended (r : Result)

/-- `next byte` of R94: `End` and `Err` end the block, and a channel that has not answered leaves the block where it is. -/
def nextByte (onEnd : State → State) (s : State) (k : Byte → State → Flow) : Flow :=
  match nextSymbol s with
  | none => .ended (.next s)
  | some (.byte b) =>
    match takeByte s with
    | none => .ended (.refused .counterLimit)
    | some t => k b t
  | some .endSym => .ended (.next (onEnd (takeEnd s)))
  | some .errSym => .ended (.next (raise .ioFailure s))

/-- `n` literal data bytes are read and written (R90, R94). -/
def litData (n : Nat) (s : State) : Flow :=
  match n with
  | 0 => .go { s with st := .rleChk }
  | k + 1 =>
    nextByte (raise .truncatedStream) s fun d t => litData k { rleWrite8 d t with litRem := BitVec.ofNat 8 k }

/-- `n` replays of the pattern (R92, R94). -/
def replays (n : Nat) (s : State) : State :=
  match n with
  | 0 => { s with st := .rleChk }
  | k + 1 => replays k { rleWrite8 s.pat s with repRem := BitVec.ofNat 8 k }

/-- A block up to its bound check (R94). -/
def blockBody (s : State) : Flow :=
  nextByte finish s fun c t =>
    if c.toNat < 128 then litData (c.toNat + 1) (litStart c t)
    else
      nextByte (raise .truncatedStream) (repStart c t) fun d u =>
        .go (replays ((256 - c.toNat) + 1) (repByte d u))

/-- `RleBlock()`: from RLE_CTRL to the next RLE_CTRL or a terminal state (R94). -/
def rleBlock (s : State) : Result :=
  match blockBody s with
  | .go t => .next (boundCheck t)
  | .ended r => r

end Sys2Proof.Machine
end

