-- ==== Sys2Proof/Machine/Platform.lean ====
section
/-! DEFINITION. Several instances of the block on one platform: independent copies that share nothing (60_exceptions.md R108). -/

namespace Sys2Proof.Machine

/-- A platform of `n` blocks right after reset. R108 leaves open how the draws of two of them relate (R10, R73): each takes its own
free sequence, so that no two need draw equal bytes; that is the model's choice (DESIGN CHOICE, log 17). -/
def platform (n : Nat) : List State :=
  (List.range n).map (fun k => { State.reset with cfg := { counterLimit := none, drawSource := k } })

/-- Instance `k` takes one step; the others stay. There is no instance `k`, or its step is refused: no answer. No step changes a
block's `drawSource`, so what `platform` says of the draws stays so (DESIGN CHOICE, log 17). -/
def stepInstance (k : Nat) (ms : List State) : Option (List State) :=
  match ms[k]? with
  | none => none
  | some s =>
    match step s with
    | .next t => some (ms.set k t)
    | .fault r => nomatch r
    | .refused _ => none

end Sys2Proof.Machine
end

