-- ==== Sys2Proof/Machine/StreamText.lean ====
section
/-! DEFINITION. The lines in which streams are written (30_encoding.md R70) and the pseudo-operations FILL and PIXELS (R71), as an
assembler. An operand outside its range, and a line after the terminator, assemble to nothing (log 18). -/

namespace Sys2Proof.Machine

/-- One line of a stream (R70, R71). -/
inductive StreamLine where
  /-- `HDR w=W, h=H, flag=F`. -/
  | hdr (w h : Field) (flag : Byte)
  /-- `HDR_SHORT n, w=W, h=H, flag=F`, `n ≤ 63`. -/
  | hdrShort (n : Nat) (w h : Field) (flag : Byte)
  /-- `LIT d0, …`, 1 to 128 bytes. -/
  | lit (ds : List Byte)
  /-- `REP k, d`, `2 ≤ k ≤ 129`. -/
  | rep (k : Nat) (d : Byte)
  /-- `DB b0, …`. -/
  | db (bs : List Byte)
  /-- `FILL n, d`, `n ≥ 1`. -/
  | fill (n : Nat) (d : Byte)
  /-- `PIXELS d0, …`, at least one byte. -/
  | pixels (ds : List Byte)
  /-- `END`. -/
  | endLine
  /-- `ERR`. -/
  | errLine
deriving DecidableEq, Repr

/-- `LIT`: `n − 1`, then the data bytes (R70). -/
def litBlock (ds : List Byte) : List Byte := BitVec.ofNat 8 (ds.length - 1) :: ds

/-- `REP k, d`: `257 − k`, then `d` (R70). -/
def repBlock (k : Nat) (d : Byte) : List Byte := [BitVec.ofNat 8 (257 - k), d]

/-- How many copies the next block of `FILL n, d` takes: one literal, or as many replays as fit without leaving a single one (R71). -/
def fillCount (n : Nat) : Nat :=
  if n = 1 then 1 else if n - min n 129 = 1 then min n 129 - 1 else min n 129

/-- The blocks of `FILL n, d` (R71); `fuel` bounds their number. -/
def fillBlocks (fuel n : Nat) (d : Byte) : List Byte :=
  match fuel with
  | 0 => []
  | f + 1 =>
    if n = 0 then []
    else if n = 1 then litBlock [d]
    else repBlock (fillCount n) d ++ fillBlocks f (n - fillCount n) d

/-- `FILL n, d` (R71). Every block takes at least one copy, so `n` blocks are enough. -/
def fillBytes (n : Nat) (d : Byte) : List Byte := fillBlocks n n d

/-- Literal blocks of at most 128 bytes each, in order (R71); `fuel` bounds their number. R71 leaves open where the sequence is cut:
full blocks of 128 bytes with the remainder last is the model's choice (DESIGN CHOICE, log 23). -/
def pixelBlocks (fuel : Nat) (ds : List Byte) : List Byte :=
  match fuel with
  | 0 => []
  | f + 1 => if ds = [] then [] else litBlock (ds.take 128) ++ pixelBlocks f (ds.drop 128)

/-- `PIXELS d0, …` (R71). -/
def pixelBytes (ds : List Byte) : List Byte := pixelBlocks ds.length ds

/-- The bytes one line produces (R70, R71). -/
def lineBytes : StreamLine → Option (List Byte)
  | .hdr w h f => some (headerBytes w h f)
  | .hdrShort n w h f => if n ≤ 63 then some ((headerBytes w h f).take n) else none
  | .lit ds => if 1 ≤ ds.length ∧ ds.length ≤ 128 then some (litBlock ds) else none
  | .rep k d => if 2 ≤ k ∧ k ≤ 129 then some (repBlock k d) else none
  | .db bs => some bs
  | .fill n d => if 1 ≤ n then some (fillBytes n d) else none
  | .pixels ds => if 1 ≤ ds.length then some (pixelBytes ds) else none
  | .endLine => some []
  | .errLine => some []

/-- The terminator a line gives (R70). -/
def lineTerm : StreamLine → Option Terminator
  | .hdr _ _ _ => none
  | .hdrShort _ _ _ _ => none
  | .lit _ => none
  | .rep _ _ => none
  | .db _ => none
  | .fill _ _ => none
  | .pixels _ => none
  | .endLine => some .endMark
  | .errLine => some .errMark

/-- The stream that the lines write, in their order. Lines with no terminator among them write an infinite stream (R70): what comes
after their bytes is free, told from other streams by `seed` (log 18). -/
def assemble (seed : Nat) (lines : List StreamLine) : Option Stream :=
  match lines with
  | [] => some { bytes := [], tail := .forever (.free seed) }
  | l :: rest =>
    match lineBytes l, lineTerm l, assemble seed rest with
    | some bs, none, some x => some { x with bytes := bs ++ x.bytes }
    | some bs, some t, some x => if rest = [] then some { x with bytes := bs ++ x.bytes, tail := .ends t } else none
    | _, _, _ => none

end Sys2Proof.Machine
end

