-- ==== Sys2Proof/Safety.lean ====
section
/-! DEFINITION. What holds of every state a run reaches, in the terms the claims use: the invariant `Inv`, the image a decode has
produced so far (`RawImage`, `RleImage`), and the bound on the steps a decode still takes. -/

namespace Sys2Proof.Machine

/-! ### The invariant -/

/-- The states of the RLE path. -/
def onRlePath : Fsm → Bool
  | .idle => false
  | .hdr => false
  | .dispatch => false
  | .rleCtrl => true
  | .rleLit => true
  | .rleRepd => true
  | .rleRepw => true
  | .rleChk => true
  | .rawRow => false
  | .done => false
  | .err => false

/-- The states inside an RLE block, where `eos` cannot be set (R20, R90). -/
def insideBlock : Fsm → Bool
  | .idle => false
  | .hdr => false
  | .dispatch => false
  | .rleCtrl => false
  | .rleLit => true
  | .rleRepd => true
  | .rleRepw => true
  | .rleChk => true
  | .rawRow => false
  | .done => false
  | .err => false

/-- The states in which the header is behind (R72, R73). -/
def pastHeader : Fsm → Bool
  | .idle => false
  | .hdr => false
  | .dispatch => true
  | .rleCtrl => true
  | .rleLit => true
  | .rleRepd => true
  | .rleRepw => true
  | .rleChk => true
  | .rawRow => true
  | .done => true
  | .err => false

/-- `max(lim − 1, 0)`, where a block may begin at the latest (R23). -/
def lastCell (s : State) : Nat := s.lim.toNat - 1

/-- Before a path is entered every register of the paths is at its reset value (R40, R111). -/
abbrev FreshInv (s : State) : Prop :=
  (s.st = .idle → s = hostReset s) ∧
  (s.st = .hdr → s = { hostReset s with
    st := .hdr, abortShort := s.abortShort, hdr := s.hdr, hdrCnt := s.hdrCnt, off := s.off }) ∧
  (s.st = .dispatch → s = { hostReset s with
    st := .dispatch, abortShort := s.abortShort, hdr := s.hdr, hdrCnt := s.hdrCnt, off := s.off, eos := s.eos,
    warnShort := s.warnShort })

/-- The captured header (R18, R19, R36, R72, R73). -/
abbrev HeaderInv (s : State) : Prop :=
  Memory.keys s.hdr = List.range (if s.warnShort then 64 else s.hdrCnt.toNat) ∧
  s.hdrCnt.toNat ≤ 64 ∧
  s.hdrCnt.toNat ≤ s.off ∧
  (s.st = .hdr → s.hdrCnt.toNat < 64 ∧ s.off = s.hdrCnt.toNat ∧ s.eos = false) ∧
  (s.warnShort = true → s.hdrCnt.toNat < 64 ∧ s.off = s.hdrCnt.toNat ∧ s.eos = true ∧ s.abortShort = false) ∧
  (pastHeader s.st = true → s.warnShort = false → s.hdrCnt = 64) ∧
  (s.st = .dispatch → s.warnShort = false → s.off = 64)

/-- The stream is read in order and never past its end, nor past COUNTER_LIMIT (R16, R20, R42, R43). -/
abbrev StreamInv (s : State) : Prop :=
  (∀ k < s.off, (s.stream.byteAt k).isSome = true) ∧
  (s.eos = true → s.off = s.stream.bytes.length ∧ s.stream.tail = .ends .endMark) ∧
  (insideBlock s.st = true → s.eos = false) ∧
  (s.st = .dispatch ∨ s.st = .rleCtrl ∨ s.st = .rawRow → s.eos = s.warnShort) ∧
  (∀ n ∈ s.cfg.counterLimit, s.off ≤ n)

/-- The RLE path (R22, R23, R33, R84, R86, R95): in particular the written cells are exactly `0` to `min(pos, lim) − 1`. -/
abbrev RleInv (s : State) : Prop :=
  (onRlePath s.st = true → s.compressed = true) ∧
  (s.compressed = true →
    (onRlePath s.st = true ∨ s.st = .done ∨ s.st = .err) ∧
    s.lim = pixelCount s.width s.height ∧ s.pbCols = s.width ∧ s.pbRows = s.height.toNat + 1 ∧
    s.pos.toNat % 8 = 0 ∧ s.pos.toNat ≤ lastCell s + 1032 ∧
    Memory.keys s.pb = List.range (min s.pos.toNat s.lim.toNat) ∧
    s.nb = 0 ∧ s.rowCnt = 0 ∧ s.rowbuf = [] ∧
    (s.warnShort = true → s.pos = 0) ∧ (s.warnShort = false → s.hdrCnt = 64))

/-- The run registers inside an RLE block (R23 to R27, R87, R90 to R92). -/
abbrev RunInv (s : State) : Prop :=
  s.litRem.toNat ≤ 128 ∧ s.repRem.toNat ≤ 129 ∧
  (s.st = .rleCtrl → s.pos.toNat ≤ lastCell s) ∧
  (s.st = .rleLit → s.ctrl.toNat < 128 ∧ 1 ≤ s.litRem.toNat ∧ s.litRem.toNat ≤ s.ctrl.toNat + 1 ∧
    s.pos.toNat + 8 * s.litRem.toNat ≤ lastCell s + 1024) ∧
  (s.st = .rleRepd → 128 ≤ s.ctrl.toNat ∧ s.repRem.toNat = 257 - s.ctrl.toNat ∧ s.pos.toNat ≤ lastCell s) ∧
  (s.st = .rleRepw → 128 ≤ s.ctrl.toNat ∧ 1 ≤ s.repRem.toNat ∧ s.repRem.toNat ≤ 257 - s.ctrl.toNat ∧
    s.pos.toNat + 8 * s.repRem.toNat ≤ lastCell s + 1032)

/-- The registers of a raw decode once the path is entered: the rows committed are whole, and nothing else is written. -/
abbrev RawRegs (s : State) : Prop :=
  s.compressed = false ∧ s.width ≠ 0 ∧ s.nb = rowLength s.width ∧ s.pbCols = s.width ∧
  s.rowCnt.toNat < s.nb.toNat ∧ Memory.keys s.rowbuf = List.range s.rowCnt.toNat ∧
  Memory.keys s.pb = List.range (s.pbRows * s.width.toNat)

/-- How far a raw decode has read (R79, R81): whole rows and the row under way; at the end, whole rows and less than one more. -/
abbrev RawProgress (s : State) : Prop :=
  (s.warnShort = true → s.pbRows = 0 ∧ s.rowCnt = 0) ∧ (s.warnShort = false → s.hdrCnt = 64) ∧
  (s.st ≠ .done → s.warnShort = false → s.off = 64 + s.pbRows * s.nb.toNat + s.rowCnt.toNat) ∧
  (s.st = .done → s.warnShort = false →
    64 + s.pbRows * s.nb.toNat ≤ s.off ∧ s.off < 64 + (s.pbRows + 1) * s.nb.toNat)

/-- The RLE registers on the raw path, and before any path (R22 to R28, R40). -/
abbrev NoRleRegs (s : State) : Prop :=
  s.lim = 0 ∧ s.pos = 0 ∧ s.ctrl = 0 ∧ s.litRem = 0 ∧ s.repRem = 0 ∧ s.pat = 0

/-- The raw registers where the raw path has not been entered (R29 to R33, R40). -/
abbrev NoRawRegs (s : State) : Prop :=
  s.rowCnt = 0 ∧ s.rowbuf = [] ∧ s.pb = [] ∧ s.pbRows = 0 ∧ s.pbCols = 0

/-- Where the raw registers are in use (R78), and what they hold then. -/
abbrev RawInv (s : State) : Prop :=
  (s.st = .rawRow → s.nb ≠ 0) ∧
  (s.nb ≠ 0 → (s.st = .rawRow ∨ s.st = .done ∨ s.st = .err) ∧ RawRegs s ∧ RawProgress s)

/-- The registers of a path that is not entered are at their reset values (R40, R111). -/
abbrev OffPathInv (s : State) : Prop :=
  s.compressed = false → NoRleRegs s ∧ (s.nb = 0 → NoRawRegs s)

/-- The error registers (R34, R35, R97, R102). -/
abbrev ErrorInv (s : State) : Prop :=
  (s.st = .err → s.errCode ≠ .noError ∧ s.errOff = s.off) ∧
  (s.st ≠ .err → s.errCode = .noError ∧ s.errOff = 0)

/-- What each error kind tells (R73, R74, R78, R90, R91, R93, R96). -/
abbrev ErrorKindInv (s : State) : Prop :=
  (s.errCode = .headerTooShort → s.abortShort = true ∧ s.eos = true ∧ s.off < 64) ∧
  (s.errCode = .ioFailure → s.eos = s.warnShort ∧ s.off = s.stream.bytes.length ∧ s.stream.tail = .ends .errMark) ∧
  (s.errCode = .truncatedStream → s.compressed = true ∧ s.eos = true) ∧
  (s.errCode = .zeroWidth → s.width = 0)

/-- How a decode ends normally (R28, R81, R88, R93, R95, R98). -/
abbrev DoneInv (s : State) : Prop :=
  (s.boundsStop = true → s.st = .done ∧ s.compressed = true ∧ s.width ≠ 0 ∧ s.lim.toNat ≤ s.pos.toNat) ∧
  (s.st = .done → s.compressed = true → s.boundsStop = false → s.eos = true) ∧
  (s.st = .done → s.compressed = false → s.nb ≠ 0 ∧ s.eos = true ∧ s.rowCnt = 0)

/-- What holds of every state that a run from reset reaches, whatever the host does. -/
structure Inv (s : State) : Prop where
  fresh : FreshInv s
  header : HeaderInv s
  stream : StreamInv s
  rle : RleInv s
  runs : RunInv s
  raw : RawInv s
  offPath : OffPathInv s
  error : ErrorInv s
  errorKind : ErrorKindInv s
  ended : DoneInv s

/-! ### The image -/

/-- The host leaves the bytes of the stream alone (R117). -/
def keepsStream : HostEvent → Bool
  | .reset => true
  | .start _ _ => true
  | .supply _ => true
  | .alter _ _ => false
  | .run => true

/-- No pending move of the host changes a byte of the stream. -/
abbrev HostKeepsStream (s : State) : Prop := ∀ e ∈ s.host, keepsStream e = true

/-- The bit of stream byte `k` that pixel number `j` of it is (R46); `none` when the stream has no such byte. -/
def streamPixel (x : Stream) (k j : Nat) : Option Pixel := (x.byteAt k).map (fun d => pixelOf d j)

/-- The raw image so far: pixel `(x, y)` is "bit `(7 - x mod 8)` of the byte at row `y`, column `x div 8`" of the stream after the
header (R80; 95_test_vectors.md E5), and the bytes of the row under way are the stream's. -/
abbrev RawImage (s : State) : Prop :=
  HostKeepsStream s ∧
  (s.compressed = false →
    (∀ y < s.pbRows, ∀ x < s.width.toNat,
      Memory.read s.pb (y * s.width.toNat + x) = streamPixel s.stream (64 + y * s.nb.toNat + x / 8) (x % 8)) ∧
    (∀ j < s.rowCnt.toNat, Memory.read s.rowbuf j = s.stream.byteAt (64 + s.pbRows * s.nb.toNat + j)))

/-- Where a reader of RLE blocks stands. -/
inductive ParsePhase where
  /-- A control byte is next. -/
  | ctrl
  /-- `n` literal data bytes are still to come. -/
  | lit (n : Nat)
  /-- The data byte of a repeat run of `n` replays is next. -/
  | rep (n : Nat)
deriving DecidableEq, Repr

/-- A reader of RLE blocks: its phase, and the pixel groups it has read, in stream order. -/
structure Parse where
  phase : ParsePhase
  groups : List Byte
deriving DecidableEq, Repr

/-- One more byte of the stream (R60 to R62): each literal data byte is one group, each replay of a repeat run is one (R95). -/
def parseByte (p : Parse) (b : Byte) : Parse :=
  match p.phase with
  | .ctrl =>
    if b.toNat < 128 then { p with phase := .lit (b.toNat + 1) } else { p with phase := .rep (257 - b.toNat) }
  | .lit n => { phase := if n ≤ 1 then .ctrl else .lit (n - 1), groups := p.groups ++ [b] }
  | .rep n => { phase := .ctrl, groups := p.groups ++ List.replicate n b }

/-- The groups of a sequence of RLE bytes. -/
def parseBytes (bs : List Byte) : Parse := bs.foldl parseByte { phase := .ctrl, groups := [] }

/-- The pixel bytes consumed so far: offsets 64 to `off − 1` (R43). -/
def pixelBytesRead (s : State) : List Byte := (List.range (s.off - 64)).filterMap (fun j => s.stream.byteAt (64 + j))

/-- The reader's phase that the FSM's state stands for. -/
abbrev PhaseMatches (s : State) (p : ParsePhase) : Prop :=
  (s.st = .rleCtrl ∨ s.st = .rleRepw ∨ s.st = .rleChk → p = .ctrl) ∧
  (s.st = .rleLit → p = .lit s.litRem.toNat) ∧
  (s.st = .rleRepd → p = .rep s.repRem.toNat)

/-- The RLE image so far: "Cell `i` holds bit `7 − (i mod 8)` of the `(i div 8)`-th pixel group", the groups being those of the
bytes consumed, in stream order (R95); of a repeat run under way, `rep_rem` groups are not written yet. -/
abbrev RleImage (s : State) : Prop :=
  HostKeepsStream s ∧
  (s.compressed = true →
    PhaseMatches s (parseBytes (pixelBytesRead s)).phase ∧
    8 * (parseBytes (pixelBytesRead s)).groups.length
      = s.pos.toNat + (if s.st = .rleRepw then 8 * s.repRem.toNat else 0) ∧
    (s.st = .rleRepw → ∀ k < s.repRem.toNat,
      (parseBytes (pixelBytesRead s)).groups[s.pos.toNat / 8 + k]? = some s.pat) ∧
    (∀ i < min s.pos.toNat s.lim.toNat,
      Memory.read s.pb i = ((parseBytes (pixelBytesRead s)).groups[i / 8]?).map (fun d => pixelOf d (i % 8))))

/-! ### Running -/

/-- `n` steps of the machine, one after the other, up to the first refusal. -/
def run (n : Nat) (s : State) : Result :=
  match n with
  | 0 => .next s
  | k + 1 =>
    match step s with
    | .next t => run k t
    | .fault f => .fault f
    | .refused r => .refused r

/-- COUNTER_LIMIT lets one more byte through (R42, D21). -/
abbrev ByteAllowed (s : State) : Prop := s.cfg.counterLimit ≠ some s.off

/-- The FSM has the machine for itself: no move of the host is pending, and no counter limit is set (D21's default). -/
abbrev Undisturbed (s : State) : Prop := s.host = [] ∧ s.cfg.counterLimit = none

/-- A bound on the steps a decode of a terminated stream still takes (R120): a byte leads to at most 132 steps, and a run under way
to at most as many again. -/
def stepsLeft (s : State) : Nat := 200 * (s.stream.bytes.length - s.off) + 200

end Sys2Proof.Machine
end

