-- ==== Sys2Proof/Certificates/Slice0/Obligations.lean ====
section
/-! DEFINITION. The statements for the provers. Each says in its docstring which rule of spec/ it states, and names the log entry
wherever it rests on a choice of the model. -/

open Sys2Proof Sys2Proof.Machine

/-! ### Encoding -/

/-- Decoding what the encoder writes for a well-formed instruction gives the instruction back, for every row and every operand. -/
def Obligations.DecodeEncodeRoundTrip : Prop :=
  ∀ i : Instr, i.wf = true → decode (encode i).1 (encode i).2 = .ok i

/-- What decodes is well-formed and belongs to the state that decoded it; outside DISPATCH, where 59 header bytes and 7 bits are
ignored, the code unit is the one the encoder writes. -/
def Obligations.DecodedBelongsToItsState : Prop :=
  ∀ (st : Fsm) (u : CodeUnit) (i : Instr), decode st u = .ok i →
    i.wf = true ∧ (encode i).1 = st ∧ (st ≠ .dispatch → (encode i).2 = u)

/-- R60: bit 7 of the control byte is K, bits 6..0 are N, `c = K × 128 + N`, and `c < 128` exactly when `K = 0`; every control byte
decodes, to the run kind that K names. -/
def Obligations.ControlByteSelectsRunKind : Prop :=
  ∀ c : Byte,
    c.toNat = (if c.getLsbD 7 then 1 else 0) * 128 + (c.extractLsb' 0 7).toNat ∧
    (c.toNat < 128 ↔ c.getLsbD 7 = false) ∧
    decode .rleCtrl (.symbol (.byte c)) = .ok (if c.toNat < 128 then .rleLit (.ctrl c) else .rleRep (.ctrl c))

/-- R45, R75: width and height are the little-endian pairs at bytes 34, 35 and 36, 37, the flag is bit 7 of byte 39, and no other
byte or bit of the header enters the decoded operation. -/
def Obligations.HeaderFieldsExtracted : Prop :=
  ∀ h : List Byte, h.length = 64 →
    (∃ w x : Field, w.toNat = (h.getD 35 0).toNat * 256 + (h.getD 34 0).toNat ∧
      x.toNat = (h.getD 37 0).toNat * 256 + (h.getD 36 0).toNat ∧
      decode .dispatch (.header h) = .ok (if (h.getD 39 0).getLsbD 7 then .selRle w x else .selRaw w x)) ∧
    ∀ g : List Byte, g.length = 64 → (∀ k, 34 ≤ k → k ≤ 37 → g.getD k 0 = h.getD k 0) →
      (g.getD 39 0).getLsbD 7 = (h.getD 39 0).getLsbD 7 →
      decode .dispatch (.header g) = decode .dispatch (.header h)

/-- Words written out from 30_encoding.md and 95_test_vectors.md decode to the instructions they stand for. -/
def Obligations.SampleWordsDecode : Prop :=
  decode .hdr (.symbol (.byte 0x08)) = .ok (.hdrByte 0x08) ∧
  decode .dispatch (.header (List.replicate 34 0x00 ++ [0x10, 0x00, 0x02, 0x00, 0x00, 0x80] ++ List.replicate 24 0x00))
    = .ok (.selRle 16 2) ∧
  decode .dispatch (.header (List.replicate 34 0x00 ++ [0x0C, 0x00, 0x01, 0x00, 0x00, 0x7F] ++ List.replicate 24 0xFF))
    = .ok (.selRaw 12 1) ∧
  decode .rleCtrl (.symbol (.byte 0x7F)) = .ok (.rleLit (.ctrl 0x7F)) ∧
  decode .rleCtrl (.symbol (.byte 0x80)) = .ok (.rleRep (.ctrl 0x80)) ∧
  decode .rawRow (.symbol (.byte 0xA5)) = .ok (.rawByte 0xA5)

/-! ### Steps -/

/-- R67, R42: when no move of the host is pending, a step is `exec` of what the code unit before the decoder decodes to; where the
state consumes input, that unit is the stream's byte at `off` (and `End` once `eos` is set). That the same holds when the host's next
pending move is its leave to run is the model's choice (DESIGN CHOICE, log 2). -/
def Obligations.StepRunsDecodedInstruction : Prop :=
  ∀ (s : State) (i : Instr), s.host = [] →
    (∀ u, fetch s = some u → decode s.st u = .ok i →
      step s = exec i s ∧ ∀ rest, step { s with host := .run :: rest } = exec i { s with host := rest }) ∧
    (∀ b, wantsSymbol s.st = true → s.eos = false → s.stream.byteAt s.off = some b →
      decode s.st (.symbol (.byte b)) = .ok i → step s = exec i s) ∧
    (wantsSymbol s.st = true → s.eos = true → decode s.st (.symbol .endSym) = .ok i → step s = exec i s)

/-- R10, R112: in IDLE, DONE and ERR the block takes no step, and while the channel has not answered it holds: nothing changes. That
the machine has a step there, which answers the same state, is the model's choice (DESIGN CHOICE, log 15). -/
def Obligations.TerminalAndHoldChangeNothing : Prop :=
  ∀ s : State, s.host = [] →
    (terminal s.st = true → step s = .next s) ∧
    (wantsSymbol s.st = true → s.eos = false → s.stream.bytes.length ≤ s.off → s.stream.tail = .waiting → step s = .next s)

/-- R112 (and R104): in IDLE, DONE and ERR the block makes no request, and only `start` and `reset` change its state there. That any
other step there takes one of the host's pending moves, and may change the host's stream, is the model's choice (DESIGN CHOICE, logs 2
and 16). -/
def Obligations.TerminalLeftOnlyByStartOrReset : Prop :=
  ∀ s t : State, s.st = .idle ∨ s.st = .done ∨ s.st = .err → step s = .next t →
    (∀ rest, s.host ≠ .reset :: rest) → (∀ a x rest, s.host ≠ .start a x :: rest) →
    t = { s with host := s.host.tail, stream := t.stream } ∧ s.requesting = false

/-- R10, R42: the only refusal is a byte past COUNTER_LIMIT; every other step answers a next state. R10 lists hold and terminal apart
from next state: that they are steps too, which answer the same state, is the model's choice (DESIGN CHOICE, log 15), and so is that a
pending move of the host is a step that answers a next state (DESIGN CHOICE, log 2). -/
def Obligations.RefusedOnlyAtCounterLimit : Prop :=
  ∀ s : State,
    (∃ t, step s = .next t) ∨
    (step s = .refused .counterLimit ∧ wantsSymbol s.st = true ∧ s.cfg.counterLimit = some s.off ∧
      ∃ b, nextSymbol s = some (.byte b))

/-- R42: at `off = COUNTER_LIMIT` the step that would consume the next byte is refused, in every state that consumes input. -/
def Obligations.CounterLimitRefusesTheNextByte : Prop :=
  ∀ (s : State) (b : Byte), s.host = [] → wantsSymbol s.st = true → s.eos = false →
    s.stream.byteAt s.off = some b → s.cfg.counterLimit = some s.off → step s = .refused .counterLimit

/-! ### The header parser and the dispatcher -/

/-- R72: HDR_BYTE captures `b` at `hdr[hdr_cnt]`, counts it, and moves to DISPATCH with the 64th byte; nothing else changes. -/
def Obligations.HdrByteCapturesTheByte : Prop :=
  ∀ (s : State) (b : Byte), ByteAllowed s →
    ∃ t, exec (.hdrByte b) s = .next t ∧
      t = { s with off := s.off + 1, hdr := t.hdr, hdrCnt := s.hdrCnt + 1, st := t.st } ∧
      (∀ i, Memory.read t.hdr i = if i = s.hdrCnt.toNat then some b else Memory.read s.hdr i) ∧
      t.st = if s.hdrCnt.toNat + 1 = 64 then .dispatch else .hdr

/-- R73: HDR_SHORT raises HEADER_TOO_SHORT if `abort_short = 1`; otherwise it warns, fills the missing entries with one free draw
each, and goes on to DISPATCH. The draws are free values; their numbering by `draws` and `drawSource` is the model's choice (DESIGN
CHOICE, log 3). -/
def Obligations.HdrShortAbortsOrWarns : Prop :=
  ∀ s : State,
    (s.abortShort = true → exec .hdrShort s =
      .next { s with eos := true, errCode := .headerTooShort, errOff := s.off, st := .err }) ∧
    (s.abortShort = false → ∃ t, exec .hdrShort s = .next t ∧
      t = { s with eos := true, warnShort := true, hdr := t.hdr, draws := s.draws + (64 - s.hdrCnt.toNat), st := .dispatch } ∧
      ∀ i, Memory.read t.hdr i =
        if s.hdrCnt.toNat ≤ i ∧ i ≤ 63 then some (Config.drawByte s.cfg.drawSource (s.draws + (i - s.hdrCnt.toNat)))
        else Memory.read s.hdr i)

/-- R73's corner case: with at least 40 bytes received, all three fields come from received bytes, whatever the draws are (for
a zero width on the raw path, height and flag by log 14). -/
def Obligations.ShortHeaderKeepsReceivedFields : Prop :=
  ∀ (s : State) (r : Nat → Byte), s.host = [] → s.st = .hdr → s.abortShort = false → nextSymbol s = some .endSym →
    40 ≤ s.hdrCnt.toNat → s.hdrCnt.toNat ≤ 63 → (∀ i < s.hdrCnt.toNat, Memory.read s.hdr i = some (r i)) →
    ∃ t, run 2 s = .next t ∧ t.warnShort = true ∧
      t.width.toNat = (r 35).toNat * 256 + (r 34).toNat ∧ t.height.toNat = (r 37).toNat * 256 + (r 36).toNat ∧
      t.compressed = (r 39).getLsbD 7

/-- R74, R82, R89: a read error in the header, on the raw path and at a control byte raises IO_FAILURE at the current offset. -/
def Obligations.ReadErrorsRaiseIoFailure : Prop :=
  ∀ s : State, ∀ i ∈ [Instr.hdrErr, Instr.rawErr, Instr.rleCtrlErr],
    exec i s = .next { s with errCode := .ioFailure, errOff := s.off, st := .err }

/-- R84, with the latching of R77: SEL_RLE enters the compressed path with `lim = width × height`, exact. -/
def Obligations.SelRleEntersCompressedPath : Prop :=
  ∀ (s : State) (w h : Field),
    ∃ t, exec (.selRle w h) s = .next t ∧
      t = { s with width := w, height := h, compressed := true, lim := t.lim, pos := 0, pbCols := w,
                   pbRows := h.toNat + 1, st := .rleCtrl } ∧
      t.lim.toNat = w.toNat * h.toNat

/-- R78, with the latching of R77: SEL_RAW enters the raw path, or raises ZERO_WIDTH before any read if the width is 0. That the
height and the flag are latched in that case too, before the raise, is the model's reading (DEDUCED, log 14). -/
def Obligations.SelRawEntersRawPath : Prop :=
  ∀ (s : State) (w h : Field),
    (w = 0 → exec (.selRaw w h) s =
      .next { s with width := 0, height := h, compressed := false, errCode := .zeroWidth, errOff := s.off, st := .err }) ∧
    (w ≠ 0 → ∃ t, exec (.selRaw w h) s = .next t ∧
      t = { s with width := w, height := h, compressed := false, nb := t.nb, rowCnt := 0, pbCols := w, pbRows := 0,
                   st := .rawRow } ∧
      t.nb.toNat = (w.toNat + 7) / 8)

/-- R77: the dispatch step consumes no input, latches the fields of the captured header, and bit 7 of byte 39 alone chooses the path:
it runs SEL_RLE or SEL_RAW on the little-endian fields, which are latched. That they are latched before ZERO_WIDTH is
raised, too, is the model's reading (DEDUCED, log 14). -/
def Obligations.DispatchLatchesCapturedHeader : Prop :=
  ∀ (s : State) (b34 b35 b36 b37 b39 : Byte), s.host = [] → s.st = .dispatch →
    Memory.read s.hdr 34 = some b34 → Memory.read s.hdr 35 = some b35 → Memory.read s.hdr 36 = some b36 →
    Memory.read s.hdr 37 = some b37 → Memory.read s.hdr 39 = some b39 →
    ∃ w x t, w.toNat = b35.toNat * 256 + b34.toNat ∧ x.toNat = b37.toNat * 256 + b36.toNat ∧
      exec (if b39.getLsbD 7 then .selRle w x else .selRaw w x) s = .next t ∧ step s = .next t ∧
      t.width = w ∧ t.height = x ∧ t.compressed = b39.getLsbD 7 ∧ t.off = s.off ∧ t.eos = s.eos ∧
      t.st = if b39.getLsbD 7 then .rleCtrl
             else if b35.toNat * 256 + b34.toNat = 0 then .err else .rawRow

/-! ### The RLE decoder -/

/-- R87: a control byte `c < 128` starts a literal run of `c + 1` data bytes, any other a repeat run of `(256 − c) + 1` replays. -/
def Obligations.ControlByteStartsRun : Prop :=
  ∀ (s : State) (c : Byte), ByteAllowed s →
    (c.toNat < 128 → ∃ t, exec (.rleLit (.ctrl c)) s = .next t ∧
      t = { s with off := s.off + 1, ctrl := c, litRem := t.litRem, st := .rleLit } ∧ t.litRem.toNat = c.toNat + 1) ∧
    (128 ≤ c.toNat → ∃ t, exec (.rleRep (.ctrl c)) s = .next t ∧
      t = { s with off := s.off + 1, ctrl := c, repRem := t.repRem, st := .rleRepd } ∧
      t.repRem.toNat = (256 - c.toNat) + 1)

/-- R90, with R85 and R86: a literal data byte writes its 8 pixels through the gate, most significant bit first, and moves the
cursor by 8; the run ends when its last byte is read; a missing byte raises TRUNCATED_STREAM, a read error IO_FAILURE. -/
def Obligations.LiteralRunStep : Prop :=
  ∀ s : State,
    (∀ d : Byte, ByteAllowed s → ∃ t, exec (.rleLit (.data (.byte d))) s = .next t ∧
      t = { s with off := s.off + 1, pb := t.pb, pos := s.pos + 8, litRem := s.litRem - 1,
                   st := if s.litRem = 1 then .rleChk else .rleLit } ∧
      ∀ i, Memory.read t.pb i =
        if s.pos.toNat ≤ i ∧ i < s.pos.toNat + 8 ∧ i < s.lim.toNat then some (d.getLsbD (7 - (i - s.pos.toNat)))
        else Memory.read s.pb i) ∧
    exec (.rleLit (.data .endSym)) s =
      .next { s with eos := true, errCode := .truncatedStream, errOff := s.off, st := .err } ∧
    exec (.rleLit (.data .errSym)) s = .next { s with errCode := .ioFailure, errOff := s.off, st := .err }

/-- R91: the repeat run's data byte is kept as the pattern; a missing byte raises TRUNCATED_STREAM, a read error IO_FAILURE. -/
def Obligations.RepeatRunDataByte : Prop :=
  ∀ s : State,
    (∀ d : Byte, ByteAllowed s →
      exec (.rleRep (.data (.byte d))) s = .next { s with off := s.off + 1, pat := d, st := .rleRepw }) ∧
    exec (.rleRep (.data .endSym)) s =
      .next { s with eos := true, errCode := .truncatedStream, errOff := s.off, st := .err } ∧
    exec (.rleRep (.data .errSym)) s = .next { s with errCode := .ioFailure, errOff := s.off, st := .err }

/-- R92, with R85 and R86: one replay writes the pattern's 8 pixels through the gate and moves the cursor by 8, reading nothing. -/
def Obligations.RepeatRunReplay : Prop :=
  ∀ s : State, ∃ t, exec (.rleRep .replay) s = .next t ∧
    t = { s with pb := t.pb, pos := s.pos + 8, repRem := s.repRem - 1,
                 st := if s.repRem = 1 then .rleChk else .rleRepw } ∧
    ∀ i, Memory.read t.pb i =
      if s.pos.toNat ≤ i ∧ i < s.pos.toNat + 8 ∧ i < s.lim.toNat then some (s.pat.getLsbD (7 - (i - s.pos.toNat)))
      else Memory.read s.pb i

/-- R88: end of stream at a control byte ends the decode normally; no cell is written and `bounds_stop` keeps its value. -/
def Obligations.RleEndFinishes : Prop :=
  ∀ s : State, exec .rleEnd s = .next { s with eos := true, st := .done }

/-- R93: the bound check. -/
def Obligations.BoundCheckDecides : Prop :=
  ∀ s : State,
    (s.width = 0 → exec .rleChk s = .next { s with errCode := .zeroWidth, errOff := s.off, st := .err }) ∧
    (s.width ≠ 0 → s.lim.toNat ≤ s.pos.toNat → exec .rleChk s = .next { s with boundsStop := true, st := .done }) ∧
    (s.width ≠ 0 → s.pos.toNat < s.lim.toNat → exec .rleChk s = .next { s with st := .rleCtrl })

/-- R9: for a width above 0 the bound check stops exactly when `pos / width ≥ height`, the source's test. -/
def Obligations.BoundCheckIsTheSourcesDivision : Prop :=
  ∀ s : State, s.width ≠ 0 → s.lim = pixelCount s.width s.height →
    ∃ t, exec .rleChk s = .next t ∧ (t.st = .done ↔ s.height.toNat ≤ s.pos.toNat / s.width.toNat)

/-- R86, R95 item 1: no operation of the RLE path writes a cell at or past `lim`. -/
def Obligations.NoCellAtOrPastLimWritten : Prop :=
  ∀ (s t : State) (p : LitPart) (q : RepPart), ∀ i ∈ [Instr.rleLit p, .rleRep q, .rleEnd, .rleCtrlErr, .rleChk],
    exec i s = .next t → ∀ c, s.lim.toNat ≤ c → Memory.read t.pb c = Memory.read s.pb c

/-- R94 for a literal block, run step by step: it consumes `c + 2` bytes and advances `pos` by `8(c + 1)`; the cells below `lim`
take the data bytes' pixels; then the bound check decides. -/
def Obligations.LiteralBlockEffect : Prop :=
  ∀ (s : State) (c : Byte) (d : Nat → Byte), Inv s → Undisturbed s → s.st = .rleCtrl → s.eos = false → c.toNat < 128 →
    s.stream.byteAt s.off = some c → (∀ k ≤ c.toNat, s.stream.byteAt (s.off + 1 + k) = some (d k)) →
    ∃ t, run (c.toNat + 3) s = .next t ∧ t.off = s.off + c.toNat + 2 ∧
      t.pos.toNat = s.pos.toNat + 8 * (c.toNat + 1) ∧
      (∀ i, Memory.read t.pb i =
        if s.pos.toNat ≤ i ∧ i < s.pos.toNat + 8 * (c.toNat + 1) ∧ i < s.lim.toNat then
          some ((d ((i - s.pos.toNat) / 8)).getLsbD (7 - (i - s.pos.toNat) % 8))
        else Memory.read s.pb i) ∧
      t.st = if s.width = 0 then .err
             else if s.lim.toNat ≤ s.pos.toNat + 8 * (c.toNat + 1) then .done else .rleCtrl

/-- R94 for a repeat block, run step by step: it consumes 2 bytes and advances `pos` by `8(257 − c)`. -/
def Obligations.RepeatBlockEffect : Prop :=
  ∀ (s : State) (c d : Byte), Inv s → Undisturbed s → s.st = .rleCtrl → s.eos = false → 128 ≤ c.toNat →
    s.stream.byteAt s.off = some c → s.stream.byteAt (s.off + 1) = some d →
    ∃ t, run (260 - c.toNat) s = .next t ∧ t.off = s.off + 2 ∧
      t.pos.toNat = s.pos.toNat + 8 * (257 - c.toNat) ∧
      (∀ i, Memory.read t.pb i =
        if s.pos.toNat ≤ i ∧ i < s.pos.toNat + 8 * (257 - c.toNat) ∧ i < s.lim.toNat then
          some (d.getLsbD (7 - (i - s.pos.toNat) % 8))
        else Memory.read s.pb i) ∧
      t.st = if s.width = 0 then .err
             else if s.lim.toNat ≤ s.pos.toNat + 8 * (257 - c.toNat) then .done else .rleCtrl

/-- R94: from RLE_CTRL the FSM, left to itself, comes in at most 132 steps to exactly what the function `RleBlock()` gives: the next
RLE_CTRL, a terminal state, a hold inside the block, or the refusal at COUNTER_LIMIT. R94 names no hold: that a hold is a step
that answers the same state is the model's choice (DESIGN CHOICE, log 15). -/
def Obligations.BlockFunctionRefined : Prop :=
  ∀ s : State, s.host = [] → s.st = .rleCtrl → ∃ n, 1 ≤ n ∧ n ≤ 132 ∧ run n s = rleBlock s

/-! ### The raw unpacker -/

/-- R79, with R80: a row byte is held in `rowbuf`, and nothing else happens until the row is full; the row's last byte commits its
`width` cells at row `pb_rows`, column `x` being `r[x div 8][7 − (x mod 8)]`, and empties the buffer. -/
def Obligations.RawByteHoldsOrCommits : Prop :=
  ∀ (s : State) (b : Byte), ByteAllowed s →
    (s.rowCnt.toNat ≤ 8191 → s.rowCnt.toNat + 1 ≠ s.nb.toNat → ∃ t, exec (.rawByte b) s = .next t ∧
      t = { s with off := s.off + 1, rowbuf := t.rowbuf, rowCnt := t.rowCnt, st := .rawRow } ∧
      t.rowCnt.toNat = s.rowCnt.toNat + 1 ∧
      ∀ j, Memory.read t.rowbuf j = if j = s.rowCnt.toNat then some b else Memory.read s.rowbuf j) ∧
    (∀ r : Nat → Byte, s.rowCnt.toNat + 1 = s.nb.toNat → s.nb.toNat = (s.width.toNat + 7) / 8 →
      (∀ j < s.rowCnt.toNat, Memory.read s.rowbuf j = some (r j)) → r s.rowCnt.toNat = b →
      ∃ t, exec (.rawByte b) s = .next t ∧
        t = { s with off := s.off + 1, rowbuf := t.rowbuf, rowCnt := 0, pb := t.pb, pbRows := s.pbRows + 1, st := .rawRow } ∧
        (∀ j, Memory.read t.rowbuf j = if j < s.nb.toNat then none else Memory.read s.rowbuf j) ∧
        (∀ x < s.width.toNat,
          Memory.read t.pb (s.pbRows * s.width.toNat + x) = some ((r (x / 8)).getLsbD (7 - x % 8))) ∧
        (∀ i, i < s.pbRows * s.width.toNat ∨ (s.pbRows + 1) * s.width.toNat ≤ i →
          Memory.read t.pb i = Memory.read s.pb i))

/-- R81: end of stream on the raw path discards a partial row and ends the decode normally. -/
def Obligations.RawEndDiscardsPartialRow : Prop :=
  ∀ s : State, ∃ t, exec .rawEnd s = .next t ∧
    t = { s with eos := true, rowbuf := t.rowbuf, rowCnt := 0, st := .done } ∧
    ∀ j, Memory.read t.rowbuf j = if j < s.nb.toNat then none else Memory.read s.rowbuf j

/-- R83: no operation of the raw path depends on `height`. -/
def Obligations.RawPathIgnoresHeight : Prop :=
  ∀ (s t : State) (b : Byte) (h : Field), ∀ i ∈ [Instr.rawByte b, .rawEnd, .rawErr],
    exec i s = .next t → exec i { s with height := h } = .next { t with height := h }

/-- R83, R120 item 4: as long as bytes come the raw path goes on, whatever the height: after `n` of them it has consumed them all
and still waits for more. -/
def Obligations.RawPathRunsWhileBytesCome : Prop :=
  ∀ (s : State) (n : Nat), Inv s → Undisturbed s → s.st = .rawRow → s.eos = false →
    (∀ k < n, (s.stream.byteAt (s.off + k)).isSome = true) →
    ∃ t, run n s = .next t ∧ t.st = .rawRow ∧ t.off = s.off + n ∧
      t.pbRows * t.nb.toNat + t.rowCnt.toNat = s.pbRows * s.nb.toNat + s.rowCnt.toNat + n

/-! ### Whole-machine rules -/

/-- R16, R42, R43: an FSM step that answers a next state consumes one byte, and `off` rises by exactly 1, when the state consumes
input, `eos` is clear and the stream has a byte at `off`; in every other case `off` stays. -/
def Obligations.OffCountsConsumedBytes : Prop :=
  ∀ s t : State, fsmStep s = .next t →
    t.off = if wantsSymbol s.st = true ∧ s.eos = false ∧ (s.stream.byteAt s.off).isSome = true then s.off + 1 else s.off

/-- R57: no operation writes the input stream. That none touches the host's pending moves or the parameters, `drawSource` among them,
is the model's choice (DESIGN CHOICE, logs 2, 4 and 17). -/
def Obligations.OperationsNeverWriteTheStream : Prop :=
  ∀ (i : Instr) (s t : State), exec i s = .next t → t.stream = s.stream ∧ t.host = s.host ∧ t.cfg = s.cfg

/-- R17: only HDR_SHORT reads `abort_short`, and no operation writes it. -/
def Obligations.OnlyShortHeaderReadsAbortShort : Prop :=
  ∀ (i : Instr) (s t : State) (v : Bool), i ≠ .hdrShort → exec i s = .next t →
    t.abortShort = s.abortShort ∧ exec i { s with abortShort := v } = .next { t with abortShort := v }

/-- R21: only the two dispatch operations write `width`, `height` and `compressed`. -/
def Obligations.FieldsLatchedOnlyAtDispatch : Prop :=
  ∀ (i : Instr) (s t : State), (∀ w h, i ≠ .selRle w h) → (∀ w h, i ≠ .selRaw w h) → exec i s = .next t →
    t.width = s.width ∧ t.height = s.height ∧ t.compressed = s.compressed

/-- R20, R28, R36: no operation clears `eos`, `bounds_stop` or `warn_short`. -/
def Obligations.LatchesAreNeverCleared : Prop :=
  ∀ (i : Instr) (s t : State), exec i s = .next t →
    (s.eos = true → t.eos = true) ∧ (s.boundsStop = true → t.boundsStop = true) ∧
    (s.warnShort = true → t.warnShort = true)

/-- R48: only a literal data byte, a replay and a raw row's byte write the PixelBuffer. -/
def Obligations.OnlyPixelStepsWritePixels : Prop :=
  ∀ (i : Instr) (s t : State), exec i s = .next t → t.pb ≠ s.pb →
    (∃ d, i = .rleLit (.data (.byte d))) ∨ i = .rleRep .replay ∨ (∃ b, i = .rawByte b)

/-- R102: an operation that ends in ERR has changed only what `raise` writes, and `eos`; `err_off` is `off`. SEL_RAW is left out: it
latches the fields before it raises (R77; log 14). -/
def Obligations.ErrorsArePrecise : Prop :=
  ∀ (i : Instr) (s t : State), (∀ w h, i ≠ .selRaw w h) → exec i s = .next t → t.st = .err →
    t = { s with eos := t.eos, errCode := t.errCode, errOff := s.off, st := .err } ∧ t.errCode ≠ .noError ∧
    (t.eos ≠ s.eos → t.errCode = .headerTooShort ∨ t.errCode = .truncatedStream)

/-- R49, R95 item 2: within a decode a cell that has been written never changes again. -/
def Obligations.WrittenCellsNeverChange : Prop :=
  ∀ (s t : State) (i : Nat) (v : Pixel), Inv s → step s = .next t →
    (∀ rest, s.host ≠ .reset :: rest) → (∀ a x rest, s.host ≠ .start a x :: rest) →
    Memory.read s.pb i = some v → Memory.read t.pb i = some v

/-! ### Reset, start and the host's reads -/

/-- R110, with the values of R40: `reset` sets every register to its reset value in any state. -/
def Obligations.HostResetSetsEveryRegister : Prop :=
  ∀ (s : State) (rest : List HostEvent), s.host = .reset :: rest →
    ∃ t, step s = .next t ∧ t.st = .idle ∧ t.abortShort = false ∧ t.hdrCnt = 0 ∧ t.off = 0 ∧ t.eos = false ∧
      t.width = 0 ∧ t.height = 0 ∧ t.compressed = false ∧ t.lim = 0 ∧ t.pos = 0 ∧
      t.ctrl = 0 ∧ t.litRem = 0 ∧ t.repRem = 0 ∧ t.pat = 0 ∧ t.boundsStop = false ∧
      t.nb = 0 ∧ t.rowCnt = 0 ∧ t.pbCols = 0 ∧ t.pbRows = 0 ∧ t.errCode = .noError ∧ t.errOff = 0 ∧ t.warnShort = false ∧
      (∀ i, Memory.read t.hdr i = none ∧ Memory.read t.rowbuf i = none ∧ Memory.read t.pb i = none)

/-- R111: `start` begins a new decode from IDLE, DONE and ERR, with every register at its reset value but `abort_short` and `st`,
over the stream the host has opened; while busy it changes nothing. That the command brings the new stream, that a busy one loses its
stream, and that the count of draws and the parameters stay, is the model's choice (DESIGN CHOICE, logs 2, 3, 4 and 19). -/
def Obligations.HostStartBeginsADecode : Prop :=
  ∀ (s : State) (a : Bool) (x : Stream) (rest : List HostEvent), s.host = .start a x :: rest →
    (s.st = .idle ∨ s.st = .done ∨ s.st = .err →
      step s = .next { State.reset with
        st := .hdr, abortShort := a, stream := x, host := rest, draws := s.draws, cfg := s.cfg }) ∧
    (¬ (s.st = .idle ∨ s.st = .done ∨ s.st = .err) → step s = .next { s with host := rest })

/-- R38: there is a result exactly when `result_valid = 1`, which is in DONE, and it is `(pb_cols, pb_rows, PB)`. After a decode (R52,
R115) the host reads each cell of the PixelBuffer as it is, and the outputs of R37 show the registers. -/
def Obligations.HostReadsTheResult : Prop :=
  ∀ (s : State) (k : Nat),
    (result s = if s.st = .done then some (s.pbCols, s.pbRows, s.pb) else none) ∧
    (s.st = .done ∨ s.st = .err ∨ s.st = .idle →
      (∀ i, memRead k s i = Memory.read s.pb i) ∧
      hostOutputs k s = {
        status := if s.st = .idle then 0 else if s.st = .done then 9 else 10
        busy := false, done := decide (s.st = .done), error := decide (s.st = .err), resultValid := decide (s.st = .done)
        errCode := match s.errCode with
          | .noError => 0
          | .headerTooShort => 1
          | .ioFailure => 2
          | .truncatedStream => 3
          | .zeroWidth => 4
        errOff := s.errOff, warnShort := s.warnShort, boundsStop := s.boundsStop
        width := s.width, height := s.height, compressed := s.compressed, pbCols := s.pbCols, pbRows := s.pbRows
        off := s.off })

/-- R108, the product of independent copies: when instance `k` takes a step, it is the step it would take alone, every other instance
stays as it is, and no instance comes or goes. -/
def Obligations.InstancesShareNothing : Prop :=
  ∀ (k : Nat) (ms ns : List State), stepInstance k ms = some ns →
    (∃ s t, ms[k]? = some s ∧ step s = .next t ∧ ns[k]? = some t) ∧ (∀ j, j ≠ k → ns[j]? = ms[j]?) ∧ ns.length = ms.length

/-! ### Invariants -/

/-- The state after reset meets the invariant. -/
def Obligations.ResetMeetsTheInvariant : Prop := Inv State.reset ∧ RawImage State.reset ∧ RleImage State.reset

/-- Every step keeps the invariant, whatever the host does and whatever the draws are. -/
def Obligations.StepKeepsTheInvariant : Prop :=
  ∀ s t : State, Inv s → step s = .next t → Inv t

/-- R80, 95_test_vectors.md E5: on the raw path the image is the stream's bits at every moment, for every stream and width. -/
def Obligations.StepKeepsTheRawImage : Prop :=
  ∀ s t : State, Inv s → RawImage s → step s = .next t → RawImage t

/-- R95 item 3: on the RLE path cell `i` is bit `7 − (i mod 8)` of the `(i div 8)`-th pixel group of the bytes consumed. -/
def Obligations.StepKeepsTheRleImage : Prop :=
  ∀ s t : State, Inv s → RleImage s → step s = .next t → RleImage t

/-! ### Termination -/

/-- R120 item 1: over a stream that has its terminator, a decode left to itself comes to IDLE, DONE or ERR within `stepsLeft`. -/
def Obligations.FiniteStreamsTerminate : Prop :=
  ∀ s : State, Inv s → Undisturbed s → (∃ x, s.stream.tail = .ends x) →
    ∃ n ≤ stepsLeft s, ∃ t, run n s = .next t ∧ terminal t.st = true

/-- R120 item 2: with a width above 0 an RLE decode ends in a bounds stop after at most `max(1, ceil(lim / 8))` blocks, of at most 129
bytes and 132 steps each, over any stream with that many blocks' bytes to come, terminated or not. -/
def Obligations.RleDecodeEndsOverEndlessStream : Prop :=
  ∀ s : State, Inv s → Undisturbed s → s.st = .rleCtrl → s.eos = false → s.width ≠ 0 →
    (∀ k < 129 * max 1 ((s.lim.toNat + 7) / 8), (s.stream.byteAt (s.off + k)).isSome = true) →
    ∃ n ≤ 132 * max 1 ((s.lim.toNat + 7) / 8), ∃ t, run n s = .next t ∧ t.st = .done ∧ t.boundsStop = true

/-! ### The assembler -/

/-- R71: `FILL n, d` is read as `n` copies of the pattern `d`, and `PIXELS d0, …` as its bytes in order, with no block left open. -/
def Obligations.PseudoOperationsExpand : Prop :=
  (∀ (n : Nat) (d : Byte), 1 ≤ n → parseBytes (fillBytes n d) = { phase := .ctrl, groups := List.replicate n d }) ∧
  (∀ ds : List Byte, 1 ≤ ds.length → parseBytes (pixelBytes ds) = { phase := .ctrl, groups := ds })

/-! ### The environment of a reset, and endless streams -/

/-- What `reset` leaves is the state the machine starts from, but for what is no register: the host's stream and its other moves, the
count of draws and the parameters stay. That these stay, and what they are in `State.reset`, is the model's choice (DESIGN CHOICE, logs
3, 4, 10 and 19). -/
def Obligations.HostResetKeepsTheEnvironment : Prop :=
  ∀ (s : State) (rest : List HostEvent), s.host = .reset :: rest →
    step s = .next { State.reset with stream := s.stream, host := rest, draws := s.draws, cfg := s.cfg } ∧
    State.reset.stream = { bytes := [], tail := .waiting } ∧ State.reset.host = [] ∧ State.reset.draws = 0 ∧
    State.reset.cfg = { counterLimit := none, drawSource := 0 }

/-- R120 item 4, R83: over an endless stream a raw decode with a width above 0 never ends: after any number of steps it is still on the
raw path, and has committed a row for every `nb` bytes (95_test_vectors.md X10). -/
def Obligations.EndlessRawDecodeNeverEnds : Prop :=
  ∀ (s : State) (e : Endless) (n : Nat), Inv s → Undisturbed s → s.st = .rawRow → s.stream.tail = .forever e →
    ∃ t, run n s = .next t ∧ t.st = .rawRow ∧ t.off = s.off + n ∧
      t.pbRows = s.pbRows + (s.rowCnt.toNat + n) / s.nb.toNat
end

