-- ==== Sys2Proof/Laws/Decode.lean ====
section
/-! SUPPORT. Bits and bytes of the encodings. -/

namespace Sys2Proof

/-- Bit 7 of a byte, as a comparison (R7, R60): `c < 128` holds exactly when the bit is 0. -/
theorem byte_bit7 (c : Byte) : c.getLsbD 7 = decide (128 ≤ c.toNat) := by
  have h : c.getLsbD 7 = c.msb := (BitVec.msb_eq_getLsbD_last c).symm
  rw [h, BitVec.msb_eq_decide]

/-- Two bytes put together, high byte first, as a number (R5, R45). -/
theorem append_toNat (hi lo : Byte) : (hi ++ lo : BitVec (8 + 8)).toNat = hi.toNat * 256 + lo.toNat := by
  rw [BitVec.toNat_append]
  have := lo.isLt
  rw [Nat.shiftLeft_eq, ← Nat.shiftLeft_eq hi.toNat 8, ← Nat.shiftLeft_add_eq_or_of_lt this, Nat.shiftLeft_eq]

theorem headerBytes_length (w h : Field) (f : Byte) : (headerBytes w h f).length = 64 := by simp [headerBytes]

end Sys2Proof
end

