-- ==== Sys2Proof/Laws/Memory.lean ====
section
/-! SUPPORT. The laws of the stores: reading after writing, the canonical form, and which indexes hold something. -/

namespace Sys2Proof.Machine

variable {α : Type}

@[simp] theorem Memory.read_nil (i : Nat) : Memory.read ([] : Memory α) i = none := rfl

@[simp] theorem Memory.read_cons (j : Nat) (u : α) (m : Memory α) (i : Nat) :
    Memory.read ((j, u) :: m) i = if i = j then some u else Memory.read m i := rfl

@[simp] theorem Memory.keys_nil : Memory.keys ([] : Memory α) = [] := rfl

@[simp] theorem Memory.keys_cons (c : Nat × α) (m : Memory α) :
    Memory.keys (c :: m) = c.1 :: Memory.keys m := rfl

theorem Memory.wf_iff_keys (m : Memory α) : Memory.wf m ↔ (Memory.keys m).Pairwise (· < ·) := by
  simp [Memory.wf, Memory.keys, List.pairwise_map]

/-- Reading after a write: the value written there, and what was there before everywhere else. -/
theorem Memory.read_write (m : Memory α) (i : Nat) (v : α) (j : Nat) :
    Memory.read (Memory.write m i v) j = if j = i then some v else Memory.read m j := by
  induction m with
  | nil => simp [Memory.write]
  | cons c m ih =>
    obtain ⟨k, u⟩ := c
    simp only [Memory.write]
    split
    · simp
    · split
      · rename_i h1 h2; subst h2
        by_cases h : j = i <;> simp [h]
      · rename_i h1 h2
        simp only [Memory.read_cons, ih]
        by_cases h : j = k
        · subst h; simp [Ne.symm h2]
        · simp [h]

/-- Two writes to different indexes may be read in either order. -/
theorem Memory.read_write_ne (m : Memory α) {i j : Nat} (v : α) (h : j ≠ i) :
    Memory.read (Memory.write m i v) j = Memory.read m j := by simp [Memory.read_write, h]

theorem Memory.read_eq_none_iff (m : Memory α) (i : Nat) : Memory.read m i = none ↔ i ∉ Memory.keys m := by
  induction m with
  | nil => simp
  | cons c m ih =>
    obtain ⟨k, u⟩ := c
    by_cases h : i = k <;> simp [h, ih]

/-- An index holds something just when it is listed. -/
theorem Memory.read_isSome_iff (m : Memory α) (i : Nat) : (Memory.read m i).isSome ↔ i ∈ Memory.keys m := by
  rw [← not_iff_not, ← Memory.read_eq_none_iff]; simp

theorem Memory.mem_keys_write (m : Memory α) (i : Nat) (v : α) (j : Nat) :
    j ∈ Memory.keys (Memory.write m i v) ↔ j = i ∨ j ∈ Memory.keys m := by
  rw [← Memory.read_isSome_iff, ← Memory.read_isSome_iff, Memory.read_write]
  by_cases h : j = i <;> simp [h]

/-- A write keeps the canonical form. -/
theorem Memory.wf_write (m : Memory α) (i : Nat) (v : α) (h : Memory.wf m) : Memory.wf (Memory.write m i v) := by
  induction m with
  | nil => simp [Memory.write, Memory.wf]
  | cons c m ih =>
    obtain ⟨k, u⟩ := c
    have hk := List.pairwise_cons.mp h
    simp only [Memory.write]
    split
    · rename_i h1
      refine List.pairwise_cons.mpr ⟨?_, h⟩
      intro a ha
      rcases List.mem_cons.mp ha with rfl | ha
      · exact h1
      · exact Nat.lt_trans h1 (hk.1 a ha)
    · split
      · rename_i h1 h2; subst h2
        exact List.pairwise_cons.mpr ⟨hk.1, hk.2⟩
      · rename_i h1 h2
        refine List.pairwise_cons.mpr ⟨?_, ih hk.2⟩
        intro a ha
        have : a.1 ∈ Memory.keys (Memory.write m i v) := List.mem_map.mpr ⟨a, ha, rfl⟩
        rcases (Memory.mem_keys_write m i v a.1).mp this with h3 | h3
        · simp only [h3]; omega
        · obtain ⟨b, hb, hb'⟩ := List.mem_map.mp h3
          have := hk.1 b hb
          simp only at hb' this ⊢; omega

/-- Lists of strictly rising indexes with the same members are equal. -/
theorem keys_ext {l₁ l₂ : List Nat} (h₁ : l₁.Pairwise (· < ·)) (h₂ : l₂.Pairwise (· < ·))
    (h : ∀ i, i ∈ l₁ ↔ i ∈ l₂) : l₁ = l₂ :=
  List.Perm.eq_of_pairwise (fun a b _ _ hab hba => absurd hab (by omega)) h₁ h₂
    ((List.perm_ext_iff_of_nodup (h₁.imp Nat.ne_of_lt) (h₂.imp Nat.ne_of_lt)).mpr h)

/-- A store whose indexes are `0` to `n − 1` is in canonical form. -/
theorem Memory.wf_of_keys_range {m : Memory α} {n : Nat} (h : Memory.keys m = List.range n) : Memory.wf m := by
  rw [Memory.wf_iff_keys, h]; exact List.pairwise_lt_range

/-- Canonical stores that hold something at the same indexes `i < n` and nowhere else list exactly `0` to `n − 1`. -/
theorem Memory.keys_eq_range {m : Memory α} {n : Nat} (hw : Memory.wf m)
    (h : ∀ i, (Memory.read m i).isSome ↔ i < n) : Memory.keys m = List.range n := by
  refine keys_ext ((Memory.wf_iff_keys m).mp hw) List.pairwise_lt_range fun i => ?_
  rw [← Memory.read_isSome_iff, h, List.mem_range]

theorem Memory.read_isSome_of_keys {m : Memory α} {n : Nat} (h : Memory.keys m = List.range n) (i : Nat) :
    (Memory.read m i).isSome ↔ i < n := by
  rw [Memory.read_isSome_iff, h, List.mem_range]

/-- Equal contents in canonical form are equal data. -/
theorem Memory.ext {m₁ m₂ : Memory α} (h₁ : Memory.wf m₁) (h₂ : Memory.wf m₂)
    (h : ∀ i, Memory.read m₁ i = Memory.read m₂ i) : m₁ = m₂ := by
  induction m₁ generalizing m₂ with
  | nil =>
    cases m₂ with
    | nil => rfl
    | cons c m => obtain ⟨i, u⟩ := c; have := h i; simp at this
  | cons c m ih =>
    cases m₂ with
    | nil => obtain ⟨i, u⟩ := c; have := h i; simp at this
    | cons d n =>
      obtain ⟨i, u⟩ := c
      obtain ⟨j, v⟩ := d
      have hk₁ := List.pairwise_cons.mp h₁
      have hk₂ := List.pairwise_cons.mp h₂
      have notin : ∀ {k : Nat} {l : Memory α}, (∀ a ∈ l, k < a.1) → Memory.read l k = none := by
        intro k l hl
        rw [Memory.read_eq_none_iff]
        intro hm
        obtain ⟨a, ha, rfl⟩ := List.mem_map.mp hm
        exact absurd (hl a ha) (by omega)
      have hij : i = j := by
        rcases Nat.lt_trichotomy i j with hlt | heq | hgt
        · have := h i
          have hn : Memory.read n i = none := notin fun a ha => Nat.lt_trans hlt (hk₂.1 a ha)
          simp [hn, Nat.ne_of_lt hlt] at this
        · exact heq
        · have := h j
          have hn : Memory.read m j = none := notin fun a ha => Nat.lt_trans hgt (hk₁.1 a ha)
          simp [hn, Nat.ne_of_lt hgt] at this
      subst hij
      have huv : u = v := by have := h i; simpa using this
      subst huv
      congr 1
      refine ih hk₁.2 hk₂.2 fun k => ?_
      by_cases hki : k = i
      · subst hki; rw [notin hk₁.1, notin hk₂.1]
      · have := h k; simpa [hki] using this

/-- Reading after the indexes below `n` are cleared. -/
theorem Memory.read_clearBelow (m : Memory α) (n i : Nat) :
    Memory.read (Memory.clearBelow m n) i = if n ≤ i then Memory.read m i else none := by
  induction m with
  | nil => simp [Memory.clearBelow]
  | cons c m ih =>
    obtain ⟨k, u⟩ := c
    simp only [Memory.clearBelow] at ih
    by_cases hk : n ≤ k
    · simp only [Memory.clearBelow, List.filter_cons, hk, decide_true, if_true, Memory.read_cons, ih]
      by_cases hi : i = k
      · subst hi; simp [hk]
      · simp [hi]
    · simp only [Memory.clearBelow, List.filter_cons, hk, decide_false, Memory.read_cons]
      by_cases hi : i = k
      · subst hi; simp [hk, ih]
      · simp [hi, ih]

/-- Clearing keeps the canonical form. -/
theorem Memory.wf_clearBelow (m : Memory α) (n : Nat) (h : Memory.wf m) : Memory.wf (Memory.clearBelow m n) :=
  List.Pairwise.sublist List.filter_sublist h

/-- Clearing all that is listed leaves nothing. -/
theorem Memory.clearBelow_eq_nil {m : Memory α} {n k : Nat} (h : Memory.keys m = List.range k) (hk : k ≤ n) :
    Memory.clearBelow m n = [] := by
  refine List.filter_eq_nil_iff.mpr fun c hc => ?_
  have : c.1 ∈ Memory.keys m := List.mem_map.mpr ⟨c, hc, rfl⟩
  rw [h, List.mem_range] at this
  simp; omega

/-- Writing the first free index of `0` to `n − 1` makes it `0` to `n`. -/
theorem Memory.keys_write_next {m : Memory α} {n : Nat} (h : Memory.keys m = List.range n) (v : α) :
    Memory.keys (Memory.write m n v) = List.range (n + 1) := by
  refine Memory.keys_eq_range (Memory.wf_write _ _ _ (Memory.wf_of_keys_range h)) fun i => ?_
  rw [Memory.read_isSome_iff, Memory.mem_keys_write, h, List.mem_range]; omega

end Sys2Proof.Machine
end

