-- ==== Sys2Proof/Laws/Ops.lean ====
section
/-! SUPPORT. One lemma for each shared operation: all that it can do. -/

namespace Sys2Proof.Machine

/-! ### The input channel -/

/-- A byte that is written out stands at its offset. -/
theorem Stream.byteAt_of_getElem {x : Stream} {k : Nat} {b : Byte} (h : x.bytes[k]? = some b) : x.byteAt k = some b := by
  simp [Stream.byteAt, h]

/-- A stream has no byte at `k` just when `k` is past those written out and the stream does not go on without end. -/
theorem Stream.byteAt_eq_none_iff {x : Stream} {k : Nat} :
    x.byteAt k = none ↔ x.bytes.length ≤ k ∧ ∀ e, x.tail ≠ .forever e := by
  unfold Stream.byteAt
  cases h : x.bytes[k]? with
  | some c =>
    have hk : k < x.bytes.length := (List.getElem?_eq_some_iff.mp h).1
    simp only [reduceCtorEq, false_iff, not_and]; omega
  | none =>
    have hk := List.getElem?_eq_none_iff.mp h
    cases x.tail <;> simp [hk]

/-- A stream that goes on without end has a byte at every offset. -/
theorem Stream.byteAt_isSome_of_forever {x : Stream} {e : Endless} (h : x.tail = .forever e) (k : Nat) :
    (x.byteAt k).isSome = true := by
  rw [Option.isSome_iff_ne_none, ne_eq, Stream.byteAt_eq_none_iff]
  exact fun hn => hn.2 e h

/-- A stream with a byte at every offset below `n` that does not go on without end has at least `n` bytes written out. -/
theorem Stream.le_length_of_byteAt {x : Stream} {n : Nat} (h : ∀ k < n, (x.byteAt k).isSome = true)
    (ht : ∀ e, x.tail ≠ .forever e) : n ≤ x.bytes.length := by
  refine Nat.le_of_not_lt fun hn => ?_
  have hs := h x.bytes.length hn
  rw [Stream.byteAt_eq_none_iff.mpr ⟨Nat.le_refl _, ht⟩] at hs
  cases hs

/-- The channel answers with a byte just when the stream has one there. -/
theorem Stream.answer_byte_iff {x : Stream} {k : Nat} {b : Byte} :
    x.answer k = some (.byte b) ↔ x.byteAt k = some b := by
  unfold Stream.answer
  cases x.byteAt k with
  | some c => simp
  | none => cases x.tail with
    | waiting => simp
    | ends t => cases t <;> simp [terminatorSymbol]
    | forever e => simp

theorem Stream.answer_end_iff {x : Stream} {k : Nat} :
    x.answer k = some .endSym ↔ x.bytes.length ≤ k ∧ x.tail = .ends .endMark := by
  unfold Stream.answer
  cases h : x.byteAt k with
  | some c =>
    simp only [Option.some.injEq, reduceCtorEq, false_iff, not_and]
    intro hk ht
    simp [Stream.byteAt_eq_none_iff.mpr ⟨hk, by simp [ht]⟩] at h
  | none =>
    have hk := Stream.byteAt_eq_none_iff.mp h
    cases ht : x.tail with
    | waiting => simp
    | ends t => cases t <;> simp [terminatorSymbol, hk.1]
    | forever e => exact absurd ht (hk.2 e)

theorem Stream.answer_err_iff {x : Stream} {k : Nat} :
    x.answer k = some .errSym ↔ x.bytes.length ≤ k ∧ x.tail = .ends .errMark := by
  unfold Stream.answer
  cases h : x.byteAt k with
  | some c =>
    simp only [Option.some.injEq, reduceCtorEq, false_iff, not_and]
    intro hk ht
    simp [Stream.byteAt_eq_none_iff.mpr ⟨hk, by simp [ht]⟩] at h
  | none =>
    have hk := Stream.byteAt_eq_none_iff.mp h
    cases ht : x.tail with
    | waiting => simp
    | ends t => cases t <;> simp [terminatorSymbol, hk.1]
    | forever e => exact absurd ht (hk.2 e)

theorem Stream.answer_none_iff {x : Stream} {k : Nat} :
    x.answer k = none ↔ x.bytes.length ≤ k ∧ x.tail = .waiting := by
  unfold Stream.answer
  cases h : x.byteAt k with
  | some c =>
    simp only [reduceCtorEq, false_iff, not_and]
    intro hk ht
    simp [Stream.byteAt_eq_none_iff.mpr ⟨hk, by simp [ht]⟩] at h
  | none =>
    have hk := Stream.byteAt_eq_none_iff.mp h
    cases ht : x.tail with
    | waiting => simp [hk.1]
    | ends t => simp
    | forever e => exact absurd ht (hk.2 e)

/-- A byte comes from the stream at `off`, with `eos` clear. -/
theorem nextSymbol_byte_iff {s : State} {b : Byte} :
    nextSymbol s = some (.byte b) ↔ s.eos = false ∧ s.stream.byteAt s.off = some b := by
  cases h : s.eos <;> simp [nextSymbol, h, Stream.answer_byte_iff]

/-- `End` comes from the latch or from the stream's end. -/
theorem nextSymbol_end_iff {s : State} :
    nextSymbol s = some .endSym ↔ s.eos = true ∨ (s.stream.bytes.length ≤ s.off ∧ s.stream.tail = .ends .endMark) := by
  cases h : s.eos <;> simp [nextSymbol, h, Stream.answer_end_iff]

theorem nextSymbol_err_iff {s : State} :
    nextSymbol s = some .errSym ↔
      s.eos = false ∧ s.stream.bytes.length ≤ s.off ∧ s.stream.tail = .ends .errMark := by
  cases h : s.eos <;> simp [nextSymbol, h, Stream.answer_err_iff]

/-- The block holds just when the channel has nothing for it. -/
theorem nextSymbol_none_iff {s : State} :
    nextSymbol s = none ↔ s.eos = false ∧ s.stream.bytes.length ≤ s.off ∧ s.stream.tail = .waiting := by
  cases h : s.eos <;> simp [nextSymbol, h, Stream.answer_none_iff]

theorem takeByte_eq_some_iff {s t : State} :
    takeByte s = some t ↔ s.cfg.counterLimit ≠ some s.off ∧ t = { s with off := s.off + 1 } := by
  unfold takeByte
  split <;> simp_all [eq_comm]

theorem takeByte_of_ne {s : State} (h : s.cfg.counterLimit ≠ some s.off) :
    takeByte s = some { s with off := s.off + 1 } := by simp [takeByte, h]

/-- `withByte` goes on just when COUNTER_LIMIT lets one more byte through. -/
theorem withByte_eq_next_iff {s t : State} {k : State → State} :
    withByte s k = .next t ↔ s.cfg.counterLimit ≠ some s.off ∧ t = k { s with off := s.off + 1 } := by
  unfold withByte takeByte
  by_cases h : s.cfg.counterLimit = some s.off
  · simp [h]
  · simp [h, eq_comm]

theorem withByte_of_ne {s : State} {k : State → State} (h : s.cfg.counterLimit ≠ some s.off) :
    withByte s k = .next (k { s with off := s.off + 1 }) := withByte_eq_next_iff.mpr ⟨h, rfl⟩

theorem withByte_eq_refused_iff {s : State} {k : State → State} {r : Refusal} :
    withByte s k = .refused r ↔ s.cfg.counterLimit = some s.off ∧ r = .counterLimit := by
  unfold withByte takeByte
  by_cases h : s.cfg.counterLimit = some s.off
  · simp [h, eq_comm]
  · simp [h]

/-! ### The PixelBuffer -/

theorem unpack8_length (d : Byte) : (unpack8 d).length = 8 := by simp [unpack8]

theorem unpack8_getElem? (d : Byte) {k : Nat} (h : k < 8) : (unpack8 d)[k]? = some (pixelOf d k) := by
  simp [unpack8, h]

/-- Reading after a gated group is written: the group's pixels below `lim`, and what was there before everywhere else. -/
theorem read_writeGated (lim i : Nat) (ps : List Pixel) (m : Memory Pixel) (j : Nat) :
    Memory.read (writeGated lim i ps m) j =
      if i ≤ j ∧ j < i + ps.length ∧ j < lim then ps[j - i]? else Memory.read m j := by
  induction ps generalizing i m with
  | nil => simp only [writeGated, List.length_nil, Nat.add_zero]; split <;> first | omega | rfl
  | cons v rest ih =>
    simp only [writeGated, ih, List.length_cons]
    have hread : Memory.read (if i < lim then memWrite m i v else m) j =
        if j = i ∧ i < lim then some v else Memory.read m j := by
      by_cases h1 : i < lim <;> by_cases h2 : j = i <;> simp [h1, h2, memWrite, Memory.read_write]
    rw [hread]
    by_cases h : j = i
    · subst h
      by_cases h3 : j < lim
      · simp [h3]
      · simp [h3]
    · by_cases h4 : i + 1 ≤ j ∧ j < i + 1 + rest.length ∧ j < lim
      · have h5 : i ≤ j ∧ j < i + (rest.length + 1) ∧ j < lim := by omega
        have h6 : j - i = (j - (i + 1)) + 1 := by omega
        simp [h4, h5, h6]
      · have h5 : ¬ (i ≤ j ∧ j < i + (rest.length + 1) ∧ j < lim) := by omega
        rw [if_neg h4, if_neg h5, if_neg (fun c => h c.1)]

theorem wf_writeGated (lim i : Nat) (ps : List Pixel) (m : Memory Pixel) (h : Memory.wf m) :
    Memory.wf (writeGated lim i ps m) := by
  induction ps generalizing i m with
  | nil => exact h
  | cons v rest ih =>
    refine ih _ _ ?_
    split
    · exact Memory.wf_write _ _ _ h
    · exact h

/-- Reading after a group of the RLE path is written (R86). -/
theorem read_rleWrite8 (d : Byte) (s : State) (j : Nat) :
    Memory.read (rleWrite8 d s).pb j =
      if s.pos.toNat ≤ j ∧ j < s.pos.toNat + 8 ∧ j < s.lim.toNat then some (pixelOf d (j - s.pos.toNat))
      else Memory.read s.pb j := by
  simp only [rleWrite8, read_writeGated, unpack8_length]
  split
  · exact unpack8_getElem? d (by omega)
  · rfl

/-- Cells `0` to `min(pos, lim) − 1` written become those up to `min(pos + 8, lim) − 1`. -/
theorem keys_writeGated {lim i : Nat} {ps : List Pixel} {m : Memory Pixel}
    (h : Memory.keys m = List.range (min i lim)) :
    Memory.keys (writeGated lim i ps m) = List.range (min (i + ps.length) lim) := by
  refine Memory.keys_eq_range (wf_writeGated _ _ _ _ (Memory.wf_of_keys_range h)) fun j => ?_
  rw [read_writeGated]
  split
  · rename_i hj
    have : j - i < ps.length := by omega
    simp only [List.getElem?_eq_getElem this, Option.isSome_some, true_iff]; omega
  · rw [Memory.read_isSome_of_keys h]; omega

/-- Reading after a row is written (R79). -/
theorem read_writeRow (base n : Nat) (pix : Nat → Pixel) (m : Memory Pixel) (j : Nat) :
    Memory.read (writeRow base n pix m) j =
      if base ≤ j ∧ j < base + n then some (pix (j - base)) else Memory.read m j := by
  unfold writeRow
  induction n with
  | zero => simp only [List.range_zero, List.foldl_nil]; split <;> first | omega | rfl
  | succ n ih =>
    rw [List.range_succ, List.foldl_append, List.foldl_cons, List.foldl_nil, memWrite, Memory.read_write, ih]
    by_cases h : j = base + n
    · subst h; simp
    · by_cases h2 : base ≤ j ∧ j < base + n
      · have : base ≤ j ∧ j < base + (n + 1) := by omega
        simp [h, h2, this]
      · have : ¬ (base ≤ j ∧ j < base + (n + 1)) := by omega
        simp [h, h2, this]

theorem wf_writeRow (base n : Nat) (pix : Nat → Pixel) (m : Memory Pixel) (h : Memory.wf m) :
    Memory.wf (writeRow base n pix m) := by
  unfold writeRow
  induction n with
  | zero => exact h
  | succ n ih =>
    rw [List.range_succ, List.foldl_append, List.foldl_cons, List.foldl_nil, memWrite]
    exact Memory.wf_write _ _ _ ih

theorem keys_writeRow {base n : Nat} {pix : Nat → Pixel} {m : Memory Pixel} (h : Memory.keys m = List.range base) :
    Memory.keys (writeRow base n pix m) = List.range (base + n) := by
  refine Memory.keys_eq_range (wf_writeRow _ _ _ _ (Memory.wf_of_keys_range h)) fun j => ?_
  rw [read_writeRow]
  split
  · simp; omega
  · rw [Memory.read_isSome_of_keys h]; omega

/-! ### The header's draws -/

/-- Reading after `k` entries from `i` on are drawn (R73). -/
theorem read_fillDraws (source d i k : Nat) (m : Memory Byte) (j : Nat) :
    Memory.read (fillDraws source d i k m) j =
      if i ≤ j ∧ j < i + k then some (Config.drawByte source (d + (j - i))) else Memory.read m j := by
  induction k generalizing d i m with
  | zero => simp only [fillDraws]; split <;> first | omega | rfl
  | succ k ih =>
    simp only [fillDraws, ih, Memory.read_write]
    by_cases h : j = i
    · subst h; simp
    · by_cases h2 : i + 1 ≤ j ∧ j < i + 1 + k
      · have h3 : i ≤ j ∧ j < i + (k + 1) := by omega
        have h4 : d + 1 + (j - (i + 1)) = d + (j - i) := by omega
        simp [h2, h3, h4]
      · have h3 : ¬ (i ≤ j ∧ j < i + (k + 1)) := by omega
        rw [if_neg h2, if_neg h3, if_neg h]

theorem wf_fillDraws (source d i k : Nat) (m : Memory Byte) (h : Memory.wf m) : Memory.wf (fillDraws source d i k m) := by
  induction k generalizing d i m with
  | zero => exact h
  | succ k ih => exact ih _ _ _ (Memory.wf_write _ _ _ h)

theorem keys_fillDraws {source d i k : Nat} {m : Memory Byte} (h : Memory.keys m = List.range i) :
    Memory.keys (fillDraws source d i k m) = List.range (i + k) := by
  refine Memory.keys_eq_range (wf_fillDraws _ _ _ _ _ (Memory.wf_of_keys_range h)) fun j => ?_
  rw [read_fillDraws]
  split
  · simp; omega
  · rw [Memory.read_isSome_of_keys h]; omega

/-! ### Operands -/

theorem pixelOf_eq (d : Byte) (k : Nat) : pixelOf d k = d.getLsbD (7 - k) := rfl

theorem litCount_toNat {c : Byte} (h : c.toNat < 128) : (litCount c).toNat = c.toNat + 1 := by
  simp [litCount]; omega

theorem repCount_toNat {c : Byte} (h : 128 ≤ c.toNat) : (repCount c).toNat = 257 - c.toNat := by
  have := c.isLt; simp [repCount]; omega

theorem rowLength_toNat (w : Field) : (rowLength w).toNat = (w.toNat + 7) / 8 := by
  have := w.isLt; simp [rowLength]; omega

theorem pixelCount_toNat (w h : Field) : (pixelCount w h).toNat = w.toNat * h.toNat := by
  have hw := w.isLt
  have hh := h.isLt
  have : w.toNat * h.toNat ≤ 65535 * 65535 := Nat.mul_le_mul (by omega) (by omega)
  simp [pixelCount]; omega

theorem hdrByteAt_of_read {s : State} {i : Nat} {b : Byte} (h : Memory.read s.hdr i = some b) : hdrByteAt s i = b := by
  simp [hdrByteAt, h]

theorem capturedHeader_length (s : State) : (capturedHeader s).length = 64 := by simp [capturedHeader]

theorem capturedHeader_getD {s : State} {i : Nat} (h : i < 64) : (capturedHeader s).getD i 0 = hdrByteAt s i := by
  simp [capturedHeader, List.getD, h]

theorem rowByteAt_of_read {m : Memory Byte} {j : Nat} {b : Byte} (h : Memory.read m j = some b) : rowByteAt m j = b := by
  simp [rowByteAt, h]

end Sys2Proof.Machine
end

