-- ==== Sys2Proof/Laws/PerInstr.lean ====
section
/-! SUPPORT. Facts about every instruction as syntax, one lemma a constructor. -/

/-- The state that runs an operation is not terminal, and its code unit is a symbol just when that state consumes input
(10_state.md R14, 30_encoding.md R67). -/
def Sys2Proof.Laws.Placed.Statement (i : Sys2Proof.Instr) : Prop :=
  Sys2Proof.Machine.terminal (Sys2Proof.encode i).1 = false ∧
  ((∃ a, (Sys2Proof.encode i).2 = .symbol a) ↔ Sys2Proof.Machine.wantsSymbol (Sys2Proof.encode i).1 = true)

namespace Sys2Proof.Laws.Placed

open Sys2Proof.Machine

theorem hdrByte (b : Byte) : Statement (.hdrByte b) := by simp [Statement, encode, terminal, wantsSymbol]
theorem hdrShort : Statement .hdrShort := by simp [Statement, encode, terminal, wantsSymbol]
theorem hdrErr : Statement .hdrErr := by simp [Statement, encode, terminal, wantsSymbol]
theorem selRle (w h : Field) : Statement (.selRle w h) := by simp [Statement, encode, terminal, wantsSymbol]
theorem selRaw (w h : Field) : Statement (.selRaw w h) := by simp [Statement, encode, terminal, wantsSymbol]
theorem rleLit (p : LitPart) : Statement (.rleLit p) := by cases p <;> simp [Statement, encode, terminal, wantsSymbol]
theorem rleRep (p : RepPart) : Statement (.rleRep p) := by cases p <;> simp [Statement, encode, terminal, wantsSymbol]
theorem rleEnd : Statement .rleEnd := by simp [Statement, encode, terminal, wantsSymbol]
theorem rleCtrlErr : Statement .rleCtrlErr := by simp [Statement, encode, terminal, wantsSymbol]
theorem rleChk : Statement .rleChk := by simp [Statement, encode, terminal, wantsSymbol]
theorem rawByte (b : Byte) : Statement (.rawByte b) := by simp [Statement, encode, terminal, wantsSymbol]
theorem rawEnd : Statement .rawEnd := by simp [Statement, encode, terminal, wantsSymbol]
theorem rawErr : Statement .rawErr := by simp [Statement, encode, terminal, wantsSymbol]

end Sys2Proof.Laws.Placed
end

