-- ==== Sys2Proof/Laws/State.lean ====
section
/-! SUPPORT. What each named update of State does to each field, so that no proof unfolds a record update. -/

namespace Sys2Proof.Machine


/-! ### `takeEnd` -/

@[simp] theorem takeEnd_st (s : State) : (takeEnd s).st = s.st := rfl
@[simp] theorem takeEnd_abortShort (s : State) : (takeEnd s).abortShort = s.abortShort := rfl
@[simp] theorem takeEnd_hdr (s : State) : (takeEnd s).hdr = s.hdr := rfl
@[simp] theorem takeEnd_hdrCnt (s : State) : (takeEnd s).hdrCnt = s.hdrCnt := rfl
@[simp] theorem takeEnd_off (s : State) : (takeEnd s).off = s.off := rfl
@[simp] theorem takeEnd_eos (s : State) : (takeEnd s).eos = true := rfl
@[simp] theorem takeEnd_width (s : State) : (takeEnd s).width = s.width := rfl
@[simp] theorem takeEnd_height (s : State) : (takeEnd s).height = s.height := rfl
@[simp] theorem takeEnd_compressed (s : State) : (takeEnd s).compressed = s.compressed := rfl
@[simp] theorem takeEnd_lim (s : State) : (takeEnd s).lim = s.lim := rfl
@[simp] theorem takeEnd_pos (s : State) : (takeEnd s).pos = s.pos := rfl
@[simp] theorem takeEnd_ctrl (s : State) : (takeEnd s).ctrl = s.ctrl := rfl
@[simp] theorem takeEnd_litRem (s : State) : (takeEnd s).litRem = s.litRem := rfl
@[simp] theorem takeEnd_repRem (s : State) : (takeEnd s).repRem = s.repRem := rfl
@[simp] theorem takeEnd_pat (s : State) : (takeEnd s).pat = s.pat := rfl
@[simp] theorem takeEnd_boundsStop (s : State) : (takeEnd s).boundsStop = s.boundsStop := rfl
@[simp] theorem takeEnd_nb (s : State) : (takeEnd s).nb = s.nb := rfl
@[simp] theorem takeEnd_rowCnt (s : State) : (takeEnd s).rowCnt = s.rowCnt := rfl
@[simp] theorem takeEnd_rowbuf (s : State) : (takeEnd s).rowbuf = s.rowbuf := rfl
@[simp] theorem takeEnd_pb (s : State) : (takeEnd s).pb = s.pb := rfl
@[simp] theorem takeEnd_pbCols (s : State) : (takeEnd s).pbCols = s.pbCols := rfl
@[simp] theorem takeEnd_pbRows (s : State) : (takeEnd s).pbRows = s.pbRows := rfl
@[simp] theorem takeEnd_errCode (s : State) : (takeEnd s).errCode = s.errCode := rfl
@[simp] theorem takeEnd_errOff (s : State) : (takeEnd s).errOff = s.errOff := rfl
@[simp] theorem takeEnd_warnShort (s : State) : (takeEnd s).warnShort = s.warnShort := rfl
@[simp] theorem takeEnd_stream (s : State) : (takeEnd s).stream = s.stream := rfl
@[simp] theorem takeEnd_host (s : State) : (takeEnd s).host = s.host := rfl
@[simp] theorem takeEnd_draws (s : State) : (takeEnd s).draws = s.draws := rfl
@[simp] theorem takeEnd_cfg (s : State) : (takeEnd s).cfg = s.cfg := rfl

/-! ### `raise` -/

@[simp] theorem raise_st (e : ErrKind) (s : State) : (raise e s).st = .err := rfl
@[simp] theorem raise_abortShort (e : ErrKind) (s : State) : (raise e s).abortShort = s.abortShort := rfl
@[simp] theorem raise_hdr (e : ErrKind) (s : State) : (raise e s).hdr = s.hdr := rfl
@[simp] theorem raise_hdrCnt (e : ErrKind) (s : State) : (raise e s).hdrCnt = s.hdrCnt := rfl
@[simp] theorem raise_off (e : ErrKind) (s : State) : (raise e s).off = s.off := rfl
@[simp] theorem raise_eos (e : ErrKind) (s : State) : (raise e s).eos = s.eos := rfl
@[simp] theorem raise_width (e : ErrKind) (s : State) : (raise e s).width = s.width := rfl
@[simp] theorem raise_height (e : ErrKind) (s : State) : (raise e s).height = s.height := rfl
@[simp] theorem raise_compressed (e : ErrKind) (s : State) : (raise e s).compressed = s.compressed := rfl
@[simp] theorem raise_lim (e : ErrKind) (s : State) : (raise e s).lim = s.lim := rfl
@[simp] theorem raise_pos (e : ErrKind) (s : State) : (raise e s).pos = s.pos := rfl
@[simp] theorem raise_ctrl (e : ErrKind) (s : State) : (raise e s).ctrl = s.ctrl := rfl
@[simp] theorem raise_litRem (e : ErrKind) (s : State) : (raise e s).litRem = s.litRem := rfl
@[simp] theorem raise_repRem (e : ErrKind) (s : State) : (raise e s).repRem = s.repRem := rfl
@[simp] theorem raise_pat (e : ErrKind) (s : State) : (raise e s).pat = s.pat := rfl
@[simp] theorem raise_boundsStop (e : ErrKind) (s : State) : (raise e s).boundsStop = s.boundsStop := rfl
@[simp] theorem raise_nb (e : ErrKind) (s : State) : (raise e s).nb = s.nb := rfl
@[simp] theorem raise_rowCnt (e : ErrKind) (s : State) : (raise e s).rowCnt = s.rowCnt := rfl
@[simp] theorem raise_rowbuf (e : ErrKind) (s : State) : (raise e s).rowbuf = s.rowbuf := rfl
@[simp] theorem raise_pb (e : ErrKind) (s : State) : (raise e s).pb = s.pb := rfl
@[simp] theorem raise_pbCols (e : ErrKind) (s : State) : (raise e s).pbCols = s.pbCols := rfl
@[simp] theorem raise_pbRows (e : ErrKind) (s : State) : (raise e s).pbRows = s.pbRows := rfl
@[simp] theorem raise_errCode (e : ErrKind) (s : State) : (raise e s).errCode = e := rfl
@[simp] theorem raise_errOff (e : ErrKind) (s : State) : (raise e s).errOff = s.off := rfl
@[simp] theorem raise_warnShort (e : ErrKind) (s : State) : (raise e s).warnShort = s.warnShort := rfl
@[simp] theorem raise_stream (e : ErrKind) (s : State) : (raise e s).stream = s.stream := rfl
@[simp] theorem raise_host (e : ErrKind) (s : State) : (raise e s).host = s.host := rfl
@[simp] theorem raise_draws (e : ErrKind) (s : State) : (raise e s).draws = s.draws := rfl
@[simp] theorem raise_cfg (e : ErrKind) (s : State) : (raise e s).cfg = s.cfg := rfl

/-! ### `finish` -/

@[simp] theorem finish_st (s : State) : (finish s).st = .done := rfl
@[simp] theorem finish_abortShort (s : State) : (finish s).abortShort = s.abortShort := rfl
@[simp] theorem finish_hdr (s : State) : (finish s).hdr = s.hdr := rfl
@[simp] theorem finish_hdrCnt (s : State) : (finish s).hdrCnt = s.hdrCnt := rfl
@[simp] theorem finish_off (s : State) : (finish s).off = s.off := rfl
@[simp] theorem finish_eos (s : State) : (finish s).eos = s.eos := rfl
@[simp] theorem finish_width (s : State) : (finish s).width = s.width := rfl
@[simp] theorem finish_height (s : State) : (finish s).height = s.height := rfl
@[simp] theorem finish_compressed (s : State) : (finish s).compressed = s.compressed := rfl
@[simp] theorem finish_lim (s : State) : (finish s).lim = s.lim := rfl
@[simp] theorem finish_pos (s : State) : (finish s).pos = s.pos := rfl
@[simp] theorem finish_ctrl (s : State) : (finish s).ctrl = s.ctrl := rfl
@[simp] theorem finish_litRem (s : State) : (finish s).litRem = s.litRem := rfl
@[simp] theorem finish_repRem (s : State) : (finish s).repRem = s.repRem := rfl
@[simp] theorem finish_pat (s : State) : (finish s).pat = s.pat := rfl
@[simp] theorem finish_boundsStop (s : State) : (finish s).boundsStop = s.boundsStop := rfl
@[simp] theorem finish_nb (s : State) : (finish s).nb = s.nb := rfl
@[simp] theorem finish_rowCnt (s : State) : (finish s).rowCnt = s.rowCnt := rfl
@[simp] theorem finish_rowbuf (s : State) : (finish s).rowbuf = s.rowbuf := rfl
@[simp] theorem finish_pb (s : State) : (finish s).pb = s.pb := rfl
@[simp] theorem finish_pbCols (s : State) : (finish s).pbCols = s.pbCols := rfl
@[simp] theorem finish_pbRows (s : State) : (finish s).pbRows = s.pbRows := rfl
@[simp] theorem finish_errCode (s : State) : (finish s).errCode = s.errCode := rfl
@[simp] theorem finish_errOff (s : State) : (finish s).errOff = s.errOff := rfl
@[simp] theorem finish_warnShort (s : State) : (finish s).warnShort = s.warnShort := rfl
@[simp] theorem finish_stream (s : State) : (finish s).stream = s.stream := rfl
@[simp] theorem finish_host (s : State) : (finish s).host = s.host := rfl
@[simp] theorem finish_draws (s : State) : (finish s).draws = s.draws := rfl
@[simp] theorem finish_cfg (s : State) : (finish s).cfg = s.cfg := rfl

/-! ### `latchFields` -/

@[simp] theorem latchFields_st (w h : Field) (c : Bool) (s : State) : (latchFields w h c s).st = s.st := rfl
@[simp] theorem latchFields_abortShort (w h : Field) (c : Bool) (s : State) : (latchFields w h c s).abortShort = s.abortShort := rfl
@[simp] theorem latchFields_hdr (w h : Field) (c : Bool) (s : State) : (latchFields w h c s).hdr = s.hdr := rfl
@[simp] theorem latchFields_hdrCnt (w h : Field) (c : Bool) (s : State) : (latchFields w h c s).hdrCnt = s.hdrCnt := rfl
@[simp] theorem latchFields_off (w h : Field) (c : Bool) (s : State) : (latchFields w h c s).off = s.off := rfl
@[simp] theorem latchFields_eos (w h : Field) (c : Bool) (s : State) : (latchFields w h c s).eos = s.eos := rfl
@[simp] theorem latchFields_width (w h : Field) (c : Bool) (s : State) : (latchFields w h c s).width = w := rfl
@[simp] theorem latchFields_height (w h : Field) (c : Bool) (s : State) : (latchFields w h c s).height = h := rfl
@[simp] theorem latchFields_compressed (w h : Field) (c : Bool) (s : State) : (latchFields w h c s).compressed = c := rfl
@[simp] theorem latchFields_lim (w h : Field) (c : Bool) (s : State) : (latchFields w h c s).lim = s.lim := rfl
@[simp] theorem latchFields_pos (w h : Field) (c : Bool) (s : State) : (latchFields w h c s).pos = s.pos := rfl
@[simp] theorem latchFields_ctrl (w h : Field) (c : Bool) (s : State) : (latchFields w h c s).ctrl = s.ctrl := rfl
@[simp] theorem latchFields_litRem (w h : Field) (c : Bool) (s : State) : (latchFields w h c s).litRem = s.litRem := rfl
@[simp] theorem latchFields_repRem (w h : Field) (c : Bool) (s : State) : (latchFields w h c s).repRem = s.repRem := rfl
@[simp] theorem latchFields_pat (w h : Field) (c : Bool) (s : State) : (latchFields w h c s).pat = s.pat := rfl
@[simp] theorem latchFields_boundsStop (w h : Field) (c : Bool) (s : State) : (latchFields w h c s).boundsStop = s.boundsStop := rfl
@[simp] theorem latchFields_nb (w h : Field) (c : Bool) (s : State) : (latchFields w h c s).nb = s.nb := rfl
@[simp] theorem latchFields_rowCnt (w h : Field) (c : Bool) (s : State) : (latchFields w h c s).rowCnt = s.rowCnt := rfl
@[simp] theorem latchFields_rowbuf (w h : Field) (c : Bool) (s : State) : (latchFields w h c s).rowbuf = s.rowbuf := rfl
@[simp] theorem latchFields_pb (w h : Field) (c : Bool) (s : State) : (latchFields w h c s).pb = s.pb := rfl
@[simp] theorem latchFields_pbCols (w h : Field) (c : Bool) (s : State) : (latchFields w h c s).pbCols = s.pbCols := rfl
@[simp] theorem latchFields_pbRows (w h : Field) (c : Bool) (s : State) : (latchFields w h c s).pbRows = s.pbRows := rfl
@[simp] theorem latchFields_errCode (w h : Field) (c : Bool) (s : State) : (latchFields w h c s).errCode = s.errCode := rfl
@[simp] theorem latchFields_errOff (w h : Field) (c : Bool) (s : State) : (latchFields w h c s).errOff = s.errOff := rfl
@[simp] theorem latchFields_warnShort (w h : Field) (c : Bool) (s : State) : (latchFields w h c s).warnShort = s.warnShort := rfl
@[simp] theorem latchFields_stream (w h : Field) (c : Bool) (s : State) : (latchFields w h c s).stream = s.stream := rfl
@[simp] theorem latchFields_host (w h : Field) (c : Bool) (s : State) : (latchFields w h c s).host = s.host := rfl
@[simp] theorem latchFields_draws (w h : Field) (c : Bool) (s : State) : (latchFields w h c s).draws = s.draws := rfl
@[simp] theorem latchFields_cfg (w h : Field) (c : Bool) (s : State) : (latchFields w h c s).cfg = s.cfg := rfl

/-! ### `rleEntry` -/

@[simp] theorem rleEntry_st (s : State) : (rleEntry s).st = .rleCtrl := rfl
@[simp] theorem rleEntry_abortShort (s : State) : (rleEntry s).abortShort = s.abortShort := rfl
@[simp] theorem rleEntry_hdr (s : State) : (rleEntry s).hdr = s.hdr := rfl
@[simp] theorem rleEntry_hdrCnt (s : State) : (rleEntry s).hdrCnt = s.hdrCnt := rfl
@[simp] theorem rleEntry_off (s : State) : (rleEntry s).off = s.off := rfl
@[simp] theorem rleEntry_eos (s : State) : (rleEntry s).eos = s.eos := rfl
@[simp] theorem rleEntry_width (s : State) : (rleEntry s).width = s.width := rfl
@[simp] theorem rleEntry_height (s : State) : (rleEntry s).height = s.height := rfl
@[simp] theorem rleEntry_compressed (s : State) : (rleEntry s).compressed = s.compressed := rfl
@[simp] theorem rleEntry_lim (s : State) : (rleEntry s).lim = pixelCount s.width s.height := rfl
@[simp] theorem rleEntry_pos (s : State) : (rleEntry s).pos = 0 := rfl
@[simp] theorem rleEntry_ctrl (s : State) : (rleEntry s).ctrl = s.ctrl := rfl
@[simp] theorem rleEntry_litRem (s : State) : (rleEntry s).litRem = s.litRem := rfl
@[simp] theorem rleEntry_repRem (s : State) : (rleEntry s).repRem = s.repRem := rfl
@[simp] theorem rleEntry_pat (s : State) : (rleEntry s).pat = s.pat := rfl
@[simp] theorem rleEntry_boundsStop (s : State) : (rleEntry s).boundsStop = s.boundsStop := rfl
@[simp] theorem rleEntry_nb (s : State) : (rleEntry s).nb = s.nb := rfl
@[simp] theorem rleEntry_rowCnt (s : State) : (rleEntry s).rowCnt = s.rowCnt := rfl
@[simp] theorem rleEntry_rowbuf (s : State) : (rleEntry s).rowbuf = s.rowbuf := rfl
@[simp] theorem rleEntry_pb (s : State) : (rleEntry s).pb = s.pb := rfl
@[simp] theorem rleEntry_pbCols (s : State) : (rleEntry s).pbCols = s.width := rfl
@[simp] theorem rleEntry_pbRows (s : State) : (rleEntry s).pbRows = s.height.toNat + 1 := rfl
@[simp] theorem rleEntry_errCode (s : State) : (rleEntry s).errCode = s.errCode := rfl
@[simp] theorem rleEntry_errOff (s : State) : (rleEntry s).errOff = s.errOff := rfl
@[simp] theorem rleEntry_warnShort (s : State) : (rleEntry s).warnShort = s.warnShort := rfl
@[simp] theorem rleEntry_stream (s : State) : (rleEntry s).stream = s.stream := rfl
@[simp] theorem rleEntry_host (s : State) : (rleEntry s).host = s.host := rfl
@[simp] theorem rleEntry_draws (s : State) : (rleEntry s).draws = s.draws := rfl
@[simp] theorem rleEntry_cfg (s : State) : (rleEntry s).cfg = s.cfg := rfl

/-! ### `rleWrite8` -/

@[simp] theorem rleWrite8_st (d : Byte) (s : State) : (rleWrite8 d s).st = s.st := rfl
@[simp] theorem rleWrite8_abortShort (d : Byte) (s : State) : (rleWrite8 d s).abortShort = s.abortShort := rfl
@[simp] theorem rleWrite8_hdr (d : Byte) (s : State) : (rleWrite8 d s).hdr = s.hdr := rfl
@[simp] theorem rleWrite8_hdrCnt (d : Byte) (s : State) : (rleWrite8 d s).hdrCnt = s.hdrCnt := rfl
@[simp] theorem rleWrite8_off (d : Byte) (s : State) : (rleWrite8 d s).off = s.off := rfl
@[simp] theorem rleWrite8_eos (d : Byte) (s : State) : (rleWrite8 d s).eos = s.eos := rfl
@[simp] theorem rleWrite8_width (d : Byte) (s : State) : (rleWrite8 d s).width = s.width := rfl
@[simp] theorem rleWrite8_height (d : Byte) (s : State) : (rleWrite8 d s).height = s.height := rfl
@[simp] theorem rleWrite8_compressed (d : Byte) (s : State) : (rleWrite8 d s).compressed = s.compressed := rfl
@[simp] theorem rleWrite8_lim (d : Byte) (s : State) : (rleWrite8 d s).lim = s.lim := rfl
@[simp] theorem rleWrite8_pos (d : Byte) (s : State) : (rleWrite8 d s).pos = s.pos + 8 := rfl
@[simp] theorem rleWrite8_ctrl (d : Byte) (s : State) : (rleWrite8 d s).ctrl = s.ctrl := rfl
@[simp] theorem rleWrite8_litRem (d : Byte) (s : State) : (rleWrite8 d s).litRem = s.litRem := rfl
@[simp] theorem rleWrite8_repRem (d : Byte) (s : State) : (rleWrite8 d s).repRem = s.repRem := rfl
@[simp] theorem rleWrite8_pat (d : Byte) (s : State) : (rleWrite8 d s).pat = s.pat := rfl
@[simp] theorem rleWrite8_boundsStop (d : Byte) (s : State) : (rleWrite8 d s).boundsStop = s.boundsStop := rfl
@[simp] theorem rleWrite8_nb (d : Byte) (s : State) : (rleWrite8 d s).nb = s.nb := rfl
@[simp] theorem rleWrite8_rowCnt (d : Byte) (s : State) : (rleWrite8 d s).rowCnt = s.rowCnt := rfl
@[simp] theorem rleWrite8_rowbuf (d : Byte) (s : State) : (rleWrite8 d s).rowbuf = s.rowbuf := rfl
@[simp] theorem rleWrite8_pb (d : Byte) (s : State) : (rleWrite8 d s).pb = writeGated s.lim.toNat s.pos.toNat (unpack8 d) s.pb := rfl
@[simp] theorem rleWrite8_pbCols (d : Byte) (s : State) : (rleWrite8 d s).pbCols = s.pbCols := rfl
@[simp] theorem rleWrite8_pbRows (d : Byte) (s : State) : (rleWrite8 d s).pbRows = s.pbRows := rfl
@[simp] theorem rleWrite8_errCode (d : Byte) (s : State) : (rleWrite8 d s).errCode = s.errCode := rfl
@[simp] theorem rleWrite8_errOff (d : Byte) (s : State) : (rleWrite8 d s).errOff = s.errOff := rfl
@[simp] theorem rleWrite8_warnShort (d : Byte) (s : State) : (rleWrite8 d s).warnShort = s.warnShort := rfl
@[simp] theorem rleWrite8_stream (d : Byte) (s : State) : (rleWrite8 d s).stream = s.stream := rfl
@[simp] theorem rleWrite8_host (d : Byte) (s : State) : (rleWrite8 d s).host = s.host := rfl
@[simp] theorem rleWrite8_draws (d : Byte) (s : State) : (rleWrite8 d s).draws = s.draws := rfl
@[simp] theorem rleWrite8_cfg (d : Byte) (s : State) : (rleWrite8 d s).cfg = s.cfg := rfl

/-! ### `commitRow` -/

@[simp] theorem commitRow_st (s : State) : (commitRow s).st = s.st := rfl
@[simp] theorem commitRow_abortShort (s : State) : (commitRow s).abortShort = s.abortShort := rfl
@[simp] theorem commitRow_hdr (s : State) : (commitRow s).hdr = s.hdr := rfl
@[simp] theorem commitRow_hdrCnt (s : State) : (commitRow s).hdrCnt = s.hdrCnt := rfl
@[simp] theorem commitRow_off (s : State) : (commitRow s).off = s.off := rfl
@[simp] theorem commitRow_eos (s : State) : (commitRow s).eos = s.eos := rfl
@[simp] theorem commitRow_width (s : State) : (commitRow s).width = s.width := rfl
@[simp] theorem commitRow_height (s : State) : (commitRow s).height = s.height := rfl
@[simp] theorem commitRow_compressed (s : State) : (commitRow s).compressed = s.compressed := rfl
@[simp] theorem commitRow_lim (s : State) : (commitRow s).lim = s.lim := rfl
@[simp] theorem commitRow_pos (s : State) : (commitRow s).pos = s.pos := rfl
@[simp] theorem commitRow_ctrl (s : State) : (commitRow s).ctrl = s.ctrl := rfl
@[simp] theorem commitRow_litRem (s : State) : (commitRow s).litRem = s.litRem := rfl
@[simp] theorem commitRow_repRem (s : State) : (commitRow s).repRem = s.repRem := rfl
@[simp] theorem commitRow_pat (s : State) : (commitRow s).pat = s.pat := rfl
@[simp] theorem commitRow_boundsStop (s : State) : (commitRow s).boundsStop = s.boundsStop := rfl
@[simp] theorem commitRow_nb (s : State) : (commitRow s).nb = s.nb := rfl
@[simp] theorem commitRow_rowCnt (s : State) : (commitRow s).rowCnt = 0 := rfl
@[simp] theorem commitRow_rowbuf (s : State) : (commitRow s).rowbuf = Memory.clearBelow s.rowbuf s.nb.toNat := rfl
@[simp] theorem commitRow_pb (s : State) : (commitRow s).pb = writeRow (s.pbRows * s.width.toNat) s.width.toNat (rowPixel s.rowbuf) s.pb := rfl
@[simp] theorem commitRow_pbCols (s : State) : (commitRow s).pbCols = s.pbCols := rfl
@[simp] theorem commitRow_pbRows (s : State) : (commitRow s).pbRows = s.pbRows + 1 := rfl
@[simp] theorem commitRow_errCode (s : State) : (commitRow s).errCode = s.errCode := rfl
@[simp] theorem commitRow_errOff (s : State) : (commitRow s).errOff = s.errOff := rfl
@[simp] theorem commitRow_warnShort (s : State) : (commitRow s).warnShort = s.warnShort := rfl
@[simp] theorem commitRow_stream (s : State) : (commitRow s).stream = s.stream := rfl
@[simp] theorem commitRow_host (s : State) : (commitRow s).host = s.host := rfl
@[simp] theorem commitRow_draws (s : State) : (commitRow s).draws = s.draws := rfl
@[simp] theorem commitRow_cfg (s : State) : (commitRow s).cfg = s.cfg := rfl

/-! ### `captureRowByte` -/

@[simp] theorem captureRowByte_st (b : Byte) (s : State) : (captureRowByte b s).st = .rawRow := rfl
@[simp] theorem captureRowByte_abortShort (b : Byte) (s : State) : (captureRowByte b s).abortShort = s.abortShort := rfl
@[simp] theorem captureRowByte_hdr (b : Byte) (s : State) : (captureRowByte b s).hdr = s.hdr := rfl
@[simp] theorem captureRowByte_hdrCnt (b : Byte) (s : State) : (captureRowByte b s).hdrCnt = s.hdrCnt := rfl
@[simp] theorem captureRowByte_off (b : Byte) (s : State) : (captureRowByte b s).off = s.off := rfl
@[simp] theorem captureRowByte_eos (b : Byte) (s : State) : (captureRowByte b s).eos = s.eos := rfl
@[simp] theorem captureRowByte_width (b : Byte) (s : State) : (captureRowByte b s).width = s.width := rfl
@[simp] theorem captureRowByte_height (b : Byte) (s : State) : (captureRowByte b s).height = s.height := rfl
@[simp] theorem captureRowByte_compressed (b : Byte) (s : State) : (captureRowByte b s).compressed = s.compressed := rfl
@[simp] theorem captureRowByte_lim (b : Byte) (s : State) : (captureRowByte b s).lim = s.lim := rfl
@[simp] theorem captureRowByte_pos (b : Byte) (s : State) : (captureRowByte b s).pos = s.pos := rfl
@[simp] theorem captureRowByte_ctrl (b : Byte) (s : State) : (captureRowByte b s).ctrl = s.ctrl := rfl
@[simp] theorem captureRowByte_litRem (b : Byte) (s : State) : (captureRowByte b s).litRem = s.litRem := rfl
@[simp] theorem captureRowByte_repRem (b : Byte) (s : State) : (captureRowByte b s).repRem = s.repRem := rfl
@[simp] theorem captureRowByte_pat (b : Byte) (s : State) : (captureRowByte b s).pat = s.pat := rfl
@[simp] theorem captureRowByte_boundsStop (b : Byte) (s : State) : (captureRowByte b s).boundsStop = s.boundsStop := rfl
@[simp] theorem captureRowByte_nb (b : Byte) (s : State) : (captureRowByte b s).nb = s.nb := rfl
@[simp] theorem captureRowByte_rowCnt (b : Byte) (s : State) : (captureRowByte b s).rowCnt = s.rowCnt + 1 := rfl
@[simp] theorem captureRowByte_rowbuf (b : Byte) (s : State) : (captureRowByte b s).rowbuf = Memory.write s.rowbuf s.rowCnt.toNat b := rfl
@[simp] theorem captureRowByte_pb (b : Byte) (s : State) : (captureRowByte b s).pb = s.pb := rfl
@[simp] theorem captureRowByte_pbCols (b : Byte) (s : State) : (captureRowByte b s).pbCols = s.pbCols := rfl
@[simp] theorem captureRowByte_pbRows (b : Byte) (s : State) : (captureRowByte b s).pbRows = s.pbRows := rfl
@[simp] theorem captureRowByte_errCode (b : Byte) (s : State) : (captureRowByte b s).errCode = s.errCode := rfl
@[simp] theorem captureRowByte_errOff (b : Byte) (s : State) : (captureRowByte b s).errOff = s.errOff := rfl
@[simp] theorem captureRowByte_warnShort (b : Byte) (s : State) : (captureRowByte b s).warnShort = s.warnShort := rfl
@[simp] theorem captureRowByte_stream (b : Byte) (s : State) : (captureRowByte b s).stream = s.stream := rfl
@[simp] theorem captureRowByte_host (b : Byte) (s : State) : (captureRowByte b s).host = s.host := rfl
@[simp] theorem captureRowByte_draws (b : Byte) (s : State) : (captureRowByte b s).draws = s.draws := rfl
@[simp] theorem captureRowByte_cfg (b : Byte) (s : State) : (captureRowByte b s).cfg = s.cfg := rfl

/-! ### `drawMissing` -/

@[simp] theorem drawMissing_st (s : State) : (drawMissing s).st = s.st := rfl
@[simp] theorem drawMissing_abortShort (s : State) : (drawMissing s).abortShort = s.abortShort := rfl
@[simp] theorem drawMissing_hdr (s : State) : (drawMissing s).hdr = fillDraws s.cfg.drawSource s.draws s.hdrCnt.toNat (64 - s.hdrCnt.toNat) s.hdr := rfl
@[simp] theorem drawMissing_hdrCnt (s : State) : (drawMissing s).hdrCnt = s.hdrCnt := rfl
@[simp] theorem drawMissing_off (s : State) : (drawMissing s).off = s.off := rfl
@[simp] theorem drawMissing_eos (s : State) : (drawMissing s).eos = s.eos := rfl
@[simp] theorem drawMissing_width (s : State) : (drawMissing s).width = s.width := rfl
@[simp] theorem drawMissing_height (s : State) : (drawMissing s).height = s.height := rfl
@[simp] theorem drawMissing_compressed (s : State) : (drawMissing s).compressed = s.compressed := rfl
@[simp] theorem drawMissing_lim (s : State) : (drawMissing s).lim = s.lim := rfl
@[simp] theorem drawMissing_pos (s : State) : (drawMissing s).pos = s.pos := rfl
@[simp] theorem drawMissing_ctrl (s : State) : (drawMissing s).ctrl = s.ctrl := rfl
@[simp] theorem drawMissing_litRem (s : State) : (drawMissing s).litRem = s.litRem := rfl
@[simp] theorem drawMissing_repRem (s : State) : (drawMissing s).repRem = s.repRem := rfl
@[simp] theorem drawMissing_pat (s : State) : (drawMissing s).pat = s.pat := rfl
@[simp] theorem drawMissing_boundsStop (s : State) : (drawMissing s).boundsStop = s.boundsStop := rfl
@[simp] theorem drawMissing_nb (s : State) : (drawMissing s).nb = s.nb := rfl
@[simp] theorem drawMissing_rowCnt (s : State) : (drawMissing s).rowCnt = s.rowCnt := rfl
@[simp] theorem drawMissing_rowbuf (s : State) : (drawMissing s).rowbuf = s.rowbuf := rfl
@[simp] theorem drawMissing_pb (s : State) : (drawMissing s).pb = s.pb := rfl
@[simp] theorem drawMissing_pbCols (s : State) : (drawMissing s).pbCols = s.pbCols := rfl
@[simp] theorem drawMissing_pbRows (s : State) : (drawMissing s).pbRows = s.pbRows := rfl
@[simp] theorem drawMissing_errCode (s : State) : (drawMissing s).errCode = s.errCode := rfl
@[simp] theorem drawMissing_errOff (s : State) : (drawMissing s).errOff = s.errOff := rfl
@[simp] theorem drawMissing_warnShort (s : State) : (drawMissing s).warnShort = s.warnShort := rfl
@[simp] theorem drawMissing_stream (s : State) : (drawMissing s).stream = s.stream := rfl
@[simp] theorem drawMissing_host (s : State) : (drawMissing s).host = s.host := rfl
@[simp] theorem drawMissing_draws (s : State) : (drawMissing s).draws = s.draws + (64 - s.hdrCnt.toNat) := rfl
@[simp] theorem drawMissing_cfg (s : State) : (drawMissing s).cfg = s.cfg := rfl

/-! ### `litStart` -/

@[simp] theorem litStart_st (c : Byte) (s : State) : (litStart c s).st = .rleLit := rfl
@[simp] theorem litStart_abortShort (c : Byte) (s : State) : (litStart c s).abortShort = s.abortShort := rfl
@[simp] theorem litStart_hdr (c : Byte) (s : State) : (litStart c s).hdr = s.hdr := rfl
@[simp] theorem litStart_hdrCnt (c : Byte) (s : State) : (litStart c s).hdrCnt = s.hdrCnt := rfl
@[simp] theorem litStart_off (c : Byte) (s : State) : (litStart c s).off = s.off := rfl
@[simp] theorem litStart_eos (c : Byte) (s : State) : (litStart c s).eos = s.eos := rfl
@[simp] theorem litStart_width (c : Byte) (s : State) : (litStart c s).width = s.width := rfl
@[simp] theorem litStart_height (c : Byte) (s : State) : (litStart c s).height = s.height := rfl
@[simp] theorem litStart_compressed (c : Byte) (s : State) : (litStart c s).compressed = s.compressed := rfl
@[simp] theorem litStart_lim (c : Byte) (s : State) : (litStart c s).lim = s.lim := rfl
@[simp] theorem litStart_pos (c : Byte) (s : State) : (litStart c s).pos = s.pos := rfl
@[simp] theorem litStart_ctrl (c : Byte) (s : State) : (litStart c s).ctrl = c := rfl
@[simp] theorem litStart_litRem (c : Byte) (s : State) : (litStart c s).litRem = litCount c := rfl
@[simp] theorem litStart_repRem (c : Byte) (s : State) : (litStart c s).repRem = s.repRem := rfl
@[simp] theorem litStart_pat (c : Byte) (s : State) : (litStart c s).pat = s.pat := rfl
@[simp] theorem litStart_boundsStop (c : Byte) (s : State) : (litStart c s).boundsStop = s.boundsStop := rfl
@[simp] theorem litStart_nb (c : Byte) (s : State) : (litStart c s).nb = s.nb := rfl
@[simp] theorem litStart_rowCnt (c : Byte) (s : State) : (litStart c s).rowCnt = s.rowCnt := rfl
@[simp] theorem litStart_rowbuf (c : Byte) (s : State) : (litStart c s).rowbuf = s.rowbuf := rfl
@[simp] theorem litStart_pb (c : Byte) (s : State) : (litStart c s).pb = s.pb := rfl
@[simp] theorem litStart_pbCols (c : Byte) (s : State) : (litStart c s).pbCols = s.pbCols := rfl
@[simp] theorem litStart_pbRows (c : Byte) (s : State) : (litStart c s).pbRows = s.pbRows := rfl
@[simp] theorem litStart_errCode (c : Byte) (s : State) : (litStart c s).errCode = s.errCode := rfl
@[simp] theorem litStart_errOff (c : Byte) (s : State) : (litStart c s).errOff = s.errOff := rfl
@[simp] theorem litStart_warnShort (c : Byte) (s : State) : (litStart c s).warnShort = s.warnShort := rfl
@[simp] theorem litStart_stream (c : Byte) (s : State) : (litStart c s).stream = s.stream := rfl
@[simp] theorem litStart_host (c : Byte) (s : State) : (litStart c s).host = s.host := rfl
@[simp] theorem litStart_draws (c : Byte) (s : State) : (litStart c s).draws = s.draws := rfl
@[simp] theorem litStart_cfg (c : Byte) (s : State) : (litStart c s).cfg = s.cfg := rfl

/-! ### `repStart` -/

@[simp] theorem repStart_st (c : Byte) (s : State) : (repStart c s).st = .rleRepd := rfl
@[simp] theorem repStart_abortShort (c : Byte) (s : State) : (repStart c s).abortShort = s.abortShort := rfl
@[simp] theorem repStart_hdr (c : Byte) (s : State) : (repStart c s).hdr = s.hdr := rfl
@[simp] theorem repStart_hdrCnt (c : Byte) (s : State) : (repStart c s).hdrCnt = s.hdrCnt := rfl
@[simp] theorem repStart_off (c : Byte) (s : State) : (repStart c s).off = s.off := rfl
@[simp] theorem repStart_eos (c : Byte) (s : State) : (repStart c s).eos = s.eos := rfl
@[simp] theorem repStart_width (c : Byte) (s : State) : (repStart c s).width = s.width := rfl
@[simp] theorem repStart_height (c : Byte) (s : State) : (repStart c s).height = s.height := rfl
@[simp] theorem repStart_compressed (c : Byte) (s : State) : (repStart c s).compressed = s.compressed := rfl
@[simp] theorem repStart_lim (c : Byte) (s : State) : (repStart c s).lim = s.lim := rfl
@[simp] theorem repStart_pos (c : Byte) (s : State) : (repStart c s).pos = s.pos := rfl
@[simp] theorem repStart_ctrl (c : Byte) (s : State) : (repStart c s).ctrl = c := rfl
@[simp] theorem repStart_litRem (c : Byte) (s : State) : (repStart c s).litRem = s.litRem := rfl
@[simp] theorem repStart_repRem (c : Byte) (s : State) : (repStart c s).repRem = repCount c := rfl
@[simp] theorem repStart_pat (c : Byte) (s : State) : (repStart c s).pat = s.pat := rfl
@[simp] theorem repStart_boundsStop (c : Byte) (s : State) : (repStart c s).boundsStop = s.boundsStop := rfl
@[simp] theorem repStart_nb (c : Byte) (s : State) : (repStart c s).nb = s.nb := rfl
@[simp] theorem repStart_rowCnt (c : Byte) (s : State) : (repStart c s).rowCnt = s.rowCnt := rfl
@[simp] theorem repStart_rowbuf (c : Byte) (s : State) : (repStart c s).rowbuf = s.rowbuf := rfl
@[simp] theorem repStart_pb (c : Byte) (s : State) : (repStart c s).pb = s.pb := rfl
@[simp] theorem repStart_pbCols (c : Byte) (s : State) : (repStart c s).pbCols = s.pbCols := rfl
@[simp] theorem repStart_pbRows (c : Byte) (s : State) : (repStart c s).pbRows = s.pbRows := rfl
@[simp] theorem repStart_errCode (c : Byte) (s : State) : (repStart c s).errCode = s.errCode := rfl
@[simp] theorem repStart_errOff (c : Byte) (s : State) : (repStart c s).errOff = s.errOff := rfl
@[simp] theorem repStart_warnShort (c : Byte) (s : State) : (repStart c s).warnShort = s.warnShort := rfl
@[simp] theorem repStart_stream (c : Byte) (s : State) : (repStart c s).stream = s.stream := rfl
@[simp] theorem repStart_host (c : Byte) (s : State) : (repStart c s).host = s.host := rfl
@[simp] theorem repStart_draws (c : Byte) (s : State) : (repStart c s).draws = s.draws := rfl
@[simp] theorem repStart_cfg (c : Byte) (s : State) : (repStart c s).cfg = s.cfg := rfl

/-! ### `repByte` -/

@[simp] theorem repByte_st (d : Byte) (s : State) : (repByte d s).st = .rleRepw := rfl
@[simp] theorem repByte_abortShort (d : Byte) (s : State) : (repByte d s).abortShort = s.abortShort := rfl
@[simp] theorem repByte_hdr (d : Byte) (s : State) : (repByte d s).hdr = s.hdr := rfl
@[simp] theorem repByte_hdrCnt (d : Byte) (s : State) : (repByte d s).hdrCnt = s.hdrCnt := rfl
@[simp] theorem repByte_off (d : Byte) (s : State) : (repByte d s).off = s.off := rfl
@[simp] theorem repByte_eos (d : Byte) (s : State) : (repByte d s).eos = s.eos := rfl
@[simp] theorem repByte_width (d : Byte) (s : State) : (repByte d s).width = s.width := rfl
@[simp] theorem repByte_height (d : Byte) (s : State) : (repByte d s).height = s.height := rfl
@[simp] theorem repByte_compressed (d : Byte) (s : State) : (repByte d s).compressed = s.compressed := rfl
@[simp] theorem repByte_lim (d : Byte) (s : State) : (repByte d s).lim = s.lim := rfl
@[simp] theorem repByte_pos (d : Byte) (s : State) : (repByte d s).pos = s.pos := rfl
@[simp] theorem repByte_ctrl (d : Byte) (s : State) : (repByte d s).ctrl = s.ctrl := rfl
@[simp] theorem repByte_litRem (d : Byte) (s : State) : (repByte d s).litRem = s.litRem := rfl
@[simp] theorem repByte_repRem (d : Byte) (s : State) : (repByte d s).repRem = s.repRem := rfl
@[simp] theorem repByte_pat (d : Byte) (s : State) : (repByte d s).pat = d := rfl
@[simp] theorem repByte_boundsStop (d : Byte) (s : State) : (repByte d s).boundsStop = s.boundsStop := rfl
@[simp] theorem repByte_nb (d : Byte) (s : State) : (repByte d s).nb = s.nb := rfl
@[simp] theorem repByte_rowCnt (d : Byte) (s : State) : (repByte d s).rowCnt = s.rowCnt := rfl
@[simp] theorem repByte_rowbuf (d : Byte) (s : State) : (repByte d s).rowbuf = s.rowbuf := rfl
@[simp] theorem repByte_pb (d : Byte) (s : State) : (repByte d s).pb = s.pb := rfl
@[simp] theorem repByte_pbCols (d : Byte) (s : State) : (repByte d s).pbCols = s.pbCols := rfl
@[simp] theorem repByte_pbRows (d : Byte) (s : State) : (repByte d s).pbRows = s.pbRows := rfl
@[simp] theorem repByte_errCode (d : Byte) (s : State) : (repByte d s).errCode = s.errCode := rfl
@[simp] theorem repByte_errOff (d : Byte) (s : State) : (repByte d s).errOff = s.errOff := rfl
@[simp] theorem repByte_warnShort (d : Byte) (s : State) : (repByte d s).warnShort = s.warnShort := rfl
@[simp] theorem repByte_stream (d : Byte) (s : State) : (repByte d s).stream = s.stream := rfl
@[simp] theorem repByte_host (d : Byte) (s : State) : (repByte d s).host = s.host := rfl
@[simp] theorem repByte_draws (d : Byte) (s : State) : (repByte d s).draws = s.draws := rfl
@[simp] theorem repByte_cfg (d : Byte) (s : State) : (repByte d s).cfg = s.cfg := rfl

/-! ### `litByte` -/

@[simp] theorem litByte_st (d : Byte) (s : State) : (litByte d s).st = (if runOver (s.litRem - 1) then .rleChk else .rleLit) := rfl
@[simp] theorem litByte_abortShort (d : Byte) (s : State) : (litByte d s).abortShort = s.abortShort := rfl
@[simp] theorem litByte_hdr (d : Byte) (s : State) : (litByte d s).hdr = s.hdr := rfl
@[simp] theorem litByte_hdrCnt (d : Byte) (s : State) : (litByte d s).hdrCnt = s.hdrCnt := rfl
@[simp] theorem litByte_off (d : Byte) (s : State) : (litByte d s).off = s.off := rfl
@[simp] theorem litByte_eos (d : Byte) (s : State) : (litByte d s).eos = s.eos := rfl
@[simp] theorem litByte_width (d : Byte) (s : State) : (litByte d s).width = s.width := rfl
@[simp] theorem litByte_height (d : Byte) (s : State) : (litByte d s).height = s.height := rfl
@[simp] theorem litByte_compressed (d : Byte) (s : State) : (litByte d s).compressed = s.compressed := rfl
@[simp] theorem litByte_lim (d : Byte) (s : State) : (litByte d s).lim = s.lim := rfl
@[simp] theorem litByte_pos (d : Byte) (s : State) : (litByte d s).pos = s.pos + 8 := rfl
@[simp] theorem litByte_ctrl (d : Byte) (s : State) : (litByte d s).ctrl = s.ctrl := rfl
@[simp] theorem litByte_litRem (d : Byte) (s : State) : (litByte d s).litRem = s.litRem - 1 := rfl
@[simp] theorem litByte_repRem (d : Byte) (s : State) : (litByte d s).repRem = s.repRem := rfl
@[simp] theorem litByte_pat (d : Byte) (s : State) : (litByte d s).pat = s.pat := rfl
@[simp] theorem litByte_boundsStop (d : Byte) (s : State) : (litByte d s).boundsStop = s.boundsStop := rfl
@[simp] theorem litByte_nb (d : Byte) (s : State) : (litByte d s).nb = s.nb := rfl
@[simp] theorem litByte_rowCnt (d : Byte) (s : State) : (litByte d s).rowCnt = s.rowCnt := rfl
@[simp] theorem litByte_rowbuf (d : Byte) (s : State) : (litByte d s).rowbuf = s.rowbuf := rfl
@[simp] theorem litByte_pb (d : Byte) (s : State) : (litByte d s).pb = writeGated s.lim.toNat s.pos.toNat (unpack8 d) s.pb := rfl
@[simp] theorem litByte_pbCols (d : Byte) (s : State) : (litByte d s).pbCols = s.pbCols := rfl
@[simp] theorem litByte_pbRows (d : Byte) (s : State) : (litByte d s).pbRows = s.pbRows := rfl
@[simp] theorem litByte_errCode (d : Byte) (s : State) : (litByte d s).errCode = s.errCode := rfl
@[simp] theorem litByte_errOff (d : Byte) (s : State) : (litByte d s).errOff = s.errOff := rfl
@[simp] theorem litByte_warnShort (d : Byte) (s : State) : (litByte d s).warnShort = s.warnShort := rfl
@[simp] theorem litByte_stream (d : Byte) (s : State) : (litByte d s).stream = s.stream := rfl
@[simp] theorem litByte_host (d : Byte) (s : State) : (litByte d s).host = s.host := rfl
@[simp] theorem litByte_draws (d : Byte) (s : State) : (litByte d s).draws = s.draws := rfl
@[simp] theorem litByte_cfg (d : Byte) (s : State) : (litByte d s).cfg = s.cfg := rfl

/-! ### `replayOnce` -/

@[simp] theorem replayOnce_st (s : State) : (replayOnce s).st = (if runOver (s.repRem - 1) then .rleChk else .rleRepw) := rfl
@[simp] theorem replayOnce_abortShort (s : State) : (replayOnce s).abortShort = s.abortShort := rfl
@[simp] theorem replayOnce_hdr (s : State) : (replayOnce s).hdr = s.hdr := rfl
@[simp] theorem replayOnce_hdrCnt (s : State) : (replayOnce s).hdrCnt = s.hdrCnt := rfl
@[simp] theorem replayOnce_off (s : State) : (replayOnce s).off = s.off := rfl
@[simp] theorem replayOnce_eos (s : State) : (replayOnce s).eos = s.eos := rfl
@[simp] theorem replayOnce_width (s : State) : (replayOnce s).width = s.width := rfl
@[simp] theorem replayOnce_height (s : State) : (replayOnce s).height = s.height := rfl
@[simp] theorem replayOnce_compressed (s : State) : (replayOnce s).compressed = s.compressed := rfl
@[simp] theorem replayOnce_lim (s : State) : (replayOnce s).lim = s.lim := rfl
@[simp] theorem replayOnce_pos (s : State) : (replayOnce s).pos = s.pos + 8 := rfl
@[simp] theorem replayOnce_ctrl (s : State) : (replayOnce s).ctrl = s.ctrl := rfl
@[simp] theorem replayOnce_litRem (s : State) : (replayOnce s).litRem = s.litRem := rfl
@[simp] theorem replayOnce_repRem (s : State) : (replayOnce s).repRem = s.repRem - 1 := rfl
@[simp] theorem replayOnce_pat (s : State) : (replayOnce s).pat = s.pat := rfl
@[simp] theorem replayOnce_boundsStop (s : State) : (replayOnce s).boundsStop = s.boundsStop := rfl
@[simp] theorem replayOnce_nb (s : State) : (replayOnce s).nb = s.nb := rfl
@[simp] theorem replayOnce_rowCnt (s : State) : (replayOnce s).rowCnt = s.rowCnt := rfl
@[simp] theorem replayOnce_rowbuf (s : State) : (replayOnce s).rowbuf = s.rowbuf := rfl
@[simp] theorem replayOnce_pb (s : State) : (replayOnce s).pb = writeGated s.lim.toNat s.pos.toNat (unpack8 s.pat) s.pb := rfl
@[simp] theorem replayOnce_pbCols (s : State) : (replayOnce s).pbCols = s.pbCols := rfl
@[simp] theorem replayOnce_pbRows (s : State) : (replayOnce s).pbRows = s.pbRows := rfl
@[simp] theorem replayOnce_errCode (s : State) : (replayOnce s).errCode = s.errCode := rfl
@[simp] theorem replayOnce_errOff (s : State) : (replayOnce s).errOff = s.errOff := rfl
@[simp] theorem replayOnce_warnShort (s : State) : (replayOnce s).warnShort = s.warnShort := rfl
@[simp] theorem replayOnce_stream (s : State) : (replayOnce s).stream = s.stream := rfl
@[simp] theorem replayOnce_host (s : State) : (replayOnce s).host = s.host := rfl
@[simp] theorem replayOnce_draws (s : State) : (replayOnce s).draws = s.draws := rfl
@[simp] theorem replayOnce_cfg (s : State) : (replayOnce s).cfg = s.cfg := rfl

/-! ### `hostReset` -/

@[simp] theorem hostReset_st (s : State) : (hostReset s).st = .idle := rfl
@[simp] theorem hostReset_abortShort (s : State) : (hostReset s).abortShort = false := rfl
@[simp] theorem hostReset_hdr (s : State) : (hostReset s).hdr = [] := rfl
@[simp] theorem hostReset_hdrCnt (s : State) : (hostReset s).hdrCnt = 0 := rfl
@[simp] theorem hostReset_off (s : State) : (hostReset s).off = 0 := rfl
@[simp] theorem hostReset_eos (s : State) : (hostReset s).eos = false := rfl
@[simp] theorem hostReset_width (s : State) : (hostReset s).width = 0 := rfl
@[simp] theorem hostReset_height (s : State) : (hostReset s).height = 0 := rfl
@[simp] theorem hostReset_compressed (s : State) : (hostReset s).compressed = false := rfl
@[simp] theorem hostReset_lim (s : State) : (hostReset s).lim = 0 := rfl
@[simp] theorem hostReset_pos (s : State) : (hostReset s).pos = 0 := rfl
@[simp] theorem hostReset_ctrl (s : State) : (hostReset s).ctrl = 0 := rfl
@[simp] theorem hostReset_litRem (s : State) : (hostReset s).litRem = 0 := rfl
@[simp] theorem hostReset_repRem (s : State) : (hostReset s).repRem = 0 := rfl
@[simp] theorem hostReset_pat (s : State) : (hostReset s).pat = 0 := rfl
@[simp] theorem hostReset_boundsStop (s : State) : (hostReset s).boundsStop = false := rfl
@[simp] theorem hostReset_nb (s : State) : (hostReset s).nb = 0 := rfl
@[simp] theorem hostReset_rowCnt (s : State) : (hostReset s).rowCnt = 0 := rfl
@[simp] theorem hostReset_rowbuf (s : State) : (hostReset s).rowbuf = [] := rfl
@[simp] theorem hostReset_pb (s : State) : (hostReset s).pb = [] := rfl
@[simp] theorem hostReset_pbCols (s : State) : (hostReset s).pbCols = 0 := rfl
@[simp] theorem hostReset_pbRows (s : State) : (hostReset s).pbRows = 0 := rfl
@[simp] theorem hostReset_errCode (s : State) : (hostReset s).errCode = .noError := rfl
@[simp] theorem hostReset_errOff (s : State) : (hostReset s).errOff = 0 := rfl
@[simp] theorem hostReset_warnShort (s : State) : (hostReset s).warnShort = false := rfl
@[simp] theorem hostReset_stream (s : State) : (hostReset s).stream = s.stream := rfl
@[simp] theorem hostReset_host (s : State) : (hostReset s).host = s.host := rfl
@[simp] theorem hostReset_draws (s : State) : (hostReset s).draws = s.draws := rfl
@[simp] theorem hostReset_cfg (s : State) : (hostReset s).cfg = s.cfg := rfl

end Sys2Proof.Machine
end

