-- ==== Sys2Proof/Laws/Step.lean ====
section
/-! SUPPORT. What one step can do: the FSM's step by cases on the state, the host's moves, and the equations of `exec`. -/

namespace Sys2Proof.Machine

/-! ### The equations of `exec` -/

theorem exec_hdrByte (b : Byte) (s : State) : exec (.hdrByte b) s = execHdrByte b s := rfl
theorem exec_hdrShort (s : State) : exec .hdrShort s = execHdrShort s := rfl
theorem exec_hdrErr (s : State) : exec .hdrErr s = .next (raise .ioFailure s) := rfl
theorem exec_selRle (w h : Field) (s : State) :
    exec (.selRle w h) s = .next (rleEntry (latchFields w h true s)) := rfl
theorem exec_selRaw (w h : Field) (s : State) :
    exec (.selRaw w h) s = .next (rawEntry (latchFields w h false s)) := rfl
theorem exec_rleLit_ctrl (c : Byte) (s : State) : exec (.rleLit (.ctrl c)) s = withByte s (litStart c) := rfl
theorem exec_rleLit_data (a : Symbol) (s : State) : exec (.rleLit (.data a)) s = onData a litByte s := rfl
theorem exec_rleRep_ctrl (c : Byte) (s : State) : exec (.rleRep (.ctrl c)) s = withByte s (repStart c) := rfl
theorem exec_rleRep_data (a : Symbol) (s : State) : exec (.rleRep (.data a)) s = onData a repByte s := rfl
theorem exec_rleRep_replay (s : State) : exec (.rleRep .replay) s = .next (replayOnce s) := rfl
theorem exec_rleEnd (s : State) : exec .rleEnd s = .next (finish (takeEnd s)) := rfl
theorem exec_rleCtrlErr (s : State) : exec .rleCtrlErr s = .next (raise .ioFailure s) := rfl
theorem exec_rleChk (s : State) : exec .rleChk s = .next (boundCheck s) := rfl
theorem exec_rawByte (b : Byte) (s : State) : exec (.rawByte b) s = execRawByte b s := rfl
theorem exec_rawEnd (s : State) : exec .rawEnd s = execRawEnd s := rfl
theorem exec_rawErr (s : State) : exec .rawErr s = .next (raise .ioFailure s) := rfl

/-- What a run's step does where a data byte is due, whatever the channel answers. -/
theorem onData_eq_next_iff {a : Symbol} {k : Byte → State → State} {s t : State} :
    onData a k s = .next t ↔
      (∃ d, a = .byte d ∧ s.cfg.counterLimit ≠ some s.off ∧ t = k d { s with off := s.off + 1 }) ∨
      (a = .endSym ∧ t = raise .truncatedStream (takeEnd s)) ∨
      (a = .errSym ∧ t = raise .ioFailure s) := by
  cases a with
  | byte d => simp [onData, withByte_eq_next_iff]
  | endSym => simp [onData, eq_comm]
  | errSym => simp [onData, eq_comm]

/-! ### The stream under the host's moves -/

/-- What the channel is given later leaves every byte of the stream where it stands. -/
theorem Stream.byteAt_supply {x : Stream} {k : Nat} {b : Byte} (a : Symbol) (h : x.byteAt k = some b) :
    (x.supply a).byteAt k = some b := by
  cases ht : x.tail with
  | ends t => simpa [Stream.supply, ht] using h
  | forever e => simpa [Stream.supply, ht] using h
  | waiting =>
    have hb : x.bytes[k]? = some b := by
      unfold Stream.byteAt at h
      cases hk : x.bytes[k]? with
      | some c => simpa [hk] using h
      | none => simp [hk, ht] at h
    have hk : k < x.bytes.length := (List.getElem?_eq_some_iff.mp hb).1
    refine Stream.byteAt_of_getElem ?_
    cases a <;> simp [Stream.supply, ht, hb, List.getElem?_append_left hk]

@[simp] theorem Stream.alter_tail (x : Stream) (k : Nat) (b : Byte) : (x.alter k b).tail = x.tail := rfl

/-- Writing bytes of a stream out changes none of them. -/
theorem Stream.byteAt_unroll (x : Stream) (n k : Nat) : ({ x with bytes := x.unroll n } : Stream).byteAt k = x.byteAt k := by
  cases ht : x.tail with
  | waiting => simp [Stream.byteAt, Stream.unroll, ht]
  | ends t => simp [Stream.byteAt, Stream.unroll, ht]
  | forever e =>
    by_cases hk : k < x.bytes.length
    · simp [Stream.byteAt, Stream.unroll, ht, List.getElem?_append_left hk, List.getElem?_eq_getElem hk]
    · have hk' : x.bytes.length ≤ k := by omega
      have hadd : x.bytes.length + (k - x.bytes.length) = k := by omega
      by_cases hn : k - x.bytes.length < n - x.bytes.length
      · simp [Stream.byteAt, Stream.unroll, ht, List.getElem?_append_right hk', hn, hadd, List.getElem?_eq_none hk']
      · have hnone : (List.range (n - x.bytes.length))[k - x.bytes.length]? = none :=
          List.getElem?_eq_none (by simpa using Nat.le_of_not_lt hn)
        simp [Stream.byteAt, Stream.unroll, ht, List.getElem?_append_right hk', hnone, List.getElem?_eq_none hk']

/-- A changed byte stands at its offset if the stream has one there, and no other byte changes (R117). -/
theorem Stream.byteAt_alter (x : Stream) (k : Nat) (b : Byte) (j : Nat) :
    (x.alter k b).byteAt j = if j = k ∧ (x.byteAt k).isSome = true then some b else x.byteAt j := by
  rw [← Stream.byteAt_unroll x (k + 1) j, ← Stream.byteAt_unroll x (k + 1) k]
  have hlen : k < (x.unroll (k + 1)).length ∨ ({ x with bytes := x.unroll (k + 1) } : Stream).byteAt k = none := by
    rw [Stream.byteAt_eq_none_iff]
    cases ht : x.tail with
    | waiting => simp only [reduceCtorEq, not_false_eq_true, implies_true, and_true, ne_eq]; omega
    | ends t => simp only [reduceCtorEq, not_false_eq_true, implies_true, and_true, ne_eq]; omega
    | forever e => left; simp [Stream.unroll, ht]; omega
  by_cases hj : j = k
  · subst hj
    rcases hlen with hl | hn
    · simp [Stream.alter, Stream.byteAt, hl]
    · have hl := (Stream.byteAt_eq_none_iff.mp hn).1
      have hset : (x.unroll (j + 1)).set j b = x.unroll (j + 1) := List.set_eq_of_length_le hl
      simp [Stream.alter, hset, hn]
  · simp [Stream.alter, Stream.byteAt, hj, List.getElem?_set_ne (Ne.symm hj)]

theorem Stream.alter_length (x : Stream) (k : Nat) (b : Byte) (ht : ∀ e, x.tail ≠ .forever e) :
    (x.alter k b).bytes.length = x.bytes.length := by
  cases h : x.tail with
  | waiting => simp [Stream.alter, Stream.unroll, h]
  | ends t => simp [Stream.alter, Stream.unroll, h]
  | forever e => exact absurd h (ht e)

/-! ### The FSM's step -/

theorem fsmStep_terminal {s : State} (h : terminal s.st = true) : fsmStep s = .next s := by simp [fsmStep, h]

theorem fsmStep_hold {s : State} (h : wantsSymbol s.st = true) (hn : nextSymbol s = none) : fsmStep s = .next s := by
  have ht : terminal s.st = false := by cases hs : s.st <;> simp_all [wantsSymbol, terminal]
  simp [fsmStep, ht, fetch, h, hn]

theorem fetch_symbol {s : State} {a : Symbol} (h : wantsSymbol s.st = true) (ha : nextSymbol s = some a) :
    fetch s = some (.symbol a) := by simp [fetch, h, ha]

theorem fsmStep_hdr {s : State} {a : Symbol} (h : s.st = .hdr) (ha : nextSymbol s = some a) :
    fsmStep s = exec (decodeHdr a) s := by
  simp [fsmStep, h, terminal, fetch_symbol (s := s) (by simp [h, wantsSymbol]) ha, runUnit, decode, onSymbol]

theorem fsmStep_dispatch {s : State} (h : s.st = .dispatch) :
    fsmStep s = exec (decodeDispatch (capturedHeader s)) s := by
  simp [fsmStep, h, terminal, fetch, wantsSymbol, runUnit, decode, onHeader, capturedHeader_length]

theorem fsmStep_rleCtrl {s : State} {a : Symbol} (h : s.st = .rleCtrl) (ha : nextSymbol s = some a) :
    fsmStep s = exec (decodeCtrl a) s := by
  simp [fsmStep, h, terminal, fetch_symbol (s := s) (by simp [h, wantsSymbol]) ha, runUnit, decode, onSymbol]

theorem fsmStep_rleLit {s : State} {a : Symbol} (h : s.st = .rleLit) (ha : nextSymbol s = some a) :
    fsmStep s = exec (.rleLit (.data a)) s := by
  simp [fsmStep, h, terminal, fetch_symbol (s := s) (by simp [h, wantsSymbol]) ha, runUnit, decode, onSymbol]

theorem fsmStep_rleRepd {s : State} {a : Symbol} (h : s.st = .rleRepd) (ha : nextSymbol s = some a) :
    fsmStep s = exec (.rleRep (.data a)) s := by
  simp [fsmStep, h, terminal, fetch_symbol (s := s) (by simp [h, wantsSymbol]) ha, runUnit, decode, onSymbol]

theorem fsmStep_rleRepw {s : State} (h : s.st = .rleRepw) : fsmStep s = exec (.rleRep .replay) s := by
  simp [fsmStep, h, terminal, fetch, wantsSymbol, runUnit, decode, onInternal]

theorem fsmStep_rleChk {s : State} (h : s.st = .rleChk) : fsmStep s = exec .rleChk s := by
  simp [fsmStep, h, terminal, fetch, wantsSymbol, runUnit, decode, onInternal]

theorem fsmStep_rawRow {s : State} {a : Symbol} (h : s.st = .rawRow) (ha : nextSymbol s = some a) :
    fsmStep s = exec (decodeRaw a) s := by
  simp [fsmStep, h, terminal, fetch_symbol (s := s) (by simp [h, wantsSymbol]) ha, runUnit, decode, onSymbol]

/-- Everything a step of the FSM can be: no step at all, a hold, or the operation that the state and its code unit select. -/
theorem fsmStep_cases (s : State) :
    (terminal s.st = true ∧ fsmStep s = .next s) ∨
    (wantsSymbol s.st = true ∧ nextSymbol s = none ∧ fsmStep s = .next s) ∨
    (s.st = .hdr ∧ ∃ a, nextSymbol s = some a ∧ fsmStep s = exec (decodeHdr a) s) ∨
    (s.st = .dispatch ∧ fsmStep s = exec (decodeDispatch (capturedHeader s)) s) ∨
    (s.st = .rleCtrl ∧ ∃ a, nextSymbol s = some a ∧ fsmStep s = exec (decodeCtrl a) s) ∨
    (s.st = .rleLit ∧ ∃ a, nextSymbol s = some a ∧ fsmStep s = exec (.rleLit (.data a)) s) ∨
    (s.st = .rleRepd ∧ ∃ a, nextSymbol s = some a ∧ fsmStep s = exec (.rleRep (.data a)) s) ∨
    (s.st = .rleRepw ∧ fsmStep s = exec (.rleRep .replay) s) ∨
    (s.st = .rleChk ∧ fsmStep s = exec .rleChk s) ∨
    (s.st = .rawRow ∧ ∃ a, nextSymbol s = some a ∧ fsmStep s = exec (decodeRaw a) s) := by
  cases hs : s.st with
  | idle => exact .inl ⟨rfl, fsmStep_terminal (by simp [hs, terminal])⟩
  | done => exact .inl ⟨rfl, fsmStep_terminal (by simp [hs, terminal])⟩
  | err => exact .inl ⟨rfl, fsmStep_terminal (by simp [hs, terminal])⟩
  | dispatch => simp [fsmStep_dispatch hs, terminal, wantsSymbol]
  | rleRepw => simp [fsmStep_rleRepw hs, terminal, wantsSymbol]
  | rleChk => simp [fsmStep_rleChk hs, terminal, wantsSymbol]
  | hdr =>
    cases ha : nextSymbol s with
    | none => exact .inr (.inl ⟨rfl, rfl, fsmStep_hold (by simp [hs, wantsSymbol]) ha⟩)
    | some a => simp [fsmStep_hdr hs ha, terminal]
  | rleCtrl =>
    cases ha : nextSymbol s with
    | none => exact .inr (.inl ⟨rfl, rfl, fsmStep_hold (by simp [hs, wantsSymbol]) ha⟩)
    | some a => simp [fsmStep_rleCtrl hs ha, terminal]
  | rleLit =>
    cases ha : nextSymbol s with
    | none => exact .inr (.inl ⟨rfl, rfl, fsmStep_hold (by simp [hs, wantsSymbol]) ha⟩)
    | some a => simp [fsmStep_rleLit hs ha, terminal]
  | rleRepd =>
    cases ha : nextSymbol s with
    | none => exact .inr (.inl ⟨rfl, rfl, fsmStep_hold (by simp [hs, wantsSymbol]) ha⟩)
    | some a => simp [fsmStep_rleRepd hs ha, terminal]
  | rawRow =>
    cases ha : nextSymbol s with
    | none => exact .inr (.inl ⟨rfl, rfl, fsmStep_hold (by simp [hs, wantsSymbol]) ha⟩)
    | some a => simp [fsmStep_rawRow hs ha, terminal]

/-! ### The machine's step -/

theorem step_fsm {s : State} (h : s.host = []) : step s = fsmStep s := by simp [step, advance, h]

theorem step_host {s : State} {e : HostEvent} {rest : List HostEvent} (h : s.host = e :: rest) :
    step s = hostMove e { s with host := rest } := by simp [step, advance, h]

/-- A step is the FSM's when no move is pending, and the first pending move otherwise. -/
theorem step_cases (s : State) :
    (s.host = [] ∧ step s = fsmStep s) ∨
    (∃ e rest, s.host = e :: rest ∧ step s = hostMove e { s with host := rest }) := by
  cases h : s.host with
  | nil => exact .inl ⟨rfl, step_fsm h⟩
  | cons e rest => exact .inr ⟨e, rest, rfl, step_host h⟩

end Sys2Proof.Machine
end

