-- ==== Sys2Proof/Laws/Safety.lean ====
section
/-! SUPPORT. Everything `exec` can do, operation by operation; the two shared operations that branch; the invariant's first clause
field by field; and how many steps compose. -/

namespace Sys2Proof.Machine

/-! ### The operations that branch -/

theorem rawEntry_zero {s : State} (h : s.width = 0) : rawEntry s = raise .zeroWidth s := by
  unfold rawEntry
  exact if_pos h

theorem rawEntry_pos {s : State} (h : s.width ≠ 0) : rawEntry s =
    { s with nb := rowLength s.width, rowCnt := 0, pbCols := s.width, pbRows := 0, st := .rawRow } := by
  unfold rawEntry
  exact if_neg h

theorem boundCheck_zero {s : State} (h : s.width = 0) : boundCheck s = raise .zeroWidth s := by
  unfold boundCheck
  exact if_pos h

theorem boundCheck_stop {s : State} (h : s.width ≠ 0) (hp : s.lim.toNat ≤ s.pos.toNat) :
    boundCheck s = finish { s with boundsStop := true } := by
  unfold boundCheck
  rw [if_neg h, if_pos (by simpa [pastLimit] using hp)]

theorem boundCheck_goOn {s : State} (h : s.width ≠ 0) (hp : s.pos.toNat < s.lim.toNat) :
    boundCheck s = { s with st := .rleCtrl } := by
  unfold boundCheck
  rw [if_neg h, if_neg (by simpa [pastLimit] using hp)]

/-- A captured row byte that does not fill its row, and one that does (R79). -/
theorem execRawByte_eq_next_iff {b : Byte} {s t : State} :
    execRawByte b s = .next t ↔ s.cfg.counterLimit ≠ some s.off ∧
      t = if rowFull (s.rowCnt + 1) s.nb then commitRow (captureRowByte b { s with off := s.off + 1 })
          else captureRowByte b { s with off := s.off + 1 } := by
  simp only [execRawByte, withByte_eq_next_iff, captureRowByte_rowCnt, captureRowByte_nb, ne_eq]
  exact Iff.rfl

/-! ### Everything an operation can do -/

/-- The next state of every operation: if `exec i s` answers `next t`, one of these holds, guards included. -/
theorem exec_next_cases {i : Instr} {s t : State} (h : exec i s = .next t) :
    (∃ b, i = .hdrByte b ∧ t = { s with
      off := s.off + 1, hdr := Memory.write s.hdr s.hdrCnt.toNat b, hdrCnt := s.hdrCnt + 1,
      st := if hdrFull (s.hdrCnt + 1) then .dispatch else .hdr }) ∨
    (i = .hdrShort ∧ s.abortShort = true ∧ t = raise .headerTooShort (takeEnd s)) ∨
    (i = .hdrShort ∧ s.abortShort = false ∧ t = { drawMissing (takeEnd s) with warnShort := true, st := .dispatch }) ∨
    ((i = .hdrErr ∨ i = .rleCtrlErr ∨ i = .rawErr ∨ i = .rleLit (.data .errSym) ∨ i = .rleRep (.data .errSym)) ∧
      t = raise .ioFailure s) ∨
    (∃ w x, i = .selRle w x ∧ t = rleEntry (latchFields w x true s)) ∨
    (∃ w x, i = .selRaw w x ∧ t = rawEntry (latchFields w x false s)) ∨
    (∃ c, i = .rleLit (.ctrl c) ∧ t = litStart c { s with off := s.off + 1 }) ∨
    (∃ d, i = .rleLit (.data (.byte d)) ∧ t = litByte d { s with off := s.off + 1 }) ∨
    ((i = .rleLit (.data .endSym) ∨ i = .rleRep (.data .endSym)) ∧ t = raise .truncatedStream (takeEnd s)) ∨
    (∃ c, i = .rleRep (.ctrl c) ∧ t = repStart c { s with off := s.off + 1 }) ∨
    (∃ d, i = .rleRep (.data (.byte d)) ∧ t = repByte d { s with off := s.off + 1 }) ∨
    (i = .rleRep .replay ∧ t = replayOnce s) ∨
    (i = .rleEnd ∧ t = finish (takeEnd s)) ∨
    (i = .rleChk ∧ t = boundCheck s) ∨
    (∃ b, i = .rawByte b ∧ t =
      if rowFull (s.rowCnt + 1) s.nb then commitRow (captureRowByte b { s with off := s.off + 1 })
      else captureRowByte b { s with off := s.off + 1 }) ∨
    (i = .rawEnd ∧ t = finish { takeEnd s with rowbuf := Memory.clearBelow s.rowbuf s.nb.toNat, rowCnt := 0 }) := by
  cases i with
  | hdrByte b => simp only [exec, execHdrByte, withByte_eq_next_iff] at h; simp [h.2]
  | hdrShort => simp only [exec, execHdrShort] at h; split at h <;> simp_all
  | hdrErr => simp_all [exec, execHdrErr]
  | selRle w x => simp_all [exec, execSelRle]
  | selRaw w x => simp_all [exec, execSelRaw]
  | rleLit p =>
    cases p with
    | ctrl c => simp only [exec, execRleLit, withByte_eq_next_iff] at h; simp [h.2]
    | data a => cases a <;> simp_all [exec, execRleLit, onData, withByte_eq_next_iff]
  | rleRep p =>
    cases p with
    | ctrl c => simp only [exec, execRleRep, withByte_eq_next_iff] at h; simp [h.2]
    | data a => cases a <;> simp_all [exec, execRleRep, onData, withByte_eq_next_iff]
    | replay => simp_all [exec, execRleRep]
  | rleEnd => simp_all [exec, execRleEnd]
  | rleCtrlErr => simp_all [exec, execRleCtrlErr]
  | rleChk => simp_all [exec, execRleChk]
  | rawByte b =>
    simp only [exec_rawByte, execRawByte_eq_next_iff] at h
    obtain ⟨-, rfl⟩ := h
    iterate 14 right
    exact .inl ⟨b, rfl, rfl⟩
  | rawEnd => simp_all [exec, execRawEnd]
  | rawErr => simp_all [exec, execRawErr]

/-! ### The invariant -/

/-- Every register of the paths, and every error register, is at its reset value. -/
abbrev Blank (s : State) : Prop :=
  s.width = 0 ∧ s.height = 0 ∧ s.compressed = false ∧ NoRleRegs s ∧ s.boundsStop = false ∧ s.nb = 0 ∧ NoRawRegs s ∧
  s.errCode = .noError ∧ s.errOff = 0

/-- `FreshInv`, field by field. -/
theorem freshInv_iff (s : State) : FreshInv s ↔
    (s.st = .idle → Blank s ∧ s.abortShort = false ∧ s.hdr = [] ∧ s.hdrCnt = 0 ∧ s.off = 0 ∧ s.eos = false ∧
      s.warnShort = false) ∧
    (s.st = .hdr → Blank s ∧ s.eos = false ∧ s.warnShort = false) ∧
    (s.st = .dispatch → Blank s) := by
  cases s
  simp [FreshInv, hostReset, State.reset, Blank, NoRleRegs, NoRawRegs]
  grind

/-- The invariant does not depend on the host's pending moves. -/
theorem Inv.withHost {s : State} (h : Inv s) (r : List HostEvent) : Inv { s with host := r } := by
  obtain ⟨h1, h2, h3, h4, h5, h6, h7, h8, h9, h10⟩ := h
  rw [freshInv_iff] at h1
  exact ⟨(freshInv_iff _).mpr h1, h2, h3, h4, h5, h6, h7, h8, h9, h10⟩

/-- Nor on the count of draws. -/
theorem Inv.withDraws {s : State} (h : Inv s) (r : Nat) : Inv { s with draws := r } := by
  obtain ⟨h1, h2, h3, h4, h5, h6, h7, h8, h9, h10⟩ := h
  rw [freshInv_iff] at h1
  exact ⟨(freshInv_iff _).mpr h1, h2, h3, h4, h5, h6, h7, h8, h9, h10⟩

/-! ### Many steps -/

@[simp] theorem run_zero (s : State) : run 0 s = .next s := rfl

theorem run_succ (n : Nat) (s : State) :
    run (n + 1) s = match step s with
      | .next t => run n t
      | .fault f => .fault f
      | .refused r => .refused r := rfl

theorem run_succ_of_next {n : Nat} {s t : State} (h : step s = .next t) : run (n + 1) s = run n t := by
  rw [run_succ, h]

/-- Two runs in a row are one. -/
theorem run_add {m n : Nat} {s t : State} (h : run m s = .next t) : run (m + n) s = run n t := by
  induction m generalizing s with
  | zero => cases h; rw [Nat.zero_add]
  | succ k ih =>
    rw [run_succ] at h
    cases hs : step s with
    | next u => rw [hs] at h; rw [Nat.succ_add, run_succ_of_next hs]; exact ih h
    | fault f => rw [hs] at h; cases h
    | refused r => rw [hs] at h; cases h

/-! ### Several instances -/

/-- Every block of a platform draws from a sequence of its own (log 17). -/
theorem platform_drawSource {n k : Nat} {s : State} (h : (platform n)[k]? = some s) : s.cfg.drawSource = k := by
  simp only [platform, List.getElem?_map, Option.map_eq_some_iff] at h
  obtain ⟨j, hj, rfl⟩ := h
  have := (List.getElem?_eq_some_iff.mp hj).2
  simp at this
  exact this.symm

end Sys2Proof.Machine
end

