-- ==== Sys2Proof/Tests/Slice0.lean ====
section
/-! SUPPORT. Tests of the model: ill-formed terms, words written out from 30_encoding.md, single steps from the rules' examples and
from 95_test_vectors.md, and for each statement a witness that meets its hypotheses. -/

namespace Sys2Proof.Tests

open Sys2Proof.Machine

/-! ### Ill-formed instructions -/

theorem test_wf_refuses_repeat_byte_as_literal : (Instr.rleLit (.ctrl 0x80)).wf = false := by decide
theorem test_wf_refuses_literal_byte_as_repeat : (Instr.rleRep (.ctrl 0x7F)).wf = false := by decide

/-! ### Decoding: one word for each constructor (opcode_table.json; R59, R60, R67, R70) -/

/-- `HDR w=8, h=1, flag=…`, the bytes written out (95_test_vectors.md, Conventions). -/
def headerWord (flag : Byte) : List Byte :=
  List.replicate 34 0x00 ++ [0x08, 0x00, 0x01, 0x00, 0x00, flag] ++ List.replicate 24 0x00

theorem test_decode_hdrByte : decode .hdr (.symbol (.byte 0x53)) = .ok (.hdrByte 0x53) := by decide
theorem test_decode_hdrShort : decode .hdr (.symbol .endSym) = .ok .hdrShort := by decide
theorem test_decode_hdrErr : decode .hdr (.symbol .errSym) = .ok .hdrErr := by decide
theorem test_decode_selRle : decode .dispatch (.header (headerWord 0x80)) = .ok (.selRle 8 1) := by decide
theorem test_decode_selRaw : decode .dispatch (.header (headerWord 0x7F)) = .ok (.selRaw 8 1) := by decide
theorem test_decode_rleLit : decode .rleCtrl (.symbol (.byte 0x7F)) = .ok (.rleLit (.ctrl 0x7F)) := by decide
theorem test_decode_rleLit_data : decode .rleLit (.symbol (.byte 0xFF)) = .ok (.rleLit (.data (.byte 0xFF))) := by decide
theorem test_decode_rleRep : decode .rleCtrl (.symbol (.byte 0x80)) = .ok (.rleRep (.ctrl 0x80)) := by decide
theorem test_decode_rleRep_data : decode .rleRepd (.symbol (.byte 0x0F)) = .ok (.rleRep (.data (.byte 0x0F))) := by decide
theorem test_decode_rleRep_replay : decode .rleRepw .internal = .ok (.rleRep .replay) := by decide
theorem test_decode_rleEnd : decode .rleCtrl (.symbol .endSym) = .ok .rleEnd := by decide
theorem test_decode_rleCtrlErr : decode .rleCtrl (.symbol .errSym) = .ok .rleCtrlErr := by decide
theorem test_decode_rleChk : decode .rleChk .internal = .ok .rleChk := by decide
theorem test_decode_rawByte : decode .rawRow (.symbol (.byte 0xAA)) = .ok (.rawByte 0xAA) := by decide
theorem test_decode_rawEnd : decode .rawRow (.symbol .endSym) = .ok .rawEnd := by decide
theorem test_decode_rawErr : decode .rawRow (.symbol .errSym) = .ok .rawErr := by decide
theorem test_decode_terminal : decode .done (.symbol (.byte 0x00)) = .error .terminalState := by decide

/-- The header record of R84's example as one number, byte 0 lowest: bytes 34 to 39 are `10 00 02 00 00 80`. -/
def sampleHeaderNumber : Nat := 0x80000002001000000000000000000000000000000000000000000000000000000000000000000000

theorem test_tableWord_header : decodeTableWord 512 sampleHeaderNumber = some (.selRle 16 2) := by decide
theorem test_tableWord_control : decodeTableWord 16 0x3CFE = some (.rleRep (.ctrl 0xFE)) := by decide

/-! ### Single steps -/

/-- The outcome is a next state with the property `p`. -/
def after (r : Result) (p : State → Bool) : Bool :=
  match r with
  | .next t => p t
  | .fault _ => false
  | .refused _ => false

theorem test_fetchWord_header :
    after (step (State.reset.withFetchWord 512 sampleHeaderNumber))
      (fun t => decide (t.width = 16 ∧ t.lim = 32 ∧ t.pbRows = 3 ∧ t.st = .rleCtrl)) = true := by decide

theorem test_fetchWord_control :
    after (step (State.reset.withFetchWord 16 0x3CFE)) (fun t => decide (t.repRem = 3 ∧ t.st = .rleRepd)) = true := by decide

/-- `n` header entries 0 captured. -/
def zeros (n : Nat) : Memory Byte := (List.range n).map (fun i => (i, 0x00))

/-- Waiting for header byte `n` of a stream of zero bytes; `more` are the bytes after the first `n`. -/
def inHeader (n : Nat) (more : List Byte) (tail : Tail) : State :=
  { State.reset with
    st := .hdr, hdr := zeros n, hdrCnt := BitVec.ofNat 7 n, off := n
    stream := { bytes := List.replicate n 0x00 ++ more, tail := tail } }

/-- At an RLE control byte, 64 header bytes consumed, `more` to come. -/
def atCtrl (w h : Field) (more : List Byte) (tail : Tail) : State :=
  { State.reset with
    st := .rleCtrl, hdr := zeros 64, hdrCnt := 64, off := 64
    width := w, height := h, compressed := true, lim := pixelCount w h, pbCols := w, pbRows := h.toNat + 1
    stream := { bytes := List.replicate 64 0x00 ++ more, tail := tail } }

/-- At the first byte of a raw row, 64 header bytes consumed, `more` to come. -/
def atRow (w h : Field) (more : List Byte) (tail : Tail) : State :=
  { State.reset with
    st := .rawRow, hdr := zeros 64, hdrCnt := 64, off := 64
    width := w, height := h, nb := rowLength w, pbCols := w
    stream := { bytes := List.replicate 64 0x00 ++ more, tail := tail } }

/-- R72's example. -/
theorem test_hdrByte_example :
    after (step (inHeader 34 [0x08] .waiting))
      (fun t => decide (Memory.read t.hdr 34 = some 0x08 ∧ t.hdrCnt = 35 ∧ t.off = 35 ∧ t.st = .hdr)) = true := by decide
/-- R72: the 64th byte moves to DISPATCH. -/
theorem test_hdrByte_last :
    after (step (inHeader 63 [0x08] .waiting)) (fun t => decide (t.hdrCnt = 64 ∧ t.st = .dispatch)) = true := by decide
/-- R73's example, vector H4. -/
theorem test_hdrShort_abort :
    after (step { inHeader 10 [] (.ends .endMark) with abortShort := true })
      (fun t => decide (t.st = .err ∧ t.errCode = .headerTooShort ∧ t.errOff = 10 ∧ t.eos = true ∧ t.warnShort = false)) = true := by
  decide
/-- Vector H6, its short-header step: 24 bytes are drawn. -/
theorem test_hdrShort_warn :
    after (step (inHeader 40 [] (.ends .endMark)))
      (fun t => decide (t.st = .dispatch ∧ t.warnShort = true ∧ t.draws = 24 ∧ t.hdrCnt = 40 ∧
        Memory.read t.hdr 39 = some 0x00 ∧ (Memory.read t.hdr 63).isSome = true)) = true := by decide
/-- R74's example, vector H9. -/
theorem test_hdrErr_example :
    after (step (inHeader 5 [] (.ends .errMark)))
      (fun t => decide (t.st = .err ∧ t.errCode = .ioFailure ∧ t.errOff = 5 ∧ t.eos = false)) = true := by decide

/-- R84's example. -/
theorem test_selRle_example :
    after (exec (.selRle 16 2) State.reset)
      (fun t => decide (t.lim = 32 ∧ t.pbCols = 16 ∧ t.pbRows = 3 ∧ t.st = .rleCtrl ∧ t.compressed = true)) = true := by decide
/-- Vector H2: the largest image. -/
theorem test_selRle_largest :
    after (exec (.selRle 0xFFFF 0xFFFF) State.reset) (fun t => decide (t.lim = 4294836225 ∧ t.pbRows = 65536)) = true := by decide
/-- R78's example. -/
theorem test_selRaw_example :
    after (exec (.selRaw 10 7) State.reset)
      (fun t => decide (t.nb = 2 ∧ t.pbCols = 10 ∧ t.pbRows = 0 ∧ t.st = .rawRow)) = true := by decide
/-- Vector X6. -/
theorem test_selRaw_zeroWidth :
    after (exec (.selRaw 0 1) { State.reset with off := 64 })
      (fun t => decide (t.st = .err ∧ t.errCode = .zeroWidth ∧ t.errOff = 64)) = true := by decide

/-- R87, vector C3. -/
theorem test_rleLit_ctrl :
    after (step (atCtrl 8 1 [0x7F] .waiting)) (fun t => decide (t.litRem = 128 ∧ t.ctrl = 0x7F ∧ t.off = 65 ∧ t.st = .rleLit)) = true := by
  decide
/-- Vector R10, its data byte `E0`: cells 0 to 5 are `111000`, cells 6 and 7 are dropped. -/
theorem test_rleLit_data :
    after (step { atCtrl 3 2 [0xE0] .waiting with st := .rleLit, litRem := 1 })
      (fun t => decide ((List.range 8).map (Memory.read t.pb)
        = [some true, some true, some true, some false, some false, some false, none, none] ∧
        t.pos = 8 ∧ t.st = .rleChk)) = true := by decide
/-- R87's example, vector C6. -/
theorem test_rleRep_ctrl :
    after (step (atCtrl 8 1 [0xFE] .waiting)) (fun t => decide (t.repRem = 3 ∧ t.off = 65 ∧ t.st = .rleRepd)) = true := by decide
/-- Vector R4, one replay of `3C`. -/
theorem test_rleRep_replay :
    after (step { atCtrl 8 100 [] .waiting with st := .rleRepw, repRem := 3, pat := 0x3C })
      (fun t => decide ((List.range 9).map (Memory.read t.pb)
        = [some false, some false, some true, some true, some true, some true, some false, some false, none] ∧
        t.pos = 8 ∧ t.repRem = 2 ∧ t.st = .rleRepw ∧ t.off = 64)) = true := by decide
/-- Vector R5. -/
theorem test_rleEnd :
    after (step (atCtrl 8 4 [] (.ends .endMark)))
      (fun t => decide (t.st = .done ∧ t.eos = true ∧ t.boundsStop = false ∧ t.pbRows = 5 ∧ t.pb = [])) = true := by decide
/-- Vector R6, R89's example. -/
theorem test_rleCtrlErr :
    after (step (atCtrl 8 4 [] (.ends .errMark)))
      (fun t => decide (t.st = .err ∧ t.errCode = .ioFailure ∧ t.errOff = 64)) = true := by decide
/-- Vector R15: 8 < 16 goes on, 16 ≥ 16 stops. -/
theorem test_rleChk_limit :
    (after (step { atCtrl 16 1 [] .waiting with st := .rleChk, pos := 8 }) (fun t => decide (t.st = .rleCtrl ∧ t.boundsStop = false)) &&
      after (step { atCtrl 16 1 [] .waiting with st := .rleChk, pos := 16 }) (fun t => decide (t.st = .done ∧ t.boundsStop = true)))
      = true := by decide
/-- Vector R12. -/
theorem test_rleChk_zeroWidth :
    after (step { atCtrl 0 5 [] .waiting with st := .rleChk, pos := 8, off := 66 })
      (fun t => decide (t.st = .err ∧ t.errCode = .zeroWidth ∧ t.errOff = 66)) = true := by decide

/-- R79's example, its second byte `C0`: cells 0 to 9 are white. -/
theorem test_rawByte_commit :
    after (exec (.rawByte 0xC0) { atRow 10 1 [] .waiting with rowCnt := 1, rowbuf := [(0, 0xFF)] })
      (fun t => decide (t.pb = (List.range 10).map (fun i => (i, true)) ∧ t.pbRows = 1 ∧ t.rowCnt = 0 ∧ t.rowbuf = [])) = true := by
  decide
/-- Vector X1, its first byte: nothing is written before the row is full. -/
theorem test_rawByte_hold :
    after (step (atRow 16 1 [0x12] .waiting))
      (fun t => decide (t.rowbuf = [(0, 0x12)] ∧ t.rowCnt = 1 ∧ t.pb = [] ∧ t.off = 65 ∧ t.st = .rawRow)) = true := by decide
/-- Vector X2, its end: the partial row `00` is discarded. -/
theorem test_rawEnd_partial :
    after (step { atRow 10 1 [] (.ends .endMark) with rowCnt := 1, rowbuf := [(0, 0x00)] })
      (fun t => decide (t.st = .done ∧ t.rowCnt = 0 ∧ t.rowbuf = [] ∧ t.eos = true)) = true := by decide
/-- Vector X4: the byte `FF` stays in `rowbuf`. -/
theorem test_rawErr_example :
    after (step { atRow 16 1 [0xFF] (.ends .errMark) with off := 65, rowCnt := 1, rowbuf := [(0, 0xFF)] })
      (fun t => decide (t.st = .err ∧ t.errCode = .ioFailure ∧ t.errOff = 65 ∧ t.rowbuf = [(0, 0xFF)])) = true := by decide

/-- R71's example: `FILL 130, 0xFF` is `81 FF FF FF`. -/
theorem test_fill_example : lineBytes (.fill 130 0xFF) = some [0x81, 0xFF, 0xFF, 0xFF] := by decide
/-- R70: a short header and its terminator. -/
theorem test_assemble_shortHeader :
    assemble 0 [.hdrShort 36 4660 1 0x00, .endLine]
      = some { bytes := List.replicate 34 0x00 ++ [0x34, 0x12], tail := .ends .endMark } := by decide
/-- Vector S3: `start` while busy is ignored. -/
theorem test_start_busy :
    after (step { inHeader 10 [0x00] .waiting with host := [.start true { bytes := [], tail := .waiting }] })
      (fun t => decide (t = inHeader 10 [0x00] .waiting)) = true := by decide

/-! ### Witnesses: states and operands that meet the hypotheses of the statements, at the boundary values of their clauses -/

theorem witness_DecodeEncodeRoundTrip :
    (Instr.rleLit (.ctrl 0x7F)).wf = true ∧ (Instr.rleRep (.ctrl 0x80)).wf = true ∧ (Instr.selRaw 0xFFFF 0).wf = true := by decide

theorem witness_DecodedBelongsToItsState :
    decode .rleCtrl (.symbol (.byte 0x80)) = .ok (.rleRep (.ctrl 0x80)) ∧ Fsm.rleCtrl ≠ .dispatch ∧
    decode .dispatch (.header (headerWord 0xFF)) = .ok (.selRle 8 1) := by decide

/-- A header that differs from `headerWord 0x80` outside bytes 34 to 37 and bit 7 of byte 39. -/
def otherHeader : List Byte :=
  List.replicate 34 0x53 ++ [0x08, 0x00, 0x01, 0x00, 0x11, 0xFF] ++ List.replicate 24 0x80

theorem witness_HeaderFieldsExtracted :
    (headerWord 0x80).length = 64 ∧ otherHeader.length = 64 ∧
    (∀ k, 34 ≤ k → k ≤ 37 → otherHeader.getD k 0 = (headerWord 0x80).getD k 0) ∧
    (otherHeader.getD 39 0).getLsbD 7 = ((headerWord 0x80).getD 39 0).getLsbD 7 := by
  refine ⟨by decide, by decide, fun k h1 h2 => ?_, by decide⟩
  obtain rfl | rfl | rfl | rfl : k = 34 ∨ k = 35 ∨ k = 36 ∨ k = 37 := by omega
  all_goals decide

theorem witness_StepRunsDecodedInstruction_internal :
    ({ atCtrl 8 1 [] .waiting with st := .rleChk } : State).host = [] ∧
    fetch { atCtrl 8 1 [] .waiting with st := .rleChk } = some .internal ∧ decode .rleChk .internal = .ok .rleChk := by decide
theorem witness_StepRunsDecodedInstruction_byte :
    (atCtrl 8 1 [0x80] .waiting).host = [] ∧ wantsSymbol (atCtrl 8 1 [0x80] .waiting).st = true ∧ (atCtrl 8 1 [0x80] .waiting).eos = false ∧
    (atCtrl 8 1 [0x80] .waiting).stream.bytes[(atCtrl 8 1 [0x80] .waiting).off]? = some 0x80 ∧
    decode (atCtrl 8 1 [0x80] .waiting).st (.symbol (.byte 0x80)) = .ok (.rleRep (.ctrl 0x80)) := by decide
theorem witness_StepRunsDecodedInstruction_end :
    ({ atCtrl 8 1 [] .waiting with eos := true } : State).eos = true ∧
    wantsSymbol ({ atCtrl 8 1 [] .waiting with eos := true } : State).st = true ∧
    decode .rleCtrl (.symbol .endSym) = .ok .rleEnd := by decide

theorem witness_TerminalAndHoldChangeNothing :
    (State.reset.host = [] ∧ terminal State.reset.st = true) ∧
    ((atCtrl 8 1 [] .waiting).host = [] ∧ wantsSymbol (atCtrl 8 1 [] .waiting).st = true ∧ (atCtrl 8 1 [] .waiting).eos = false ∧
      (atCtrl 8 1 [] .waiting).stream.bytes.length ≤ (atCtrl 8 1 [] .waiting).off ∧ (atCtrl 8 1 [] .waiting).stream.tail = .waiting) := by decide

theorem witness_TerminalLeftOnlyByStartOrReset :
    ∃ s t : State, (s.st = .idle ∨ s.st = .done ∨ s.st = .err) ∧ step s = .next t ∧
      (∀ rest, s.host ≠ .reset :: rest) ∧ (∀ a x rest, s.host ≠ .start a x :: rest) :=
  ⟨{ State.reset with st := .done, host := [.supply .endSym] },
   { State.reset with st := .done, stream := { bytes := [], tail := .ends .endMark } }, .inr (.inl rfl), rfl,
   fun _ h => (nomatch h), fun _ _ _ h => (nomatch h)⟩

theorem witness_RefusedOnlyAtCounterLimit :
    step State.reset = .next State.reset ∧
    step { atCtrl 8 1 [0x00] .waiting with cfg := { State.reset.cfg with counterLimit := some 64 } } = .refused .counterLimit := ⟨rfl, rfl⟩

theorem witness_CounterLimitRefusesTheNextByte :
    let s : State := { atCtrl 8 1 [0x00] .waiting with cfg := { State.reset.cfg with counterLimit := some 64 } }
    s.host = [] ∧ wantsSymbol s.st = true ∧ s.eos = false ∧ s.stream.byteAt (s.off) = some 0x00 ∧
    s.cfg.counterLimit = some s.off := by decide

theorem witness_HdrByteCapturesTheByte :
    ByteAllowed (inHeader 63 [] .waiting) ∧ (inHeader 63 [] .waiting).hdrCnt.toNat + 1 = 64 ∧
    ByteAllowed { inHeader 0 [] .waiting with cfg := { State.reset.cfg with counterLimit := some 1 } } := by decide

theorem witness_HdrShortAbortsOrWarns :
    ({ inHeader 0 [] .waiting with abortShort := true } : State).abortShort = true ∧ (inHeader 63 [] .waiting).abortShort = false := by decide

theorem witness_ShortHeaderKeepsReceivedFields :
    let s : State := inHeader 40 [] (.ends .endMark)
    s.host = [] ∧ s.st = .hdr ∧ s.abortShort = false ∧ nextSymbol s = some .endSym ∧ 40 ≤ s.hdrCnt.toNat ∧ s.hdrCnt.toNat ≤ 63 ∧
    ∀ i < s.hdrCnt.toNat, Memory.read s.hdr i = some ((fun _ => 0x00) i) := by decide

theorem witness_ReadErrorsRaiseIoFailure : Instr.rawErr ∈ [Instr.hdrErr, Instr.rawErr, Instr.rleCtrlErr] := by decide

theorem witness_SelRawEntersRawPath : (0 : Field) = 0 ∧ (1 : Field) ≠ 0 ∧ (0xFFFF : Field) ≠ 0 := by decide

theorem witness_DispatchLatchesCapturedHeader :
    let s : State := { inHeader 0 [] .waiting with st := .dispatch, hdr := Memory.write (zeros 64) 39 0x80, hdrCnt := 64 }
    s.host = [] ∧ s.st = .dispatch ∧ Memory.read s.hdr 34 = some 0x00 ∧ Memory.read s.hdr 35 = some 0x00 ∧
    Memory.read s.hdr 36 = some 0x00 ∧ Memory.read s.hdr 37 = some 0x00 ∧ Memory.read s.hdr 39 = some 0x80 := by decide

theorem witness_ControlByteStartsRun :
    ByteAllowed (atCtrl 8 1 [] .waiting) ∧ (0x7F : Byte).toNat < 128 ∧ 128 ≤ (0x80 : Byte).toNat := by decide

theorem witness_LiteralRunStep :
    ByteAllowed { atCtrl 3 2 [] .waiting with st := .rleLit, litRem := 1, cfg := { State.reset.cfg with counterLimit := some 65 } } := by decide

theorem witness_RepeatRunDataByte : ByteAllowed { atCtrl 8 1 [] .waiting with st := .rleRepd, repRem := 2 } := by decide

theorem witness_BoundCheckDecides :
    (atCtrl 0 5 [] .waiting).width = 0 ∧
    ((atCtrl 16 1 [] .waiting).width ≠ 0 ∧
      (atCtrl 16 1 [] .waiting).lim.toNat ≤ ({ atCtrl 16 1 [] .waiting with pos := 16 } : State).pos.toNat ∧
      ({ atCtrl 16 1 [] .waiting with pos := 15 } : State).pos.toNat < (atCtrl 16 1 [] .waiting).lim.toNat) ∧
    ((atCtrl 8 0 [] .waiting).width ≠ 0 ∧ (atCtrl 8 0 [] .waiting).lim.toNat ≤ (atCtrl 8 0 [] .waiting).pos.toNat) := by decide

theorem witness_BoundCheckIsTheSourcesDivision :
    (atCtrl 3 2 [] .waiting).width ≠ 0 ∧
    (atCtrl 3 2 [] .waiting).lim = pixelCount (atCtrl 3 2 [] .waiting).width (atCtrl 3 2 [] .waiting).height := by decide

theorem witness_NoCellAtOrPastLimWritten :
    exec (.rleRep .replay) (atCtrl 3 2 [] .waiting) = .next (replayOnce (atCtrl 3 2 [] .waiting)) ∧
    (atCtrl 3 2 [] .waiting).lim.toNat ≤ 6 := ⟨rfl, by decide⟩

/-- Vector R1's stream after its header: the longest literal block. -/
abbrev longestLiteral : State := atCtrl 8 200 (0x7F :: List.replicate 128 0x0F) .waiting

set_option maxRecDepth 8000 in
theorem inv_longestLiteral : Inv longestLiteral :=
  ⟨by decide, by decide, by decide, by decide, by decide, by decide, by decide, by decide, by decide, by decide⟩

theorem witness_LiteralBlockEffect :
    Inv longestLiteral ∧ Undisturbed longestLiteral ∧ longestLiteral.st = .rleCtrl ∧ longestLiteral.eos = false ∧
    (0x7F : Byte).toNat < 128 ∧ longestLiteral.stream.byteAt (longestLiteral.off) = some 0x7F ∧
    ∀ k ≤ (0x7F : Byte).toNat, longestLiteral.stream.byteAt (longestLiteral.off + 1 + k) = some ((fun _ => 0x0F) k) :=
  ⟨inv_longestLiteral, by decide⟩

/-- Vector R2: the longest repeat block. -/
abbrev longestRepeat : State := atCtrl 8 200 [0x80, 0x0F] (.ends .endMark)

theorem inv_longestRepeat : Inv longestRepeat :=
  ⟨by decide, by decide, by decide, by decide, by decide, by decide, by decide, by decide, by decide, by decide⟩

theorem witness_RepeatBlockEffect :
    Inv longestRepeat ∧ Undisturbed longestRepeat ∧ longestRepeat.st = .rleCtrl ∧ longestRepeat.eos = false ∧
    128 ≤ (0x80 : Byte).toNat ∧ longestRepeat.stream.byteAt (longestRepeat.off) = some 0x80 ∧
    longestRepeat.stream.byteAt (longestRepeat.off + 1) = some 0x0F := ⟨inv_longestRepeat, by decide⟩

theorem witness_BlockFunctionRefined : longestRepeat.host = [] ∧ longestRepeat.st = .rleCtrl := by decide

theorem witness_RawByteHoldsOrCommits_hold :
    let s : State := { atRow 0xFFFF 1 [] .waiting with rowCnt := 8190 }
    ByteAllowed s ∧ s.rowCnt.toNat ≤ 8191 ∧ s.rowCnt.toNat + 1 ≠ s.nb.toNat := by decide
theorem witness_RawByteHoldsOrCommits_commit :
    let s : State := { atRow 10 1 [] .waiting with rowCnt := 1, rowbuf := [(0, 0xFF)] }
    let r : Nat → Byte := fun j => if j = 0 then 0xFF else 0xC0
    ByteAllowed s ∧ s.rowCnt.toNat + 1 = s.nb.toNat ∧ s.nb.toNat = (s.width.toNat + 7) / 8 ∧
    (∀ j < s.rowCnt.toNat, Memory.read s.rowbuf j = some (r j)) ∧ r s.rowCnt.toNat = 0xC0 := by decide

theorem witness_RawPathIgnoresHeight :
    exec .rawErr (atRow 8 1 [] .waiting) = .next (raise .ioFailure (atRow 8 1 [] .waiting)) ∧
    Instr.rawErr ∈ [Instr.rawByte 0x00, .rawEnd, .rawErr] := ⟨rfl, by decide⟩

/-- One row byte of an image one row high, and one byte more than the declared height has (vector X3). -/
abbrev twoRowBytes : State := atRow 8 1 [0xAA, 0x55] .waiting

theorem inv_twoRowBytes : Inv twoRowBytes :=
  ⟨by decide, by decide, by decide, by decide, by decide, by decide, by decide, by decide, by decide, by decide⟩

theorem witness_RawPathRunsWhileBytesCome :
    Inv twoRowBytes ∧ Undisturbed twoRowBytes ∧ twoRowBytes.st = .rawRow ∧ twoRowBytes.eos = false ∧
    ∀ k < 2, (twoRowBytes.stream.byteAt (twoRowBytes.off + k)).isSome = true := ⟨inv_twoRowBytes, by decide⟩

theorem witness_OffCountsConsumedBytes :
    fsmStep longestRepeat = .next (repStart 0x80 { longestRepeat with off := 65 }) ∧
    fsmStep (atCtrl 8 1 [] .waiting) = .next (atCtrl 8 1 [] .waiting) := ⟨rfl, rfl⟩

theorem witness_OperationsNeverWriteTheStream : ∃ t, exec .rleEnd longestRepeat = .next t := ⟨_, rfl⟩

theorem witness_OnlyShortHeaderReadsAbortShort : Instr.rleEnd ≠ .hdrShort ∧ ∃ t, exec .rleEnd longestRepeat = .next t :=
  ⟨by decide, _, rfl⟩

theorem witness_FieldsLatchedOnlyAtDispatch :
    (∀ w h, Instr.rleEnd ≠ .selRle w h) ∧ (∀ w h, Instr.rleEnd ≠ .selRaw w h) ∧ ∃ t, exec .rleEnd longestRepeat = .next t :=
  ⟨fun _ _ h => (nomatch h), fun _ _ h => (nomatch h), _, rfl⟩

theorem witness_LatchesAreNeverCleared :
    ∃ s t : State, exec .rleEnd s = .next t ∧ s.eos = true ∧ s.boundsStop = true ∧ s.warnShort = true :=
  ⟨{ longestRepeat with eos := true, boundsStop := true, warnShort := true }, _, rfl, rfl, rfl, rfl⟩

theorem witness_OnlyPixelStepsWritePixels :
    ∃ t, exec (.rleRep .replay) (atCtrl 8 1 [] .waiting) = .next t ∧ t.pb ≠ (atCtrl 8 1 [] .waiting).pb := ⟨_, rfl, by decide⟩

theorem witness_ErrorsArePrecise :
    (∀ w h, Instr.rleLit (.data .endSym) ≠ .selRaw w h) ∧
    ∃ t, exec (.rleLit (.data .endSym)) longestLiteral = .next t ∧ t.st = .err ∧ t.eos ≠ longestLiteral.eos :=
  ⟨fun _ _ h => (nomatch h), _, rfl, rfl, by decide⟩

/-- One raw row has been committed (vector X3), and another byte is there. -/
abbrev oneRowDone : State :=
  { atRow 8 1 [0xFF, 0x55] .waiting with off := 65, pbRows := 1, pb := (List.range 8).map (fun i => (i, true)) }

theorem inv_oneRowDone : Inv oneRowDone :=
  ⟨by decide, by decide, by decide, by decide, by decide, by decide, by decide, by decide, by decide, by decide⟩

theorem witness_WrittenCellsNeverChange :
    Inv oneRowDone ∧ (∃ t, step oneRowDone = .next t) ∧ (∀ rest, oneRowDone.host ≠ .reset :: rest) ∧
    (∀ a x rest, oneRowDone.host ≠ .start a x :: rest) ∧ Memory.read oneRowDone.pb 7 = some true :=
  ⟨inv_oneRowDone, ⟨_, rfl⟩, fun _ h => (nomatch h), fun _ _ _ h => (nomatch h), by decide⟩

theorem witness_HostResetSetsEveryRegister : ({ longestRepeat with host := [.reset] } : State).host = [.reset] := rfl

theorem witness_HostStartBeginsADecode :
    let x : Stream := { bytes := [], tail := .ends .endMark }
    (let s : State := { State.reset with st := .err, host := [.start true x] }
     s.host = [.start true x] ∧ (s.st = .idle ∨ s.st = .done ∨ s.st = .err)) ∧
    (let s : State := { longestRepeat with host := [.start true x] }
     s.host = [.start true x] ∧ ¬ (s.st = .idle ∨ s.st = .done ∨ s.st = .err)) := by decide

theorem witness_HostReadsTheResult : ({ longestRepeat with st := .done } : State).st = .done ∧ State.reset.st = .idle := by decide

theorem witness_InstancesShareNothing : ∃ ns, stepInstance 1 (platform 2) = some ns := ⟨_, rfl⟩

theorem witness_HostResetKeepsTheEnvironment :
    ({ longestRepeat with host := [.reset, .run] } : State).host = [.reset, .run] := rfl

theorem witness_StepKeepsTheInvariant : Inv longestRepeat ∧ ∃ t, step longestRepeat = .next t := ⟨inv_longestRepeat, _, rfl⟩

theorem witness_StepKeepsTheRawImage : Inv oneRowDone ∧ RawImage oneRowDone ∧ ∃ t, step oneRowDone = .next t :=
  ⟨inv_oneRowDone, by decide, _, rfl⟩

theorem witness_StepKeepsTheRleImage : Inv longestRepeat ∧ RleImage longestRepeat ∧ ∃ t, step longestRepeat = .next t :=
  ⟨inv_longestRepeat, by decide, _, rfl⟩

theorem witness_FiniteStreamsTerminate : Inv longestRepeat ∧ Undisturbed longestRepeat ∧ (∃ x, longestRepeat.stream.tail = .ends x) :=
  ⟨inv_longestRepeat, by decide, _, rfl⟩

/-- One row of 8 cells, and a stream without end or terminator. -/
abbrev endlessRle : State := atCtrl 8 1 [] (.forever (.free 7))

theorem inv_endlessRle : Inv endlessRle :=
  ⟨by decide, by decide, by decide, by decide, by decide, by decide, by decide, by decide, by decide, by decide⟩

theorem witness_RleDecodeEndsOverEndlessStream :
    Inv endlessRle ∧ Undisturbed endlessRle ∧ endlessRle.st = .rleCtrl ∧ endlessRle.eos = false ∧ endlessRle.width ≠ 0 ∧
    ∀ k < 129 * max 1 ((endlessRle.lim.toNat + 7) / 8), (endlessRle.stream.byteAt (endlessRle.off + k)).isSome = true :=
  ⟨inv_endlessRle, by decide, rfl, rfl, by decide, fun k _ => Stream.byteAt_isSome_of_forever rfl _⟩

/-- Vector X10 after its header: `00` repeated forever. -/
abbrev endlessRaw : State := atRow 8 1 [] (.forever (.repeating 0x00 []))

theorem inv_endlessRaw : Inv endlessRaw :=
  ⟨by decide, by decide, by decide, by decide, by decide, by decide, by decide, by decide, by decide, by decide⟩

theorem witness_EndlessRawDecodeNeverEnds :
    Inv endlessRaw ∧ Undisturbed endlessRaw ∧ endlessRaw.st = .rawRow ∧ endlessRaw.stream.tail = .forever (.repeating 0x00 []) :=
  ⟨inv_endlessRaw, by decide, rfl, rfl⟩

/-- Vector X10's stream has the byte `00` at every offset. -/
theorem test_stream_endless : endlessRaw.stream.byteAt 8255 = some 0x00 := by decide

theorem witness_PseudoOperationsExpand : 1 ≤ (1 : Nat) ∧ 1 ≤ ([0x00] : List Byte).length := by decide

end Sys2Proof.Tests
end

section
/-! PROOF. The bound check against the source's division test (R9, R93). -/

namespace Sys2Proof.Machine

/-- R93: away from width 0 the bound check ends the decode exactly at or past `lim`. -/
theorem boundCheck_st_eq_done_iff {s : State} (hw : s.width ≠ 0) :
    (boundCheck s).st = .done ↔ s.lim.toNat ≤ s.pos.toNat := by
  rcases Nat.lt_or_ge s.pos.toNat s.lim.toNat with hlt | hle
  · simp [boundCheck_goOn hw hlt, hlt]
  · simp [boundCheck_stop hw hle, hle]

/-- R9: since `width × height` is exact, comparing with it is comparing the quotient with `height`. -/
theorem pixelCount_le_iff_le_div {w : Field} (hw : w ≠ 0) (h : Field) (n : Nat) :
    (pixelCount w h).toNat ≤ n ↔ h.toNat ≤ n / w.toNat := by
  have hpos : 0 < w.toNat := Nat.pos_of_ne_zero fun h0 => hw (BitVec.eq_of_toNat_eq h0)
  rw [pixelCount_toNat, Nat.le_div_iff_mul_le hpos, Nat.mul_comm]

/-- Settles O24: the bound check compares `pos` with `lim`, and `lim` is the exact product. -/
theorem boundCheckIsTheSourcesDivision : Obligations.BoundCheckIsTheSourcesDivision := by
  intro s hw hlim
  refine ⟨boundCheck s, exec_rleChk s, ?_⟩
  rw [boundCheck_st_eq_done_iff hw, hlim, pixelCount_le_iff_le_div hw]

end Sys2Proof.Machine
end

section
/-! PROOF. What the host reads: the result in DONE, and the registers while the block is not busy (R37, R38, R52). -/

namespace Sys2Proof.Machine

/-- R14, R37: the block is busy away from DONE, ERR and IDLE, and only there. -/
theorem busy_eq_false_iff (s : State) : s.busy = false ↔ s.st = .done ∨ s.st = .err ∨ s.st = .idle := by
  cases h : s.st <;> simp [State.busy, terminal, h]

/-- R38: `result_valid` is the state DONE, which alone gives a result. -/
theorem result_eq_ite_done (s : State) : result s = if s.st = .done then some (s.pbCols, s.pbRows, s.pb) else none := by
  simp [result, State.resultValid]

theorem memRead_of_not_busy {s : State} (h : s.busy = false) (k i : Nat) : memRead k s i = Memory.read s.pb i := by
  simp [memRead, h]

theorem hostOutputs_of_not_busy {s : State} (h : s.busy = false) (k : Nat) : hostOutputs k s = registerOutputs s := by
  simp [hostOutputs, h]

/-- R14's codes of the three states the host can find a block in that is not busy. -/
theorem fsmCode_of_not_busy {s : State} (h : s.busy = false) :
    fsmCode s.st = if s.st = .idle then 0 else if s.st = .done then 9 else 10 := by
  rcases (busy_eq_false_iff s).mp h with hst | hst | hst <;> simp [fsmCode, hst]

/-- Settles O43: a block that is not busy shows its registers, so only the status and error codes are left to compare. -/
theorem hostReadsTheResult : Obligations.HostReadsTheResult := by
  intro s k
  refine ⟨result_eq_ite_done s, fun hst => ?_⟩
  have hbusy : s.busy = false := (busy_eq_false_iff s).mpr hst
  refine ⟨memRead_of_not_busy hbusy k, ?_⟩
  rw [hostOutputs_of_not_busy hbusy, registerOutputs, fsmCode_of_not_busy hbusy, hbusy]
  cases s.errCode <;> rfl

end Sys2Proof.Machine
end

section
/-! PROOF. The header fields as numbers, and the bytes they come from (R45, R75). -/

namespace Sys2Proof

theorem hdrWidth_toNat (h : List Byte) :
    (hdrWidth h).toNat = (h.getD 35 0).toNat * 256 + (h.getD 34 0).toNat :=
  append_toNat _ _

theorem hdrHeight_toNat (h : List Byte) :
    (hdrHeight h).toNat = (h.getD 37 0).toNat * 256 + (h.getD 36 0).toNat :=
  append_toNat _ _

/-- R59: a header of 64 bytes is always accepted in DISPATCH. -/
theorem decode_dispatch_of_length {h : List Byte} (hlen : h.length = 64) :
    decode .dispatch (.header h) = .ok (decodeDispatch h) := by
  simp [decode, onHeader, hlen]

/-- R75: only bytes 34 to 37 and bit 7 of byte 39 enter the operation. -/
theorem decodeDispatch_congr {g h : List Byte} (hfields : ∀ k, 34 ≤ k → k ≤ 37 → g.getD k 0 = h.getD k 0)
    (hflag : (g.getD 39 0).getLsbD 7 = (h.getD 39 0).getLsbD 7) : decodeDispatch g = decodeDispatch h := by
  have hw : hdrWidth g = hdrWidth h :=
    congrArg₂ (· ++ ·) (hfields 35 (by decide) (by decide)) (hfields 34 (by decide) (by decide))
  have hx : hdrHeight g = hdrHeight h :=
    congrArg₂ (· ++ ·) (hfields 37 (by decide) (by decide)) (hfields 36 (by decide) (by decide))
  have hc : hdrCompressed g = hdrCompressed h := hflag
  rw [decodeDispatch, decodeDispatch, hw, hx, hc]

/-- Settles O4: a full header decodes to `decodeDispatch` of it, whose operands are the little-endian fields. -/
theorem headerFieldsExtracted : Obligations.HeaderFieldsExtracted := by
  intro h hlen
  refine ⟨⟨hdrWidth h, hdrHeight h, hdrWidth_toNat h, hdrHeight_toNat h, decode_dispatch_of_length hlen⟩, ?_⟩
  intro g glen hfields hflag
  rw [decode_dispatch_of_length glen, decode_dispatch_of_length hlen, decodeDispatch_congr hfields hflag]

end Sys2Proof
end

section
/-! PROOF. The control byte: K, N and the run kind (R60). -/

namespace Sys2Proof

/-- R60: `c < 128` exactly when K is 0. -/
theorem byte_lt_128_iff (c : Byte) : c.toNat < 128 ↔ c.getLsbD 7 = false := by
  rw [byte_bit7, decide_eq_false_iff_not, Nat.not_le]

/-- R60: `c = K × 128 + N`, since N is the remainder by 128 and a byte is below 256. -/
theorem byte_toNat_eq_bit7_add_low (c : Byte) :
    c.toNat = (if c.getLsbD 7 then 1 else 0) * 128 + (c.extractLsb' 0 7).toNat := by
  have hN : (c.extractLsb' 0 7).toNat = c.toNat % 128 := by simp [BitVec.extractLsb'_toNat]
  have hc : c.toNat < 256 := c.isLt
  cases hK : c.getLsbD 7 with
  | false =>
    have hlt : c.toNat < 128 := (byte_lt_128_iff c).mpr hK
    simp [hN, Nat.mod_eq_of_lt hlt]
  | true =>
    have hge : 128 ≤ c.toNat := by rwa [byte_bit7, decide_eq_true_iff] at hK
    simp only [hN, if_true]
    omega

/-- R60, R87: the run kind by the size of the control byte. -/
theorem decodeCtrl_byte (c : Byte) :
    decodeCtrl (.byte c) = if c.toNat < 128 then .rleLit (.ctrl c) else .rleRep (.ctrl c) := by
  by_cases hlt : c.toNat < 128
  · have hK : c.getLsbD 7 = false := (byte_lt_128_iff c).mp hlt
    simp only [decodeCtrl, hK, hlt, if_true, Bool.false_eq_true, if_false]
  · have hK : c.getLsbD 7 = true := Bool.eq_true_of_not_eq_false (mt (byte_lt_128_iff c).mpr hlt)
    simp only [decodeCtrl, hK, hlt, if_true, if_false]

/-- Settles O3: bit 7 of a byte is its comparison with 128, which fixes N and the run kind. -/
theorem controlByteSelectsRunKind : Obligations.ControlByteSelectsRunKind := fun c =>
  ⟨byte_toNat_eq_bit7_add_low c, byte_lt_128_iff c, congrArg Except.ok (decodeCtrl_byte c)⟩

end Sys2Proof
end

section
/-! PROOF. The header parser's captured byte, and the read errors outside runs (R72, R74, R82, R89). -/

namespace Sys2Proof.Machine

/-- R72: the incremented header count is full exactly with the 64th byte; at 127 it wraps to 0, which is not 64 either. -/
theorem hdrFull_succ_iff (cnt : BitVec 7) : hdrFull (cnt + 1) = true ↔ cnt.toNat + 1 = 64 := by
  rw [hdrFull, decide_eq_true_iff]
  bv_omega

/-- R72: HDR_BYTE's next state, where COUNTER_LIMIT allows the byte. -/
theorem exec_hdrByte_of_ne {s : State} (b : Byte) (h : s.cfg.counterLimit ≠ some s.off) :
    exec (.hdrByte b) s = .next { s with
      off := s.off + 1, hdr := Memory.write s.hdr s.hdrCnt.toNat b, hdrCnt := s.hdrCnt + 1,
      st := if hdrFull (s.hdrCnt + 1) then .dispatch else .hdr } :=
  withByte_of_ne h

/-- Settles O11: the captured byte is one write at `hdr_cnt`, and `hdr_cnt + 1` is 64 exactly with the 64th byte. -/
theorem hdrByteCapturesTheByte : Obligations.HdrByteCapturesTheByte := by
  intro s b hallowed
  refine ⟨_, exec_hdrByte_of_ne b hallowed, rfl, Memory.read_write s.hdr s.hdrCnt.toNat b, ?_⟩
  simp only [hdrFull_succ_iff]

/-- Settles O14: each of the three operations is `raise` of IO_FAILURE. -/
theorem readErrorsRaiseIoFailure : Obligations.ReadErrorsRaiseIoFailure := by
  intro s i hi
  simp only [List.mem_cons, List.not_mem_nil, or_false] at hi
  rcases hi with rfl | rfl | rfl
  · exact exec_hdrErr s
  · exact exec_rawErr s
  · exact exec_rleCtrlErr s

end Sys2Proof.Machine
end

section
/-! PROOF. The raw unpacker: a row byte held, a full row committed, a partial row discarded (R79 to R81). -/

namespace Sys2Proof.Machine

/-- R79: the counter that a row byte raises is `nb` exactly with the row's last byte, short of its wrap at 14 bits. -/
theorem rowFull_succ_iff {cnt : BitVec 14} (hcnt : cnt.toNat + 1 < 16384) (nb : BitVec 14) :
    rowFull (cnt + 1) nb = true ↔ cnt.toNat + 1 = nb.toNat := by
  rw [rowFull, decide_eq_true_iff]
  bv_omega

/-- R79: RAW_BYTE short of a full row. -/
theorem exec_rawByte_hold {s : State} (b : Byte) (hallowed : ByteAllowed s) (hcnt : s.rowCnt.toNat + 1 < 16384)
    (hrow : s.rowCnt.toNat + 1 ≠ s.nb.toNat) :
    exec (.rawByte b) s = .next (captureRowByte b { s with off := s.off + 1 }) :=
  execRawByte_eq_next_iff.mpr ⟨hallowed, (if_neg (mt (rowFull_succ_iff hcnt s.nb).mp hrow)).symm⟩

/-- R79: RAW_BYTE with the row's last byte; the counter cannot wrap, for `nb` has its 14 bits. -/
theorem exec_rawByte_commit {s : State} (b : Byte) (hallowed : ByteAllowed s)
    (hrow : s.rowCnt.toNat + 1 = s.nb.toNat) :
    exec (.rawByte b) s = .next (commitRow (captureRowByte b { s with off := s.off + 1 })) :=
  have hcnt : s.rowCnt.toNat + 1 < 16384 := hrow ▸ s.nb.isLt
  execRawByte_eq_next_iff.mpr ⟨hallowed, (if_pos ((rowFull_succ_iff hcnt s.nb).mpr hrow)).symm⟩

theorem captureRowByte_rowCnt_toNat (b : Byte) {s : State} (hcnt : s.rowCnt.toNat + 1 < 16384) :
    (captureRowByte b s).rowCnt.toNat = s.rowCnt.toNat + 1 := by
  rw [captureRowByte_rowCnt]
  bv_omega

/-- R79: with its last byte `rowbuf` holds the whole row `r`. -/
theorem read_captureRowByte_of_row {s : State} {b : Byte} {r : Nat → Byte}
    (hbuf : ∀ j < s.rowCnt.toNat, Memory.read s.rowbuf j = some (r j)) (hlast : r s.rowCnt.toNat = b)
    {j : Nat} (hj : j < s.rowCnt.toNat + 1) : Memory.read (captureRowByte b s).rowbuf j = some (r j) := by
  rw [captureRowByte_rowbuf, Memory.read_write]
  split
  next heq => rw [heq, hlast]
  next hne => exact hbuf j (by omega)

/-- R80: a column whose byte the buffer holds is bit `7 − (x mod 8)` of it. -/
theorem rowPixel_of_read {buf : Memory Byte} {x : Nat} {d : Byte} (h : Memory.read buf (x / 8) = some d) :
    rowPixel buf x = d.getLsbD (7 - x % 8) := by
  rw [rowPixel, rowByteAt_of_read h, pixelOf_eq]

/-- R79: the committed cells are those of the buffered row, at row `pb_rows`. -/
theorem read_commitRow_pb_row {s : State} {x : Nat} (hx : x < s.width.toNat) :
    Memory.read (commitRow s).pb (s.pbRows * s.width.toNat + x) = some (rowPixel s.rowbuf x) := by
  rw [commitRow_pb, read_writeRow, if_pos (by omega), Nat.add_sub_cancel_left]

/-- R79: a commit leaves every cell outside row `pb_rows`. -/
theorem read_commitRow_pb_of_outside {s : State} {i : Nat}
    (hi : i < s.pbRows * s.width.toNat ∨ (s.pbRows + 1) * s.width.toNat ≤ i) :
    Memory.read (commitRow s).pb i = Memory.read s.pb i := by
  rw [Nat.succ_mul] at hi
  rw [commitRow_pb, read_writeRow, if_neg (by omega)]

/-- The entries below `n` are emptied, the others kept. -/
theorem Memory.read_clearBelow_eq_ite_lt {α : Type} (m : Memory α) (n j : Nat) :
    Memory.read (Memory.clearBelow m n) j = if j < n then none else Memory.read m j := by
  simp only [Memory.read_clearBelow, ← Nat.not_lt, ite_not]

/-- R79: the commit also empties the entry the last byte was captured in, so it leaves nothing of the row. -/
theorem read_commitRow_captureRowByte_rowbuf {s : State} (b : Byte) (hrow : s.rowCnt.toNat + 1 = s.nb.toNat) (j : Nat) :
    Memory.read (commitRow (captureRowByte b s)).rowbuf j = if j < s.nb.toNat then none else Memory.read s.rowbuf j := by
  rw [commitRow_rowbuf, captureRowByte_nb, captureRowByte_rowbuf, Memory.read_clearBelow_eq_ite_lt]
  split
  next => rfl
  next hj => exact Memory.read_write_ne s.rowbuf b (by omega)

/-- R79, R80: the last byte completes the row `r` in the buffer, and the commit writes it out. -/
theorem read_commitRow_captureRowByte_pb {s : State} {b : Byte} {r : Nat → Byte}
    (hwidth : s.width.toNat ≤ 8 * (s.rowCnt.toNat + 1))
    (hbuf : ∀ j < s.rowCnt.toNat, Memory.read s.rowbuf j = some (r j)) (hlast : r s.rowCnt.toNat = b)
    {x : Nat} (hx : x < s.width.toNat) :
    Memory.read (commitRow (captureRowByte b s)).pb (s.pbRows * s.width.toNat + x) =
      some ((r (x / 8)).getLsbD (7 - x % 8)) := by
  have hbyte : Memory.read (captureRowByte b s).rowbuf (x / 8) = some (r (x / 8)) :=
    read_captureRowByte_of_row hbuf hlast (by omega)
  rw [← rowPixel_of_read hbyte]
  exact read_commitRow_pb_row (s := captureRowByte b s) hx

/-- Settles O29: short of a full row the byte is one write at `row_cnt`; `nb` bytes cover
`width` columns, so every column of the committed row has its byte in the buffer. -/
theorem rawByteHoldsOrCommits : Obligations.RawByteHoldsOrCommits := by
  intro s b hallowed
  constructor
  · intro hcnt hrow
    have hwrap : s.rowCnt.toNat + 1 < 16384 := by omega
    exact ⟨_, exec_rawByte_hold b hallowed hwrap hrow, rfl, captureRowByte_rowCnt_toNat b hwrap,
      Memory.read_write s.rowbuf s.rowCnt.toNat b⟩
  · intro r hrow hnb hbuf hlast
    have hwidth : s.width.toNat ≤ 8 * (s.rowCnt.toNat + 1) := by omega
    exact ⟨_, exec_rawByte_commit b hallowed hrow, rfl, read_commitRow_captureRowByte_rowbuf b hrow,
      fun _ hx => read_commitRow_captureRowByte_pb hwidth hbuf hlast hx, fun _ hi => read_commitRow_pb_of_outside hi⟩

/-- Settles O30: RAW_END clears `rowbuf` below `nb`, whatever it holds. -/
theorem rawEndDiscardsPartialRow : Obligations.RawEndDiscardsPartialRow := fun s =>
  ⟨_, exec_rawEnd s, rfl, Memory.read_clearBelow_eq_ite_lt s.rowbuf s.nb.toNat⟩

end Sys2Proof.Machine
end

section
/-! PROOF. The RLE decoder, step by step: the path's entry, a run's start, its data bytes and replays, its ends (R84 to R93). -/

namespace Sys2Proof.Machine

/-! ### A run's counter and the group it writes -/

/-- R90, R92: a run is over exactly with its last group, the one that finds its counter at 1. -/
theorem runOver_pred_iff (n : BitVec 8) : runOver (n - 1) = true ↔ n = 1 := by
  rw [runOver, decide_eq_true_iff]
  bv_omega

/-- R90: a literal data byte, with the run's end told by the counter before it. -/
theorem litByte_eq (d : Byte) (s : State) : litByte d s =
    { s with pb := (litByte d s).pb, pos := s.pos + 8, litRem := s.litRem - 1,
             st := if s.litRem = 1 then .rleChk else .rleLit } := by
  simp only [litByte, rleWrite8, runOver_pred_iff]

/-- R92: one replay, with the run's end told by the counter before it. -/
theorem replayOnce_eq (s : State) : replayOnce s =
    { s with pb := (replayOnce s).pb, pos := s.pos + 8, repRem := s.repRem - 1,
             st := if s.repRem = 1 then .rleChk else .rleRepw } := by
  simp only [replayOnce, rleWrite8, runOver_pred_iff]

/-! ### What a run's step does with the channel's answer -/

theorem onData_byte {s : State} (d : Byte) (k : Byte → State → State) (hallowed : ByteAllowed s) :
    onData (.byte d) k s = .next (k d { s with off := s.off + 1 }) :=
  onData_eq_next_iff.mpr (.inl ⟨d, rfl, hallowed, rfl⟩)

theorem onData_endSym (k : Byte → State → State) (s : State) :
    onData .endSym k s = .next (raise .truncatedStream (takeEnd s)) :=
  onData_eq_next_iff.mpr (.inr (.inl ⟨rfl, rfl⟩))

theorem onData_errSym (k : Byte → State → State) (s : State) : onData .errSym k s = .next (raise .ioFailure s) :=
  onData_eq_next_iff.mpr (.inr (.inr ⟨rfl, rfl⟩))

/-! ### The statements -/

/-- Settles O19: a data byte is one gated group at the cursor; the two other symbols raise before anything is written. -/
theorem literalRunStep : Obligations.LiteralRunStep := fun s =>
  ⟨fun d hallowed => ⟨_, onData_byte d litByte hallowed, litByte_eq d _, read_rleWrite8 d { s with off := s.off + 1 }⟩,
    onData_endSym litByte s, onData_errSym litByte s⟩

/-- Settles O21: a replay is one gated group of the pattern at the cursor. -/
theorem repeatRunReplay : Obligations.RepeatRunReplay := fun s =>
  ⟨_, exec_rleRep_replay s, replayOnce_eq s, read_rleWrite8 s.pat s⟩

/-- Settles O15: the entry follows the latching, and the product of two 16-bit fields is exact in 32 bits. -/
theorem selRleEntersCompressedPath : Obligations.SelRleEntersCompressedPath := fun s w h =>
  ⟨_, exec_selRle w h s, rfl, pixelCount_toNat w h⟩

/-- Settles O18: at most 129 groups are counted, so neither count wraps at 8 bits. -/
theorem controlByteStartsRun : Obligations.ControlByteStartsRun := by
  intro s c hallowed
  constructor
  · intro hlit
    exact ⟨_, withByte_of_ne (k := litStart c) hallowed, rfl, litCount_toNat hlit⟩
  · intro hrep
    have hcount : (repCount c).toNat = (256 - c.toNat) + 1 := by
      have hc := c.isLt
      rw [repCount_toNat hrep]
      omega
    exact ⟨_, withByte_of_ne (k := repStart c) hallowed, rfl, hcount⟩

/-- Settles O20: the data byte is only kept, by `repByte`; the two other symbols raise as in a literal run. -/
theorem repeatRunDataByte : Obligations.RepeatRunDataByte := fun s =>
  ⟨fun d hallowed => onData_byte d repByte hallowed, onData_endSym repByte s, onData_errSym repByte s⟩

/-- Settles O22: RLE_END takes the `End` and finishes. -/
theorem rleEndFinishes : Obligations.RleEndFinishes := exec_rleEnd

/-- Settles O23: one clause for each branch of the bound check. -/
theorem boundCheckDecides : Obligations.BoundCheckDecides := by
  intro s
  rw [exec_rleChk]
  refine ⟨fun hzero => ?_, fun hw hstop => ?_, fun hw hgoOn => ?_⟩
  · exact congrArg Host.Outcome.next (boundCheck_zero hzero)
  · exact congrArg Host.Outcome.next (boundCheck_stop hw hstop)
  · exact congrArg Host.Outcome.next (boundCheck_goOn hw hgoOn)

end Sys2Proof.Machine
end

section
/-! PROOF. The host's reset, from any state (R40, R110). -/

namespace Sys2Proof.Machine

/-- R110: a pending `reset` is taken in every state, whatever the FSM is doing. -/
theorem step_of_reset {s : State} {rest : List HostEvent} (hhost : s.host = .reset :: rest) :
    step s = .next (hostReset { s with host := rest }) :=
  step_host hhost

/-- Settles O41: the step is `hostReset`; its `@[simp]` lemmas give each register, and an empty store reads none. -/
theorem hostResetSetsEveryRegister : Obligations.HostResetSetsEveryRegister := by
  intro s rest hhost
  refine ⟨_, step_of_reset hhost, ?_⟩
  simp

end Sys2Proof.Machine
end

section
/-! PROOF. The encoder against the decoder: what is encoded decodes back, and what decodes is what would be encoded (R59 to
R68). -/

namespace Sys2Proof

/-- A field is its two header bytes put together, high byte first (R45). -/
theorem field_eq_append (w : Field) : (w.extractLsb' 8 8 ++ w.extractLsb' 0 8 : BitVec (8 + 8)) = w := by
  refine BitVec.eq_of_toNat_eq ?_
  rw [append_toNat, BitVec.extractLsb'_toNat, BitVec.extractLsb'_toNat, Nat.shiftRight_eq_div_pow, Nat.shiftRight_zero]
  have hw := w.isLt
  omega

@[simp] theorem hdrWidth_headerBytes (w h : Field) (f : Byte) : hdrWidth (headerBytes w h f) = w := field_eq_append w

@[simp] theorem hdrHeight_headerBytes (w h : Field) (f : Byte) : hdrHeight (headerBytes w h f) = h := field_eq_append h

@[simp] theorem hdrCompressed_headerBytes (w h : Field) (f : Byte) : hdrCompressed (headerBytes w h f) = f.getLsbD 7 := rfl

/-- R59, R70: a header record decodes to its fields, on the path that bit 7 of its flag byte names. -/
theorem decode_headerBytes (w h : Field) (f : Byte) :
    decode .dispatch (.header (headerBytes w h f)) = .ok (if f.getLsbD 7 then .selRle w h else .selRaw w h) := by
  rw [decode_dispatch_of_length (headerBytes_length w h f), decodeDispatch, hdrWidth_headerBytes, hdrHeight_headerBytes,
    hdrCompressed_headerBytes]

/-- R60: a control byte decodes to the run kind that its size names. -/
theorem decode_ctrl_byte (c : Byte) :
    decode .rleCtrl (.symbol (.byte c)) = .ok (if c.toNat < 128 then .rleLit (.ctrl c) else .rleRep (.ctrl c)) :=
  congrArg Except.ok (decodeCtrl_byte c)

/-- Settles O1: only a header record and a control byte have more than one reading; the flag bit and the run kind decide there. -/
theorem decodeEncodeRoundTrip : Obligations.DecodeEncodeRoundTrip := by
  intro i hwf
  cases i with
  | selRle w h => exact decode_headerBytes w h 0x80
  | selRaw w h => exact decode_headerBytes w h 0x00
  | rleLit p =>
    cases p with
    | data a => rfl
    | ctrl c =>
      have hc : c.toNat < 128 := of_decide_eq_true hwf
      exact (decode_ctrl_byte c).trans (congrArg Except.ok (if_pos hc))
  | rleRep p =>
    cases p with
    | data a => rfl
    | replay => rfl
    | ctrl c =>
      have hc : 128 ≤ c.toNat := of_decide_eq_true hwf
      exact (decode_ctrl_byte c).trans (congrArg Except.ok (if_neg (Nat.not_lt.mpr hc)))
  | _ => rfl

/-! ### What decodes -/

/-- An operation is well-formed, its encoding names the state `st`, and outside DISPATCH it is encoded as `u`. -/
def EncodedAs (st : Fsm) (u : CodeUnit) (i : Instr) : Prop :=
  i.wf = true ∧ (encode i).1 = st ∧ (st ≠ .dispatch → (encode i).2 = u)

theorem encodedAs_decodeHdr (a : Symbol) : EncodedAs .hdr (.symbol a) (decodeHdr a) := by
  cases a <;> exact ⟨rfl, rfl, fun _ => rfl⟩

theorem encodedAs_decodeRaw (a : Symbol) : EncodedAs .rawRow (.symbol a) (decodeRaw a) := by
  cases a <;> exact ⟨rfl, rfl, fun _ => rfl⟩

theorem encodedAs_decodeCtrl (a : Symbol) : EncodedAs .rleCtrl (.symbol a) (decodeCtrl a) := by
  cases a with
  | endSym => exact ⟨rfl, rfl, fun _ => rfl⟩
  | errSym => exact ⟨rfl, rfl, fun _ => rfl⟩
  | byte c =>
    rw [decodeCtrl_byte]
    split
    next hlt => exact ⟨decide_eq_true hlt, rfl, fun _ => rfl⟩
    next hge => exact ⟨decide_eq_true (Nat.le_of_not_lt hge), rfl, fun _ => rfl⟩

theorem encodedAs_decodeDispatch (h : List Byte) (u : CodeUnit) : EncodedAs .dispatch u (decodeDispatch h) := by
  unfold decodeDispatch
  split <;> exact ⟨rfl, rfl, fun hne => absurd rfl hne⟩

theorem onSymbol_eq_ok_iff {f : Symbol → Instr} {u : CodeUnit} {i : Instr} :
    onSymbol f u = .ok i ↔ ∃ a, u = .symbol a ∧ f a = i := by
  cases u <;> simp [onSymbol]

theorem onHeader_eq_ok_iff {f : List Byte → Instr} {u : CodeUnit} {i : Instr} :
    onHeader f u = .ok i ↔ ∃ h, u = .header h ∧ h.length = 64 ∧ f h = i := by
  cases u with
  | header l => by_cases hl : l.length = 64 <;> simp [onHeader, hl]
  | symbol a => simp [onHeader]
  | internal => simp [onHeader]

theorem onInternal_eq_ok_iff {i j : Instr} {u : CodeUnit} : onInternal j u = .ok i ↔ u = .internal ∧ j = i := by
  cases u <;> simp [onInternal]

/-- Settles O2: state by state, the decoder's arm inverts the encoder's. -/
theorem decodedBelongsToItsState : Obligations.DecodedBelongsToItsState := by
  intro st u i h
  cases st with
  | idle => cases h
  | done => cases h
  | err => cases h
  | hdr => obtain ⟨a, rfl, rfl⟩ := onSymbol_eq_ok_iff.mp h; exact encodedAs_decodeHdr a
  | dispatch => obtain ⟨l, rfl, -, rfl⟩ := onHeader_eq_ok_iff.mp h; exact encodedAs_decodeDispatch l _
  | rleCtrl => obtain ⟨a, rfl, rfl⟩ := onSymbol_eq_ok_iff.mp h; exact encodedAs_decodeCtrl a
  | rleLit => obtain ⟨a, rfl, rfl⟩ := onSymbol_eq_ok_iff.mp h; exact ⟨rfl, rfl, fun _ => rfl⟩
  | rleRepd => obtain ⟨a, rfl, rfl⟩ := onSymbol_eq_ok_iff.mp h; exact ⟨rfl, rfl, fun _ => rfl⟩
  | rleRepw => obtain ⟨rfl, rfl⟩ := onInternal_eq_ok_iff.mp h; exact ⟨rfl, rfl, fun _ => rfl⟩
  | rleChk => obtain ⟨rfl, rfl⟩ := onInternal_eq_ok_iff.mp h; exact ⟨rfl, rfl, fun _ => rfl⟩
  | rawRow => obtain ⟨a, rfl, rfl⟩ := onSymbol_eq_ok_iff.mp h; exact encodedAs_decodeRaw a

/-- Settles O5: the words are closed, so the decoder is run on each. -/
theorem sampleWordsDecode : Obligations.SampleWordsDecode := by
  refine ⟨?_, ?_, ?_, ?_, ?_, ?_⟩ <;> decide

end Sys2Proof
end

section
/-! PROOF. The invariant on the RLE path: what it says of the stream, and one lemma for each step within the path (R16, R20,
R42, R84 to R93). -/

namespace Sys2Proof.Machine

/-! ### The states of a path -/

theorem ne_of_onRlePath {q : Fsm} (h : onRlePath q = true) :
    q ≠ .idle ∧ q ≠ .hdr ∧ q ≠ .dispatch ∧ q ≠ .rawRow ∧ q ≠ .done ∧ q ≠ .err := by
  refine ⟨?_, ?_, ?_, ?_, ?_, ?_⟩ <;> rintro rfl <;> cases h

theorem ne_of_not_terminal {q : Fsm} (h : terminal q = false) : q ≠ .idle ∧ q ≠ .done ∧ q ≠ .err := by
  refine ⟨?_, ?_, ?_⟩ <;> rintro rfl <;> cases h

/-! ### The stream -/

/-- R16, R43: with the byte at `off` consumed, the stream has a byte at every offset below the new one. -/
theorem byteAt_isSome_below_succ {x : Stream} {o : Nat} {b : Byte} (h : ∀ k < o, (x.byteAt k).isSome = true)
    (hb : x.byteAt o = some b) : ∀ k < o + 1, (x.byteAt k).isSome = true := by
  intro k hk
  obtain hlt | rfl : k < o ∨ k = o := by omega
  · exact h k hlt
  · rw [hb]; rfl

/-- R42: a byte that COUNTER_LIMIT lets through leaves `off` at most at the limit. -/
theorem le_limit_succ {l : Option Nat} {o : Nat} (h : ∀ n ∈ l, o ≤ n) (ha : l ≠ some o) : ∀ n ∈ l, o + 1 ≤ n := by
  intro n hn
  have hne : n ≠ o := fun e => ha (e ▸ hn)
  exact Nat.lt_of_le_of_ne (h n hn) (Ne.symm hne)

/-- R41, R42: the terminator is met with every byte consumed. -/
theorem Inv.off_eq_length {s : State} (h : Inv s) (hle : s.stream.bytes.length ≤ s.off) (ht : ∀ e, s.stream.tail ≠ .forever e) :
    s.off = s.stream.bytes.length :=
  Nat.le_antisymm (Stream.le_length_of_byteAt h.stream.1 ht) hle

/-- R20, R42: what `End` tells of the stream, whether the latch gives it or the channel. -/
theorem Inv.of_nextSymbol_end {s : State} (h : Inv s) (ha : nextSymbol s = some .endSym) :
    s.off = s.stream.bytes.length ∧ s.stream.tail = .ends .endMark := by
  rcases nextSymbol_end_iff.mp ha with heos | ⟨hle, ht⟩
  · exact h.stream.2.1 heos
  · exact ⟨h.off_eq_length hle (by simp [ht]), ht⟩

theorem Inv.of_nextSymbol_err {s : State} (h : Inv s) (ha : nextSymbol s = some .errSym) :
    s.eos = false ∧ s.off = s.stream.bytes.length ∧ s.stream.tail = .ends .errMark := by
  obtain ⟨heos, hle, ht⟩ := nextSymbol_err_iff.mp ha
  exact ⟨heos, h.off_eq_length hle (by simp [ht]), ht⟩

/-- R22: `lim` leaves room for a whole block after it in the 32 bits of `pos`. -/
theorem pixelCount_le (w h : Field) : (pixelCount w h).toNat ≤ 65535 * 65535 := by
  rw [pixelCount_toNat]
  exact Nat.mul_le_mul (Nat.le_of_lt_succ w.isLt) (Nat.le_of_lt_succ h.isLt)


/-! ### The clauses of the invariant that a state outside their reach meets -/

theorem freshInv_of_ne {s : State} (h1 : s.st ≠ .idle) (h2 : s.st ≠ .hdr) (h3 : s.st ≠ .dispatch) : FreshInv s :=
  ⟨fun h => absurd h h1, fun h => absurd h h2, fun h => absurd h h3⟩

theorem rawInv_of_nb_zero {s : State} (h1 : s.st ≠ .rawRow) (h2 : s.nb = 0) : RawInv s :=
  ⟨fun h => absurd h h1, fun h => absurd h2 h⟩

theorem offPathInv_of_compressed {s : State} (h : s.compressed = true) : OffPathInv s :=
  fun hc => by simp [h] at hc

theorem errorInv_of_noError {s : State} (h1 : s.st ≠ .err) (h2 : s.errCode = .noError) (h3 : s.errOff = 0) : ErrorInv s :=
  ⟨fun h => absurd h h1, fun _ => ⟨h2, h3⟩⟩

theorem errorKindInv_of_noError {s : State} (h : s.errCode = .noError) : ErrorKindInv s := by
  simp [ErrorKindInv, h]

theorem doneInv_of_not_done {s : State} (h1 : s.st ≠ .done) (h2 : s.boundsStop = false) : DoneInv s := by
  simp [DoneInv, h1, h2]

theorem Inv.boundsStop_eq_false {s : State} (h : Inv s) (hst : s.st ≠ .done) : s.boundsStop = false :=
  Bool.eq_false_iff.mpr fun hb => hst (h.ended.1 hb).1

/-! ### Within the RLE path -/

/-- A step within the RLE path keeps the invariant if it keeps what the invariant says of the stream, the cursor and the run. -/
theorem Inv.rleMove {s : State} (h : Inv s) (hs : onRlePath s.st = true) {q : Fsm} (hq : onRlePath q = true)
    {o : Nat} {c a : Byte} {p : BitVec 32} {l r : BitVec 8} {m : Memory Pixel}
    (hoff : s.off ≤ o) (hwarn : s.warnShort = true → o = s.off ∧ p = s.pos)
    (hstream : StreamInv { s with st := q, off := o })
    (hpos : p.toNat % 8 = 0 ∧ p.toNat ≤ lastCell s + 1032)
    (hpb : Memory.keys m = List.range (min p.toNat s.lim.toNat))
    (hruns : RunInv { s with st := q, ctrl := c, pos := p, litRem := l, repRem := r }) :
    Inv { s with st := q, off := o, ctrl := c, pos := p, litRem := l, repRem := r, pat := a, pb := m } := by
  obtain ⟨-, -, -, -, hdone, herr⟩ := ne_of_onRlePath hs
  obtain ⟨qidle, qhdr, qdispatch, qraw, qdone, qerr⟩ := ne_of_onRlePath hq
  have hcompressed : s.compressed = true := h.rle.1 hs
  obtain ⟨-, hlim, hcols, hrows, -, -, -, hnb, hcnt, hbuf, hwpos, hfull⟩ := h.rle.2 hcompressed
  obtain ⟨hkeys, hle, hcntoff, -, hwshort, -, -⟩ := h.header
  obtain ⟨hcode, herroff⟩ := h.error.2 herr
  exact
    { fresh := freshInv_of_ne qidle qhdr qdispatch
      header := ⟨hkeys, hle, hcntoff.trans hoff, fun e => absurd e qhdr,
        fun hw => (hwarn hw).1 ▸ hwshort hw, fun _ => hfull, fun e => absurd e qdispatch⟩
      stream := hstream
      rle := ⟨fun _ => hcompressed, fun _ => ⟨.inl hq, hlim, hcols, hrows, hpos.1, hpos.2, hpb, hnb, hcnt, hbuf,
        fun hw => (hwarn hw).2.trans (hwpos hw), hfull⟩⟩
      runs := hruns
      raw := rawInv_of_nb_zero qraw hnb
      offPath := offPathInv_of_compressed hcompressed
      error := errorInv_of_noError qerr hcode herroff
      errorKind := errorKindInv_of_noError hcode
      ended := doneInv_of_not_done qdone (h.boundsStop_eq_false hdone) }

/-- R20, R73: a short header leaves `eos` set, so with `eos` clear there was none. -/
theorem Inv.warnShort_eq_false {s : State} (h : Inv s) (heos : s.eos = false) : s.warnShort = false :=
  Bool.eq_false_iff.mpr fun hw => absurd (h.header.2.2.2.2.1 hw).2.2.1 (by simp [heos])

/-- With `eos` clear, moving to another state keeps what the invariant says of the stream. -/
theorem Inv.streamInv_move {s : State} (h : Inv s) (heos : s.eos = false) (q : Fsm) : StreamInv { s with st := q, off := s.off } :=
  ⟨h.stream.1, h.stream.2.1, fun _ => heos, fun _ => heos.trans (h.warnShort_eq_false heos).symm, h.stream.2.2.2.2⟩

/-- And so does the consumption of the byte at `off`. -/
theorem Inv.streamInv_takeByte {s : State} {b : Byte} (h : Inv s) (heos : s.eos = false) (hb : s.stream.byteAt s.off = some b)
    (ha : ByteAllowed s) (q : Fsm) : StreamInv { s with st := q, off := s.off + 1 } :=
  ⟨byteAt_isSome_below_succ h.stream.1 hb, fun he => by simp [heos] at he, fun _ => heos,
    fun _ => heos.trans (h.warnShort_eq_false heos).symm, le_limit_succ h.stream.2.2.2.2 ha⟩

theorem Inv.eos_eq_false {s : State} (h : Inv s) (hst : insideBlock s.st = true) : s.eos = false := h.stream.2.2.1 hst

/-- R87: a control byte of a literal run. -/
theorem Inv.litStart {s : State} {c : Byte} (h : Inv s) (hst : s.st = .rleCtrl) (heos : s.eos = false)
    (hb : s.stream.byteAt s.off = some c) (ha : ByteAllowed s) (hc : c.toNat < 128) :
    Inv (litStart c { s with off := s.off + 1 }) := by
  have hs : onRlePath s.st = true := by rw [hst]; rfl
  obtain ⟨-, -, -, -, hmod, hle, hkeys, -⟩ := h.rle.2 (h.rle.1 hs)
  obtain ⟨-, hrep, hctrl, -⟩ := h.runs
  have hpos := hctrl hst
  have hcount := litCount_toNat hc
  have hlit : 1 ≤ (litCount c).toNat ∧ (litCount c).toNat ≤ 128 := by omega
  have hroom : s.pos.toNat + 8 * (litCount c).toNat ≤ lastCell s + 1024 := by omega
  exact h.rleMove hs (q := .rleLit) rfl (Nat.le_succ _) (by simp [h.warnShort_eq_false heos])
    (h.streamInv_takeByte heos hb ha _) ⟨hmod, hle⟩ hkeys
    ⟨hlit.2, hrep, nofun, fun _ => ⟨hc, hlit.1, hcount.le, hroom⟩, nofun, nofun⟩

/-- R87: a control byte of a repeat run. -/
theorem Inv.repStart {s : State} {c : Byte} (h : Inv s) (hst : s.st = .rleCtrl) (heos : s.eos = false)
    (hb : s.stream.byteAt s.off = some c) (ha : ByteAllowed s) (hc : 128 ≤ c.toNat) :
    Inv (repStart c { s with off := s.off + 1 }) := by
  have hs : onRlePath s.st = true := by rw [hst]; rfl
  obtain ⟨-, -, -, -, hmod, hle, hkeys, -⟩ := h.rle.2 (h.rle.1 hs)
  obtain ⟨hlit, -, hctrl, -⟩ := h.runs
  have hcount := repCount_toNat hc
  have hrep : (repCount c).toNat ≤ 129 := by omega
  exact h.rleMove hs (q := .rleRepd) rfl (Nat.le_succ _) (by simp [h.warnShort_eq_false heos])
    (h.streamInv_takeByte heos hb ha _) ⟨hmod, hle⟩ hkeys
    ⟨hlit, hrep, nofun, nofun, fun _ => ⟨hc, hcount, hctrl hst⟩, nofun⟩

/-- R91: the data byte of a repeat run. -/
theorem Inv.repByte {s : State} {d : Byte} (h : Inv s) (hst : s.st = .rleRepd)
    (hb : s.stream.byteAt s.off = some d) (ha : ByteAllowed s) : Inv (repByte d { s with off := s.off + 1 }) := by
  have hs : onRlePath s.st = true := by rw [hst]; rfl
  have heos := h.eos_eq_false (by rw [hst]; rfl)
  obtain ⟨-, -, -, -, hmod, hle, hkeys, -⟩ := h.rle.2 (h.rle.1 hs)
  obtain ⟨hlit, hrep, -, -, hrepd, -⟩ := h.runs
  obtain ⟨hc, hcount, hpos⟩ := hrepd hst
  have hone : 1 ≤ s.repRem.toNat := by have := s.ctrl.isLt; omega
  have hroom : s.pos.toNat + 8 * s.repRem.toNat ≤ lastCell s + 1032 := by omega
  exact h.rleMove hs (q := .rleRepw) rfl (Nat.le_succ _) (by simp [h.warnShort_eq_false heos])
    (h.streamInv_takeByte heos hb ha _) ⟨hmod, hle⟩ hkeys
    ⟨hlit, hrep, nofun, nofun, nofun, fun _ => ⟨hc, hone, hcount.le, hroom⟩⟩

/-- R86: a group written keeps the cursor's clause: the cells below the new cursor and `lim` are the written ones. -/
theorem Inv.write8 {s : State} (h : Inv s) (hs : onRlePath s.st = true) (d : Byte)
    (hroom : s.pos.toNat + 8 ≤ lastCell s + 1032) :
    (s.pos + 8).toNat = s.pos.toNat + 8 ∧ ((s.pos + 8).toNat % 8 = 0 ∧ (s.pos + 8).toNat ≤ lastCell s + 1032) ∧
    Memory.keys (rleWrite8 d s).pb = List.range (min (s.pos + 8).toNat s.lim.toNat) := by
  obtain ⟨-, hlim, -, -, hmod, -, hkeys, -⟩ := h.rle.2 (h.rle.1 hs)
  have hmax := pixelCount_le s.width s.height
  have hadd : (s.pos + 8).toNat = s.pos.toNat + 8 := by
    rw [← hlim] at hmax
    simp only [lastCell] at hroom
    bv_omega
  have hlen := keys_writeGated (ps := unpack8 d) hkeys
  rw [unpack8_length] at hlen
  exact ⟨hadd, by omega, hadd ▸ hlen⟩

/-- A run's counter above 0 goes down by one without a wrap. -/
theorem toNat_pred {n : BitVec 8} (h : 1 ≤ n.toNat) : (n - 1).toNat = n.toNat - 1 := by bv_omega

theorem one_lt_toNat {n : BitVec 8} (h : 1 ≤ n.toNat) (hne : n ≠ 1) : 1 < n.toNat := by bv_omega

/-- Between blocks, at the bound check, the invariant says no more of a run than what its counters can hold. -/
theorem runInv_of_rleChk {s : State} (hst : s.st = .rleChk) (hlit : s.litRem.toNat ≤ 128) (hrep : s.repRem.toNat ≤ 129) :
    RunInv s := by
  simp [RunInv, hst, hlit, hrep]

/-- R90: a literal data byte. -/
theorem Inv.litByte {s : State} {d : Byte} (h : Inv s) (hst : s.st = .rleLit) (hb : s.stream.byteAt s.off = some d)
    (ha : ByteAllowed s) : Inv (litByte d { s with off := s.off + 1 }) := by
  have hs : onRlePath s.st = true := by rw [hst]; rfl
  have heos := h.eos_eq_false (by rw [hst]; rfl)
  obtain ⟨hlit, hrep, -, hrun, -⟩ := h.runs
  obtain ⟨hc, hone, hle, hpos⟩ := hrun hst
  obtain ⟨hadd, hcursor, hkeys⟩ := h.write8 hs d (by omega)
  have hpred := toNat_pred hone
  have hmove {q : Fsm} (hq : onRlePath q = true) (hruns : RunInv { s with st := q, pos := s.pos + 8, litRem := s.litRem - 1 }) :=
    h.rleMove hs hq (a := s.pat) (Nat.le_succ s.off) (by simp [h.warnShort_eq_false heos]) (h.streamInv_takeByte heos hb ha q)
      hcursor hkeys hruns
  have hlit' : (s.litRem - 1).toNat ≤ 128 := by omega
  rw [litByte_eq]
  by_cases hlast : s.litRem = 1
  · rw [if_pos hlast]
    exact hmove (q := .rleChk) rfl (runInv_of_rleChk rfl hlit' hrep)
  · have hmore := one_lt_toNat hone hlast
    have hone' : 1 ≤ (s.litRem - 1).toNat ∧ (s.litRem - 1).toNat ≤ s.ctrl.toNat + 1 := by omega
    have hroom : (s.pos + 8).toNat + 8 * (s.litRem - 1).toNat ≤ lastCell s + 1024 := by omega
    rw [if_neg hlast]
    exact hmove (q := .rleLit) rfl ⟨hlit', hrep, nofun, fun _ => ⟨hc, hone'.1, hone'.2, hroom⟩, nofun, nofun⟩

/-- R92: one replay. -/
theorem Inv.replayOnce {s : State} (h : Inv s) (hst : s.st = .rleRepw) : Inv (replayOnce s) := by
  have hs : onRlePath s.st = true := by rw [hst]; rfl
  have heos := h.eos_eq_false (by rw [hst]; rfl)
  obtain ⟨hlit, hrep, -, -, -, hrun⟩ := h.runs
  obtain ⟨hc, hone, hle, hpos⟩ := hrun hst
  obtain ⟨hadd, hcursor, hkeys⟩ := h.write8 hs s.pat (by omega)
  have hpred := toNat_pred hone
  have hmove {q : Fsm} (hq : onRlePath q = true) (hruns : RunInv { s with st := q, pos := s.pos + 8, repRem := s.repRem - 1 }) :=
    h.rleMove hs hq (a := s.pat) (Nat.le_refl s.off) (by simp [h.warnShort_eq_false heos]) (h.streamInv_move heos q)
      hcursor hkeys hruns
  have hrep' : (s.repRem - 1).toNat ≤ 129 := by omega
  rw [replayOnce_eq]
  by_cases hlast : s.repRem = 1
  · rw [if_pos hlast]
    exact hmove (q := .rleChk) rfl (runInv_of_rleChk rfl hlit hrep')
  · have hmore := one_lt_toNat hone hlast
    have hone' : 1 ≤ (s.repRem - 1).toNat ∧ (s.repRem - 1).toNat ≤ 257 - s.ctrl.toNat := by omega
    have hroom : (s.pos + 8).toNat + 8 * (s.repRem - 1).toNat ≤ lastCell s + 1032 := by omega
    rw [if_neg hlast]
    exact hmove (q := .rleRepw) rfl ⟨hlit, hrep', nofun, nofun, nofun, fun _ => ⟨hc, hone'.1, hone'.2, hroom⟩⟩

/-- R93: the bound check lets the path go on. -/
theorem Inv.goOn {s : State} (h : Inv s) (hst : s.st = .rleChk) (hlt : s.pos.toNat < s.lim.toNat) :
    Inv { s with st := .rleCtrl } := by
  have hs : onRlePath s.st = true := by rw [hst]; rfl
  have heos := h.eos_eq_false (by rw [hst]; rfl)
  obtain ⟨-, -, -, -, hmod, hle, hkeys, -⟩ := h.rle.2 (h.rle.1 hs)
  obtain ⟨hlit, hrep, -⟩ := h.runs
  have hpos : s.pos.toNat ≤ lastCell s := Nat.le_sub_one_of_lt hlt
  exact h.rleMove hs (q := .rleCtrl) rfl (Nat.le_refl _) (by simp) (h.streamInv_move heos _) ⟨hmod, hle⟩ hkeys
    ⟨hlit, hrep, fun _ => hpos, nofun, nofun, nofun⟩

end Sys2Proof.Machine
end

section
/-! PROOF. The invariant at the end of a decode, by an error and normally, and on the raw path (R79 to R82, R88, R93, R97, R98).
-/

namespace Sys2Proof.Machine

/-! ### An error -/

/-- Ending a decode that is under way in an error, with `eos` set or not, keeps the invariant if `eos` is set only at the
stream's end and the error kind tells the truth. -/
theorem Inv.raise {s : State} (h : Inv s) (hst : terminal s.st = false) {e : ErrKind} {b : Bool} (he : e ≠ .noError)
    (hmono : s.eos = true → b = true)
    (heos : b = true → s.off = s.stream.bytes.length ∧ s.stream.tail = .ends .endMark)
    (hkind : ErrorKindInv (raise e { s with eos := b })) : Inv (raise e { s with eos := b }) := by
  obtain ⟨-, hdone, herr⟩ := ne_of_not_terminal hst
  obtain ⟨hkeys, hle, hcntoff, -, hwshort, -, -⟩ := h.header
  obtain ⟨hread, -, -, -, hlimit⟩ := h.stream
  obtain ⟨hlit, hrep, -⟩ := h.runs
  have hstop := h.boundsStop_eq_false hdone
  exact
    { fresh := freshInv_of_ne nofun nofun nofun
      header := ⟨hkeys, hle, hcntoff, nofun,
        fun hw => have ⟨h1, h2, h3, h4⟩ := hwshort hw; ⟨h1, h2, hmono h3, h4⟩, nofun, nofun⟩
      stream := ⟨hread, heos, nofun, nofun, hlimit⟩
      rle := ⟨nofun, fun hc => ⟨.inr (.inr rfl), (h.rle.2 hc).2⟩⟩
      runs := ⟨hlit, hrep, nofun, nofun, nofun, nofun⟩
      raw := ⟨nofun, fun hn =>
        have ⟨_, hregs, hprogress⟩ := h.raw.2 hn
        ⟨.inr (.inr rfl), hregs, hprogress.1, hprogress.2.1, fun _ => hprogress.2.2.1 hdone, nofun⟩⟩
      offPath := h.offPath
      error := ⟨fun _ => ⟨he, rfl⟩, fun hne => absurd rfl hne⟩
      errorKind := hkind
      ended := ⟨fun hb => by simp [hstop] at hb, nofun, nofun⟩ }

/-! ### A normal end -/

/-- Ending an RLE decode, with `eos` or `bounds_stop` set, keeps the invariant. -/
theorem Inv.finishRle {s : State} (h : Inv s) (hs : onRlePath s.st = true) {b c : Bool} (hmono : s.eos = true → b = true)
    (heos : b = true → s.off = s.stream.bytes.length ∧ s.stream.tail = .ends .endMark)
    (hstop : c = true → s.width ≠ 0 ∧ s.lim.toNat ≤ s.pos.toNat) (hend : c = false → b = true) :
    Inv (finish { s with eos := b, boundsStop := c }) := by
  obtain ⟨-, -, -, -, -, herr⟩ := ne_of_onRlePath hs
  have hcompressed : s.compressed = true := h.rle.1 hs
  obtain ⟨hkeys, hle, hcntoff, -, hwshort, -, -⟩ := h.header
  obtain ⟨hread, -, -, -, hlimit⟩ := h.stream
  obtain ⟨hlit, hrep, -⟩ := h.runs
  have hrle := (h.rle.2 hcompressed).2
  obtain ⟨-, -, -, -, -, -, hnb, -, -, -, hfull⟩ := hrle
  obtain ⟨hcode, herroff⟩ := h.error.2 herr
  exact
    { fresh := freshInv_of_ne nofun nofun nofun
      header := ⟨hkeys, hle, hcntoff, nofun,
        fun hw => have ⟨h1, h2, h3, h4⟩ := hwshort hw; ⟨h1, h2, hmono h3, h4⟩, fun _ => hfull, nofun⟩
      stream := ⟨hread, heos, nofun, nofun, hlimit⟩
      rle := ⟨nofun, fun _ => ⟨.inr (.inl rfl), (h.rle.2 hcompressed).2⟩⟩
      runs := ⟨hlit, hrep, nofun, nofun, nofun, nofun⟩
      raw := rawInv_of_nb_zero nofun hnb
      offPath := offPathInv_of_compressed hcompressed
      error := errorInv_of_noError nofun hcode herroff
      errorKind := errorKindInv_of_noError hcode
      ended := ⟨fun hb => ⟨rfl, hcompressed, hstop hb⟩, fun _ _ => hend, fun _ hc => by simp [hcompressed] at hc⟩ }

/-! ### Within the raw path -/

/-- A step that stays on the raw path or ends it normally keeps the invariant if it keeps what the invariant says of the stream
and of the raw registers. -/
theorem Inv.rawMove {s : State} (h : Inv s) (hst : s.st = .rawRow) {q : Fsm} (hq : q = .rawRow ∨ q = .done)
    {o : Nat} {b : Bool} {c : BitVec 14} {m : Memory Byte} {p : Memory Pixel} {r : Nat}
    (hoff : s.off ≤ o) (hwarn : s.warnShort = true → o = s.off) (hmono : s.eos = true → b = true)
    (hstream : StreamInv { s with st := q, off := o, eos := b })
    (hregs : RawRegs { s with rowCnt := c, rowbuf := m, pb := p, pbRows := r })
    (hprogress : RawProgress { s with st := q, off := o, rowCnt := c, pbRows := r })
    (hend : q = .done → b = true ∧ c = 0) :
    Inv { s with st := q, off := o, eos := b, rowCnt := c, rowbuf := m, pb := p, pbRows := r } := by
  have hnb : s.nb ≠ 0 := h.raw.1 hst
  obtain ⟨-, ⟨hcompressed, -⟩, -⟩ := h.raw.2 hnb
  obtain ⟨hkeys, hle, hcntoff, -, hwshort, -, -⟩ := h.header
  obtain ⟨hlit, hrep, -⟩ := h.runs
  obtain ⟨hcode, herroff⟩ := h.error.2 (by simp [hst])
  have hstop := h.boundsStop_eq_false (by simp [hst])
  have hfull := (h.raw.2 hnb).2.2.2.1
  have hnorle := (h.offPath hcompressed).1
  have hne : q ≠ .idle ∧ q ≠ .hdr ∧ q ≠ .dispatch ∧ q ≠ .rleCtrl ∧ q ≠ .rleLit ∧ q ≠ .rleRepd ∧ q ≠ .rleRepw ∧ q ≠ .err ∧
      onRlePath q = false := by
    rcases hq with rfl | rfl <;> decide
  obtain ⟨qidle, qhdr, qdispatch, qctrl, qlit, qrepd, qrepw, qerr, qrle⟩ := hne
  exact
    { fresh := freshInv_of_ne qidle qhdr qdispatch
      header := ⟨hkeys, hle, hcntoff.trans hoff, fun e => absurd e qhdr,
        fun hw => have ⟨h1, h2, h3, h4⟩ := hwshort hw; ⟨h1, (hwarn hw).trans h2, hmono h3, h4⟩, fun _ => hfull,
        fun e => absurd e qdispatch⟩
      stream := hstream
      rle := ⟨fun e => absurd (qrle.symm.trans e) nofun, fun hc => absurd (hcompressed.symm.trans hc) nofun⟩
      runs := ⟨hlit, hrep, fun e => absurd e qctrl, fun e => absurd e qlit, fun e => absurd e qrepd, fun e => absurd e qrepw⟩
      raw := ⟨fun _ => hnb, fun _ => ⟨hq.elim .inl fun e => .inr (.inl e), hregs, hprogress⟩⟩
      offPath := fun _ => ⟨hnorle, fun e => absurd e hnb⟩
      error := errorInv_of_noError qerr hcode herroff
      errorKind := errorKindInv_of_noError hcode
      ended := ⟨fun hb => absurd (hstop.symm.trans hb) nofun, fun _ hc => absurd (hcompressed.symm.trans hc) nofun,
        fun e _ => ⟨hnb, hend e⟩⟩ }

/-- R79: a row byte short of a full row. -/
theorem Inv.captureRowByte {s : State} {b : Byte} (h : Inv s) (hst : s.st = .rawRow) (heos : s.eos = false)
    (hb : s.stream.byteAt s.off = some b) (ha : ByteAllowed s) (hne : s.rowCnt.toNat + 1 ≠ s.nb.toNat) :
    Inv (captureRowByte b { s with off := s.off + 1 }) := by
  obtain ⟨-, ⟨hcompressed, hwidth, hnb, hcols, hlt, hbuf, hpb⟩, -, hfull, hread, -⟩ := h.raw.2 (h.raw.1 hst)
  have hw := h.warnShort_eq_false heos
  have hsucc : (s.rowCnt + 1).toNat = s.rowCnt.toNat + 1 := by have := s.nb.isLt; bv_omega
  have hoff : s.off + 1 = 64 + s.pbRows * s.nb.toNat + (s.rowCnt + 1).toNat := by
    have := hread (by simp [hst]) hw
    omega
  have hlt' : (s.rowCnt + 1).toNat < s.nb.toNat := by omega
  have hbuf' := Memory.keys_write_next hbuf b
  rw [← hsucc] at hbuf'
  exact h.rawMove hst (.inl rfl) (Nat.le_succ _) (by simp [hw]) id (h.streamInv_takeByte heos hb ha .rawRow)
    ⟨hcompressed, hwidth, hnb, hcols, hlt', hbuf', hpb⟩ ⟨by simp [hw], hfull, fun _ _ => hoff, nofun⟩ nofun

/-- R79: a row's last byte. -/
theorem Inv.commitRow {s : State} {b : Byte} (h : Inv s) (hst : s.st = .rawRow) (heos : s.eos = false)
    (hb : s.stream.byteAt s.off = some b) (ha : ByteAllowed s) (hrow : s.rowCnt.toNat + 1 = s.nb.toNat) :
    Inv (commitRow (Machine.captureRowByte b { s with off := s.off + 1 })) := by
  obtain ⟨-, ⟨hcompressed, hwidth, hnb, hcols, hlt, hbuf, hpb⟩, -, hfull, hread, -⟩ := h.raw.2 (h.raw.1 hst)
  have hw := h.warnShort_eq_false heos
  have hoff : s.off + 1 = 64 + (s.pbRows + 1) * s.nb.toNat + 0 := by
    have := hread (by simp [hst]) hw
    rw [Nat.succ_mul]
    omega
  have hbuf' : Memory.clearBelow (Memory.write s.rowbuf s.rowCnt.toNat b) s.nb.toNat = [] :=
    Memory.clearBelow_eq_nil (Memory.keys_write_next hbuf b) hrow.le
  have hpb' := keys_writeRow (n := s.width.toNat) (pix := rowPixel (Memory.write s.rowbuf s.rowCnt.toNat b)) hpb
  rw [← Nat.succ_mul] at hpb'
  have hpos : 0 < s.nb.toNat := by omega
  exact h.rawMove hst (.inl rfl) (Nat.le_succ _) (by simp [hw]) id (h.streamInv_takeByte heos hb ha .rawRow)
    ⟨hcompressed, hwidth, hnb, hcols, hpos, congrArg Memory.keys hbuf', hpb'⟩ ⟨by simp [hw], hfull, fun _ _ => hoff, nofun⟩ nofun

/-- R81: the end of the stream on the raw path. -/
theorem Inv.rawEnd {s : State} (h : Inv s) (hst : s.st = .rawRow)
    (hend : s.off = s.stream.bytes.length ∧ s.stream.tail = .ends .endMark) :
    Inv (finish { takeEnd s with rowbuf := Memory.clearBelow s.rowbuf s.nb.toNat, rowCnt := 0 }) := by
  obtain ⟨-, ⟨hcompressed, hwidth, hnb, hcols, hlt, hbuf, hpb⟩, hshort, hfull, hread, -⟩ := h.raw.2 (h.raw.1 hst)
  have hbuf' : Memory.clearBelow s.rowbuf s.nb.toNat = [] := Memory.clearBelow_eq_nil hbuf hlt.le
  have hoff (hw : s.warnShort = false) :
      64 + s.pbRows * s.nb.toNat ≤ s.off ∧ s.off < 64 + (s.pbRows + 1) * s.nb.toNat := by
    have := hread (by simp [hst]) hw
    rw [Nat.succ_mul]
    omega
  have hpos : 0 < s.nb.toNat := by omega
  exact h.rawMove hst (.inr rfl) (Nat.le_refl _) (fun _ => rfl) (fun _ => rfl)
    ⟨h.stream.1, fun _ => hend, nofun, nofun, h.stream.2.2.2.2⟩
    ⟨hcompressed, hwidth, hnb, hcols, hpos, congrArg Memory.keys hbuf', hpb⟩
    ⟨fun hw => ⟨(hshort hw).1, rfl⟩, hfull, fun e => absurd rfl e, fun _ => hoff⟩ (fun _ => ⟨rfl, rfl⟩)

end Sys2Proof.Machine
end

section
/-! PROOF. The invariant before a path: after the host's commands, in the header, and at dispatch (R72, R73, R77, R78, R84,
R110, R111). -/

namespace Sys2Proof.Machine

/-! ### Before a path -/

/-- A state whose registers of the paths are all at their reset values meets the invariant if it meets the clauses that are
about the header and the stream. -/
theorem inv_of_blank {s : State} (hblank : Blank s) (hst : s.st = .idle ∨ s.st = .hdr ∨ s.st = .dispatch)
    (hfresh : FreshInv s) (hheader : HeaderInv s) (hstream : StreamInv s) : Inv s := by
  obtain ⟨-, -, hcompressed, hnorle, hstop, hnb, hnoraw, hcode, herroff⟩ := hblank
  have hne : s.st ≠ .done ∧ s.st ≠ .err ∧ s.st ≠ .rawRow ∧ onRlePath s.st = false := by
    rcases hst with e | e | e <;> simp [e, onRlePath]
  obtain ⟨hdone, herr, hrow, hpath⟩ := hne
  exact
    { fresh := hfresh
      header := hheader
      stream := hstream
      rle := ⟨fun e => absurd (hpath.symm.trans e) nofun, fun hc => absurd (hcompressed.symm.trans hc) nofun⟩
      runs := by
        obtain ⟨-, -, -, hlit, hrep, -⟩ := hnorle
        rcases hst with e | e | e <;> simp [RunInv, e, hlit, hrep]
      raw := rawInv_of_nb_zero hrow hnb
      offPath := fun _ => ⟨hnorle, fun _ => hnoraw⟩
      error := errorInv_of_noError herr hcode herroff
      errorKind := errorKindInv_of_noError hcode
      ended := doneInv_of_not_done hdone hstop }

/-- R110: the state after `reset`. -/
theorem inv_hostReset (s : State) : Inv (hostReset s) :=
  inv_of_blank (by simp [Blank, NoRleRegs, NoRawRegs]) (.inl rfl) ⟨fun _ => rfl, nofun, nofun⟩
    ⟨rfl, Nat.zero_le _, Nat.zero_le _, nofun, nofun, nofun, nofun⟩
    ⟨nofun, nofun, nofun, nofun, fun _ _ => Nat.zero_le _⟩

/-- R111: the state after `start`. -/
theorem Inv.hostStart {s : State} (h : Inv s) (a : Bool) (x : Stream) : Inv (hostStart a x s) := by
  unfold Machine.hostStart
  split
  · exact h
  · exact inv_of_blank (by simp [Blank, NoRleRegs, NoRawRegs]) (.inr (.inl rfl)) ⟨nofun, fun _ => rfl, nofun⟩
      ⟨rfl, Nat.zero_le _, Nat.zero_le _, fun _ => ⟨Nat.zero_lt_succ 63, rfl, rfl⟩, nofun, nofun, nofun⟩
      ⟨nofun, nofun, nofun, nofun, fun _ _ => Nat.zero_le _⟩

/-- What the invariant says in HDR: nothing but the bytes received so far. -/
theorem Inv.of_hdr {s : State} (h : Inv s) (hst : s.st = .hdr) :
    Blank s ∧ s.eos = false ∧ s.warnShort = false ∧ Memory.keys s.hdr = List.range s.hdrCnt.toNat ∧ s.hdrCnt.toNat < 64 ∧
    s.off = s.hdrCnt.toNat := by
  obtain ⟨hblank, heos, hw⟩ := ((freshInv_iff s).mp h.fresh).2.1 hst
  obtain ⟨hkeys, -, -, hhdr, -⟩ := h.header
  obtain ⟨hlt, hoff, -⟩ := hhdr hst
  rw [hw] at hkeys
  exact ⟨hblank, heos, hw, hkeys, hlt, hoff⟩

/-- R72: a header byte. -/
theorem Inv.hdrByte {s : State} {b : Byte} (h : Inv s) (hst : s.st = .hdr) (hb : s.stream.byteAt s.off = some b)
    (ha : ByteAllowed s) :
    Inv { s with off := s.off + 1, hdr := Memory.write s.hdr s.hdrCnt.toNat b, hdrCnt := s.hdrCnt + 1,
                 st := if hdrFull (s.hdrCnt + 1) then .dispatch else .hdr } := by
  obtain ⟨hblank, heos, hw, hkeys, hlt, hoff⟩ := h.of_hdr hst
  have hsucc : (s.hdrCnt + 1).toNat = s.hdrCnt.toNat + 1 := by bv_omega
  have hkeys' : Memory.keys (Memory.write s.hdr s.hdrCnt.toNat b) =
      List.range (if s.warnShort then 64 else (s.hdrCnt + 1).toNat) := by
    rw [hw, hsucc]; exact Memory.keys_write_next hkeys b
  have hoff' : s.off + 1 = (s.hdrCnt + 1).toNat := by omega
  have hshort : s.warnShort = true → (s.hdrCnt + 1).toNat < 64 ∧ s.off + 1 = (s.hdrCnt + 1).toNat ∧ s.eos = true ∧
      s.abortShort = false := by simp [hw]
  by_cases hfull : s.hdrCnt.toNat + 1 = 64
  · have hcnt : s.hdrCnt + 1 = 64 := by bv_omega
    have hle : (s.hdrCnt + 1).toNat ≤ 64 := by omega
    have hoff64 : s.off + 1 = 64 := by omega
    rw [if_pos ((hdrFull_succ_iff _).mpr hfull)]
    exact inv_of_blank hblank (.inr (.inr rfl)) ((freshInv_iff _).mpr ⟨nofun, nofun, fun _ => hblank⟩)
      ⟨hkeys', hle, hoff'.ge, nofun, hshort, fun _ _ => hcnt, fun _ _ => hoff64⟩ (h.streamInv_takeByte heos hb ha .dispatch)
  · have hlt' : (s.hdrCnt + 1).toNat < 64 := by omega
    rw [if_neg (mt (hdrFull_succ_iff _).mp hfull)]
    exact inv_of_blank hblank (.inr (.inl rfl)) ((freshInv_iff _).mpr ⟨nofun, fun _ => ⟨hblank, heos, hw⟩, nofun⟩)
      ⟨hkeys', hlt'.le, hoff'.ge, fun _ => ⟨hlt', hoff', heos⟩, hshort, nofun, nofun⟩ (h.streamInv_takeByte heos hb ha .hdr)

/-- R73: a short header that is only warned of. -/
theorem Inv.hdrShort {s : State} (h : Inv s) (hst : s.st = .hdr) (habort : s.abortShort = false)
    (hend : s.off = s.stream.bytes.length ∧ s.stream.tail = .ends .endMark) :
    Inv { drawMissing (takeEnd s) with warnShort := true, st := .dispatch } := by
  obtain ⟨hblank, heos, hw, hkeys, hlt, hoff⟩ := h.of_hdr hst
  have hkeys' := keys_fillDraws (source := s.cfg.drawSource) (d := s.draws) (k := 64 - s.hdrCnt.toNat) hkeys
  rw [Nat.add_sub_cancel' hlt.le] at hkeys'
  exact inv_of_blank hblank (.inr (.inr rfl)) ((freshInv_iff _).mpr ⟨nofun, nofun, fun _ => hblank⟩)
    ⟨hkeys', hlt.le, hoff.ge, nofun, fun _ => ⟨hlt, hoff, rfl, habort⟩, nofun, nofun⟩
    ⟨h.stream.1, fun _ => hend, nofun, fun _ => rfl, h.stream.2.2.2.2⟩

/-! ### Dispatch -/

/-- What the invariant says in DISPATCH. -/
theorem Inv.of_dispatch {s : State} (h : Inv s) (hst : s.st = .dispatch) :
    Blank s ∧ s.eos = s.warnShort ∧ (s.warnShort = false → s.hdrCnt = 64 ∧ s.off = 64) := by
  obtain ⟨-, -, -, -, -, hpast, hoff⟩ := h.header
  exact ⟨((freshInv_iff s).mp h.fresh).2.2 hst, h.stream.2.2.2.1 (.inl hst),
    fun hw => ⟨hpast (by rw [hst]; rfl) hw, hoff hst hw⟩⟩

/-- R84: the entry of the compressed path. -/
theorem Inv.rleEntry {s : State} (h : Inv s) (hst : s.st = .dispatch) (w x : Field) :
    Inv (rleEntry (latchFields w x true s)) := by
  obtain ⟨⟨-, -, -, hnorle, hstop, hnb, hnoraw, hcode, herroff⟩, heos, hfull⟩ := h.of_dispatch hst
  obtain ⟨-, -, -, hlit, hrep, -⟩ := hnorle
  obtain ⟨hcnt, hbuf, hpb, -, -⟩ := hnoraw
  obtain ⟨hkeys, hle, hcntoff, -, hwshort, -, -⟩ := h.header
  obtain ⟨hread, hend, -, -, hlimit⟩ := h.stream
  exact
    { fresh := freshInv_of_ne nofun nofun nofun
      header := ⟨hkeys, hle, hcntoff, nofun, hwshort, fun _ hw => (hfull hw).1, nofun⟩
      stream := ⟨hread, hend, nofun, fun _ => heos, hlimit⟩
      rle := ⟨fun _ => rfl, fun _ => ⟨.inl rfl, rfl, rfl, rfl, rfl, Nat.zero_le _, by simp [hpb], hnb, hcnt, hbuf,
        fun _ => rfl, fun hw => (hfull hw).1⟩⟩
      runs := ⟨by simp [hlit], by simp [hrep], fun _ => Nat.zero_le _, nofun, nofun, nofun⟩
      raw := rawInv_of_nb_zero nofun hnb
      offPath := nofun
      error := errorInv_of_noError nofun hcode herroff
      errorKind := errorKindInv_of_noError hcode
      ended := doneInv_of_not_done nofun hstop }

/-- R66: a row of a width above 0 has at least one byte. -/
theorem rowLength_pos {w : Field} (hw : w ≠ 0) : 0 < (rowLength w).toNat := by
  rw [rowLength_toNat]
  bv_omega

/-- R78: the entry of the raw path, and the error that a width of 0 raises there. -/
theorem Inv.rawEntry {s : State} (h : Inv s) (hst : s.st = .dispatch) (w x : Field) :
    Inv (rawEntry (latchFields w x false s)) := by
  obtain ⟨⟨-, -, -, hnorle, hstop, hnb, hnoraw, hcode, herroff⟩, heos, hfull⟩ := h.of_dispatch hst
  have hruns : s.litRem.toNat ≤ 128 ∧ s.repRem.toNat ≤ 129 := by simp [hnorle.2.2.2.1, hnorle.2.2.2.2.1]
  have ⟨hcnt, hbuf, hpb, _, _⟩ := hnoraw
  obtain ⟨hkeys, hle, hcntoff, -, hwshort, -, -⟩ := h.header
  obtain ⟨hread, hend, -, -, hlimit⟩ := h.stream
  by_cases hw : w = 0
  · rw [rawEntry_zero (s := latchFields w x false s) hw]
    exact
      { fresh := freshInv_of_ne nofun nofun nofun
        header := ⟨hkeys, hle, hcntoff, nofun, hwshort, nofun, nofun⟩
        stream := ⟨hread, hend, nofun, nofun, hlimit⟩
        rle := ⟨nofun, nofun⟩
        runs := ⟨hruns.1, hruns.2, nofun, nofun, nofun, nofun⟩
        raw := rawInv_of_nb_zero nofun hnb
        offPath := fun _ => ⟨hnorle, fun _ => hnoraw⟩
        error := ⟨fun _ => ⟨nofun, rfl⟩, fun e => absurd rfl e⟩
        errorKind := ⟨nofun, nofun, nofun, fun _ => hw⟩
        ended := doneInv_of_not_done nofun hstop }
  · have hpos := rowLength_pos hw
    have hnb' : rowLength w ≠ 0 := fun e => by simp [e] at hpos
    rw [rawEntry_pos (s := latchFields w x false s) hw]
    exact
      { fresh := freshInv_of_ne nofun nofun nofun
        header := ⟨hkeys, hle, hcntoff, nofun, hwshort, fun _ e => (hfull e).1, nofun⟩
        stream := ⟨hread, hend, nofun, fun _ => heos, hlimit⟩
        rle := ⟨nofun, nofun⟩
        runs := ⟨hruns.1, hruns.2, nofun, nofun, nofun, nofun⟩
        raw := ⟨fun _ => hnb', fun _ => ⟨.inl rfl, ⟨rfl, hw, rfl, rfl, hpos, by simp [hbuf], by simp [hpb]⟩,
          fun _ => ⟨rfl, rfl⟩, fun e => (hfull e).1, fun _ e => by simp [(hfull e).2], nofun⟩⟩
        offPath := fun _ => ⟨hnorle, fun e => absurd e hnb'⟩
        error := errorInv_of_noError nofun hcode herroff
        errorKind := errorKindInv_of_noError hcode
        ended := doneInv_of_not_done nofun hstop }

end Sys2Proof.Machine
end

section
/-! PROOF. Every step keeps the invariant, the FSM's and the host's. -/

namespace Sys2Proof.Machine

/-! ### The host and the stream -/

/-- R42, R117: another stream keeps the invariant if the bytes consumed are still there and its end, once met, stays. -/
theorem Inv.withStream {s : State} (h : Inv s) {x : Stream} (hread : ∀ k < s.off, (x.byteAt k).isSome = true)
    (hend : ∀ e, s.stream.tail = .ends e → x.bytes.length = s.stream.bytes.length ∧ x.tail = .ends e) :
    Inv { s with stream := x } := by
  obtain ⟨hfresh, hheader, ⟨-, heos, hinside, hwarn, hlimit⟩, hrle, hruns, hraw, hoff, herror, hkind, hended⟩ := h
  obtain ⟨hshort, hfail, htrunc, hzero⟩ := hkind
  exact
    { fresh := (freshInv_iff _).mpr ((freshInv_iff s).mp hfresh)
      header := hheader
      stream := ⟨hread, fun he => ⟨(heos he).1.trans (hend _ (heos he).2).1.symm, (hend _ (heos he).2).2⟩, hinside, hwarn, hlimit⟩
      rle := hrle
      runs := hruns
      raw := hraw
      offPath := hoff
      error := herror
      errorKind := ⟨hshort,
        fun e => ⟨(hfail e).1, (hfail e).2.1.trans (hend _ (hfail e).2.2).1.symm, (hend _ (hfail e).2.2).2⟩, htrunc, hzero⟩
      ended := hended }

theorem Stream.supply_of_ends {x : Stream} {e : Terminator} (h : x.tail = .ends e) (a : Symbol) : x.supply a = x := by
  simp [Stream.supply, h]

/-- What was consumed stays, with the same bytes, under a supply. -/
theorem Stream.byteAt_supply_eq {x : Stream} {k : Nat} (a : Symbol) (h : (x.byteAt k).isSome = true) :
    (x.supply a).byteAt k = x.byteAt k := by
  obtain ⟨b, hb⟩ := Option.isSome_iff_exists.mp h
  rw [hb, Stream.byteAt_supply a hb]

theorem Inv.supply {s : State} (h : Inv s) (a : Symbol) : Inv { s with stream := s.stream.supply a } :=
  h.withStream (fun k hk => by rw [Stream.byteAt_supply_eq a (h.stream.1 k hk)]; exact h.stream.1 k hk)
    (fun e he => by rw [Stream.supply_of_ends he]; exact ⟨rfl, he⟩)

theorem Inv.alter {s : State} (h : Inv s) (k : Nat) (b : Byte) : Inv { s with stream := s.stream.alter k b } := by
  refine h.withStream (fun j hj => ?_) (fun e he => ⟨Stream.alter_length _ k b (by simp [he]), he⟩)
  rw [Stream.byteAt_alter]
  split
  · rfl
  · exact h.stream.1 j hj

/-! ### The FSM, state by state -/

/-- R74, R82, R89, R90, R91: a read error, in every state that consumes input. -/
theorem Inv.ioFailure {s : State} (h : Inv s) (hwants : wantsSymbol s.st = true) (ha : nextSymbol s = some .errSym) :
    Inv (Machine.raise .ioFailure s) := by
  obtain ⟨heos, hoff, htail⟩ := h.of_nextSymbol_err ha
  have hst : terminal s.st = false := by cases e : s.st <;> simp [e, wantsSymbol, terminal] at hwants ⊢
  refine h.raise (b := s.eos) hst nofun id h.stream.2.1 ?_
  exact ⟨nofun, fun _ => ⟨heos.trans (h.warnShort_eq_false heos).symm, hoff, htail⟩, nofun, nofun⟩

/-- R90, R91: a missing data byte. -/
theorem Inv.truncated {s : State} (h : Inv s) (hs : onRlePath s.st = true) (ha : nextSymbol s = some .endSym) :
    Inv (Machine.raise .truncatedStream (takeEnd s)) := by
  have hst : terminal s.st = false := by cases e : s.st <;> simp [e, onRlePath, terminal] at hs ⊢
  exact h.raise (b := true) hst nofun (fun _ => rfl) (fun _ => h.of_nextSymbol_end ha)
    ⟨nofun, nofun, fun _ => ⟨h.rle.1 hs, rfl⟩, nofun⟩

/-- R93: the bound check. -/
theorem Inv.boundCheck {s : State} (h : Inv s) (hst : s.st = .rleChk) : Inv (boundCheck s) := by
  have heos := h.eos_eq_false (by rw [hst]; rfl)
  by_cases hw : s.width = 0
  · rw [boundCheck_zero hw]
    exact h.raise (b := s.eos) (by rw [hst]; rfl) nofun id h.stream.2.1 ⟨nofun, nofun, nofun, fun _ => hw⟩
  · rcases Nat.lt_or_ge s.pos.toNat s.lim.toNat with hlt | hge
    · rw [boundCheck_goOn hw hlt]
      exact h.goOn hst hlt
    · rw [boundCheck_stop hw hge]
      exact h.finishRle (b := s.eos) (by rw [hst]; rfl) id h.stream.2.1 (fun _ => ⟨hw, hge⟩) nofun

/-- R73: HDR_SHORT where the host has asked for an error. -/
theorem exec_hdrShort_abort {s : State} (h : s.abortShort = true) :
    exec .hdrShort s = .next (raise .headerTooShort (takeEnd s)) := by
  simp [exec_hdrShort, execHdrShort, h]

/-- R73: HDR_SHORT where it has not. -/
theorem exec_hdrShort_warn {s : State} (h : s.abortShort = false) :
    exec .hdrShort s = .next { drawMissing (takeEnd s) with warnShort := true, st := .dispatch } := by
  simp [exec_hdrShort, execHdrShort, h]

/-- A step in HDR. -/
theorem Inv.exec_decodeHdr {s t : State} {a : Symbol} (h : Inv s) (hst : s.st = .hdr) (ha : nextSymbol s = some a)
    (ht : exec (decodeHdr a) s = .next t) : Inv t := by
  cases a with
  | byte b =>
    obtain ⟨hallowed, rfl⟩ := withByte_eq_next_iff.mp ht
    exact h.hdrByte hst (nextSymbol_byte_iff.mp ha).2 hallowed
  | errSym =>
    cases ht
    exact h.ioFailure (by rw [hst]; rfl) ha
  | endSym =>
    have hend := h.of_nextSymbol_end ha
    cases habort : s.abortShort with
    | false =>
      cases (exec_hdrShort_warn habort).symm.trans ht
      exact h.hdrShort hst habort hend
    | true =>
      cases (exec_hdrShort_abort habort).symm.trans ht
      obtain ⟨-, -, -, -, hlt, hoff⟩ := h.of_hdr hst
      have hoff64 : s.off < 64 := hoff ▸ hlt
      exact h.raise (b := true) (by rw [hst]; rfl) nofun (fun _ => rfl) (fun _ => hend)
        ⟨fun _ => ⟨habort, rfl, hoff64⟩, nofun, nofun, nofun⟩

/-- A step in DISPATCH. -/
theorem Inv.exec_decodeDispatch {s t : State} {l : List Byte} (h : Inv s) (hst : s.st = .dispatch)
    (ht : exec (decodeDispatch l) s = .next t) : Inv t := by
  unfold decodeDispatch at ht
  split at ht
  · cases ht; exact h.rleEntry hst _ _
  · cases ht; exact h.rawEntry hst _ _

/-- A step in RLE_CTRL. -/
theorem Inv.exec_decodeCtrl {s t : State} {a : Symbol} (h : Inv s) (hst : s.st = .rleCtrl) (ha : nextSymbol s = some a)
    (ht : exec (decodeCtrl a) s = .next t) : Inv t := by
  have hs : onRlePath s.st = true := by rw [hst]; rfl
  cases a with
  | byte c =>
    obtain ⟨heos, hb⟩ := nextSymbol_byte_iff.mp ha
    rw [decodeCtrl_byte] at ht
    split at ht
    next hc =>
      obtain ⟨hallowed, rfl⟩ := withByte_eq_next_iff.mp ht
      exact h.litStart hst heos hb hallowed hc
    next hc =>
      obtain ⟨hallowed, rfl⟩ := withByte_eq_next_iff.mp ht
      exact h.repStart hst heos hb hallowed (Nat.le_of_not_lt hc)
  | endSym =>
    cases ht
    exact h.finishRle (b := true) (c := s.boundsStop) hs (fun _ => rfl) (fun _ => h.of_nextSymbol_end ha)
      (fun hb => by simp [h.boundsStop_eq_false (by simp [hst])] at hb) (fun _ => rfl)
  | errSym =>
    cases ht
    exact h.ioFailure (by rw [hst]; rfl) ha

/-- A step that waits for a data byte, in RLE_LIT or RLE_REPD. -/
theorem Inv.onData {s t : State} {a : Symbol} {k : Byte → State → State} (h : Inv s) (hs : onRlePath s.st = true)
    (hwants : wantsSymbol s.st = true) (ha : nextSymbol s = some a)
    (hk : ∀ d, s.stream.byteAt s.off = some d → ByteAllowed s → Inv (k d { s with off := s.off + 1 }))
    (ht : onData a k s = .next t) : Inv t := by
  rcases onData_eq_next_iff.mp ht with ⟨d, rfl, hallowed, rfl⟩ | ⟨rfl, rfl⟩ | ⟨rfl, rfl⟩
  · exact hk d (nextSymbol_byte_iff.mp ha).2 hallowed
  · exact h.truncated hs ha
  · exact h.ioFailure hwants ha

/-- A step in RAW_ROW. -/
theorem Inv.exec_decodeRaw {s t : State} {a : Symbol} (h : Inv s) (hst : s.st = .rawRow) (ha : nextSymbol s = some a)
    (ht : exec (decodeRaw a) s = .next t) : Inv t := by
  cases a with
  | byte b =>
    obtain ⟨heos, hb⟩ := nextSymbol_byte_iff.mp ha
    obtain ⟨hallowed, rfl⟩ := execRawByte_eq_next_iff.mp ht
    have hcnt : s.rowCnt.toNat + 1 < 16384 := by
      obtain ⟨-, ⟨-, -, -, -, hlt, -⟩, -⟩ := h.raw.2 (h.raw.1 hst)
      have := s.nb.isLt
      omega
    simp only [rowFull_succ_iff hcnt]
    split
    next hrow => exact h.commitRow hst heos hb hallowed hrow
    next hrow => exact h.captureRowByte hst heos hb hallowed hrow
  | endSym =>
    cases ht
    exact h.rawEnd hst (h.of_nextSymbol_end ha)
  | errSym =>
    cases ht
    exact h.ioFailure (by rw [hst]; rfl) ha

/-- Every step of the FSM keeps the invariant. -/
theorem Inv.fsmStep {s t : State} (h : Inv s) (ht : fsmStep s = .next t) : Inv t := by
  rcases fsmStep_cases s with ⟨-, e⟩ | ⟨-, -, e⟩ | ⟨hst, a, ha, e⟩ | ⟨hst, e⟩ | ⟨hst, a, ha, e⟩ | ⟨hst, a, ha, e⟩ |
    ⟨hst, a, ha, e⟩ | ⟨hst, e⟩ | ⟨hst, e⟩ | ⟨hst, a, ha, e⟩ <;> rw [e] at ht
  case inl => cases ht; exact h
  case inr.inl => cases ht; exact h
  · exact h.exec_decodeHdr hst ha ht
  · exact h.exec_decodeDispatch hst ht
  · exact h.exec_decodeCtrl hst ha ht
  · exact h.onData (by rw [hst]; rfl) (by rw [hst]; rfl) ha (fun _ hb hallowed => h.litByte hst hb hallowed) ht
  · exact h.onData (by rw [hst]; rfl) (by rw [hst]; rfl) ha (fun _ hb hallowed => h.repByte hst hb hallowed) ht
  · cases ht; exact h.replayOnce hst
  · cases ht; exact h.boundCheck hst
  · exact h.exec_decodeRaw hst ha ht

/-- Every move of the host keeps it too. -/
theorem Inv.hostMove {s t : State} (h : Inv s) (e : HostEvent) (ht : hostMove e s = .next t) : Inv t := by
  cases e with
  | reset => cases ht; exact inv_hostReset s
  | start a x => cases ht; exact h.hostStart a x
  | supply a => cases ht; exact h.supply a
  | alter k b => cases ht; exact h.alter k b
  | run => exact h.fsmStep ht

theorem Inv.step {s t : State} (h : Inv s) (ht : step s = .next t) : Inv t := by
  rcases step_cases s with ⟨-, e⟩ | ⟨e, rest, -, hmove⟩
  · exact h.fsmStep (e.symm.trans ht)
  · exact (h.withHost rest).hostMove e (hmove.symm.trans ht)

/-- Settles O46: a step is a move of the host or one of the FSM's, and each keeps the invariant. -/
theorem stepKeepsTheInvariant : Obligations.StepKeepsTheInvariant := fun _ _ h ht => h.step ht

/-- Settles O45: the reset state is what `reset` leaves of itself, and it holds no pixel. -/
theorem resetMeetsTheInvariant : Obligations.ResetMeetsTheInvariant :=
  ⟨inv_hostReset State.reset, ⟨nofun, fun _ => ⟨nofun, nofun⟩⟩, ⟨nofun, nofun⟩⟩

end Sys2Proof.Machine
end

section
/-! PROOF. What the operations leave unchanged, and what they do not read (R17, R20, R21, R28, R36, R48, R57, R83, R95, R102). -/

namespace Sys2Proof.Machine

/-! ### The two shared operations that branch, field by field -/

/-- R93: whatever it decides, the bound check changes four registers at most. -/
theorem boundCheck_eq (s : State) : boundCheck s =
    { s with boundsStop := (boundCheck s).boundsStop, errCode := (boundCheck s).errCode, errOff := (boundCheck s).errOff,
             st := (boundCheck s).st } := by
  unfold boundCheck
  split
  · rfl
  · split <;> rfl

/-- R78: what the raw entry changes, with the error of a zero width or without. -/
theorem rawEntry_eq (s : State) : rawEntry s =
    { s with nb := (rawEntry s).nb, rowCnt := (rawEntry s).rowCnt, pbCols := (rawEntry s).pbCols, pbRows := (rawEntry s).pbRows,
             errCode := (rawEntry s).errCode, errOff := (rawEntry s).errOff, st := (rawEntry s).st } := by
  unfold rawEntry
  split <;> rfl

@[simp] theorem boundCheck_stream (s : State) : (boundCheck s).stream = s.stream := by rw [boundCheck_eq]
@[simp] theorem boundCheck_host (s : State) : (boundCheck s).host = s.host := by rw [boundCheck_eq]
@[simp] theorem boundCheck_cfg (s : State) : (boundCheck s).cfg = s.cfg := by rw [boundCheck_eq]
@[simp] theorem boundCheck_width (s : State) : (boundCheck s).width = s.width := by rw [boundCheck_eq]
@[simp] theorem boundCheck_height (s : State) : (boundCheck s).height = s.height := by rw [boundCheck_eq]
@[simp] theorem boundCheck_compressed (s : State) : (boundCheck s).compressed = s.compressed := by rw [boundCheck_eq]
@[simp] theorem boundCheck_eos (s : State) : (boundCheck s).eos = s.eos := by rw [boundCheck_eq]
@[simp] theorem boundCheck_warnShort (s : State) : (boundCheck s).warnShort = s.warnShort := by rw [boundCheck_eq]
@[simp] theorem boundCheck_abortShort (s : State) : (boundCheck s).abortShort = s.abortShort := by rw [boundCheck_eq]
@[simp] theorem boundCheck_off (s : State) : (boundCheck s).off = s.off := by rw [boundCheck_eq]
@[simp] theorem boundCheck_pos (s : State) : (boundCheck s).pos = s.pos := by rw [boundCheck_eq]
@[simp] theorem boundCheck_pb (s : State) : (boundCheck s).pb = s.pb := by rw [boundCheck_eq]

@[simp] theorem rawEntry_stream (s : State) : (rawEntry s).stream = s.stream := by rw [rawEntry_eq]
@[simp] theorem rawEntry_host (s : State) : (rawEntry s).host = s.host := by rw [rawEntry_eq]
@[simp] theorem rawEntry_cfg (s : State) : (rawEntry s).cfg = s.cfg := by rw [rawEntry_eq]
@[simp] theorem rawEntry_width (s : State) : (rawEntry s).width = s.width := by rw [rawEntry_eq]
@[simp] theorem rawEntry_height (s : State) : (rawEntry s).height = s.height := by rw [rawEntry_eq]
@[simp] theorem rawEntry_compressed (s : State) : (rawEntry s).compressed = s.compressed := by rw [rawEntry_eq]
@[simp] theorem rawEntry_eos (s : State) : (rawEntry s).eos = s.eos := by rw [rawEntry_eq]
@[simp] theorem rawEntry_warnShort (s : State) : (rawEntry s).warnShort = s.warnShort := by rw [rawEntry_eq]
@[simp] theorem rawEntry_abortShort (s : State) : (rawEntry s).abortShort = s.abortShort := by rw [rawEntry_eq]
@[simp] theorem rawEntry_off (s : State) : (rawEntry s).off = s.off := by rw [rawEntry_eq]
@[simp] theorem rawEntry_boundsStop (s : State) : (rawEntry s).boundsStop = s.boundsStop := by rw [rawEntry_eq]
@[simp] theorem rawEntry_pb (s : State) : (rawEntry s).pb = s.pb := by rw [rawEntry_eq]

/-- R28: the bound check does not clear `bounds_stop`. -/
theorem boundCheck_boundsStop {s : State} (h : s.boundsStop = true) : (boundCheck s).boundsStop = true := by
  unfold boundCheck
  split
  · exact h
  · split
    · rfl
    · exact h

/-! ### Registers an operation leaves unchanged -/

/-- What every operation leaves unchanged: the stream, the pending moves, the parameters and `abort_short`; and it clears none
of the three latches (R17, R20, R28, R36, R57). -/
theorem exec_frame {i : Instr} {s t : State} (h : exec i s = .next t) :
    (t.stream = s.stream ∧ t.host = s.host ∧ t.cfg = s.cfg) ∧ t.abortShort = s.abortShort ∧
    (s.eos = true → t.eos = true) ∧ (s.boundsStop = true → t.boundsStop = true) ∧ (s.warnShort = true → t.warnShort = true) := by
  rcases exec_next_cases h with ⟨b, -, rfl⟩ | ⟨-, -, rfl⟩ | ⟨-, -, rfl⟩ | ⟨-, rfl⟩ | ⟨w, x, -, rfl⟩ | ⟨w, x, -, rfl⟩ |
    ⟨c, -, rfl⟩ | ⟨d, -, rfl⟩ | ⟨-, rfl⟩ | ⟨c, -, rfl⟩ | ⟨d, -, rfl⟩ | ⟨-, rfl⟩ | ⟨-, rfl⟩ | ⟨-, rfl⟩ | ⟨b, -, rfl⟩ | ⟨-, rfl⟩
  all_goals simp +contextual [apply_ite State.stream, apply_ite State.host, apply_ite State.cfg, apply_ite State.abortShort,
    apply_ite State.eos, apply_ite State.boundsStop, apply_ite State.warnShort, boundCheck_boundsStop]

/-- Settles O34: no operation has the stream, the pending moves or the parameters among the fields it sets. -/
theorem operationsNeverWriteTheStream : Obligations.OperationsNeverWriteTheStream := fun _ _ _ h => (exec_frame h).1

/-- Settles O36: of the operations left, none has one of the three fields among those it sets. -/
theorem fieldsLatchedOnlyAtDispatch : Obligations.FieldsLatchedOnlyAtDispatch := by
  intro i s t hrle hraw h
  rcases exec_next_cases h with ⟨b, -, rfl⟩ | ⟨-, -, rfl⟩ | ⟨-, -, rfl⟩ | ⟨-, rfl⟩ | ⟨w, x, hi, -⟩ | ⟨w, x, hi, -⟩ |
    ⟨c, -, rfl⟩ | ⟨d, -, rfl⟩ | ⟨-, rfl⟩ | ⟨c, -, rfl⟩ | ⟨d, -, rfl⟩ | ⟨-, rfl⟩ | ⟨-, rfl⟩ | ⟨-, rfl⟩ | ⟨b, -, rfl⟩ | ⟨-, rfl⟩
  pick_goal 5
  · exact absurd hi (hrle w x)
  pick_goal 5
  · exact absurd hi (hraw w x)
  all_goals simp [apply_ite State.width, apply_ite State.height, apply_ite State.compressed]

/-- Settles O37: where an operation sets one of the latches, it sets it to 1. -/
theorem latchesAreNeverCleared : Obligations.LatchesAreNeverCleared := fun _ _ _ h => (exec_frame h).2.2

/-- Settles O38: every other operation leaves `pb` itself. -/
theorem onlyPixelStepsWritePixels : Obligations.OnlyPixelStepsWritePixels := by
  intro i s t h hpb
  rcases exec_next_cases h with ⟨b, -, rfl⟩ | ⟨-, -, rfl⟩ | ⟨-, -, rfl⟩ | ⟨-, rfl⟩ | ⟨w, x, -, rfl⟩ | ⟨w, x, -, rfl⟩ |
    ⟨c, -, rfl⟩ | ⟨d, hi, -⟩ | ⟨-, rfl⟩ | ⟨c, -, rfl⟩ | ⟨d, -, rfl⟩ | ⟨hi, -⟩ | ⟨-, rfl⟩ | ⟨-, rfl⟩ | ⟨b, hi, -⟩ | ⟨-, rfl⟩
  exacts [absurd rfl hpb, absurd rfl hpb, absurd rfl hpb, absurd rfl hpb, absurd rfl hpb, absurd (rawEntry_pb _) hpb,
    absurd rfl hpb, .inl ⟨d, hi⟩, absurd rfl hpb, absurd rfl hpb, absurd rfl hpb, .inr (.inl hi), absurd rfl hpb,
    absurd (boundCheck_pb s) hpb, .inr (.inr ⟨b, hi⟩), absurd rfl hpb]

/-- R93: the bound check ends in ERR only by raising ZERO_WIDTH. -/
theorem boundCheck_of_st_err {s : State} (h : (boundCheck s).st = .err) : boundCheck s = raise .zeroWidth s := by
  by_cases hw : s.width = 0
  · exact boundCheck_zero hw
  · rcases Nat.lt_or_ge s.pos.toNat s.lim.toNat with hlt | hge
    · rw [boundCheck_goOn hw hlt] at h
      cases h
    · rw [boundCheck_stop hw hge] at h
      cases h

/-- R79: a row byte leaves the FSM in RAW_ROW, whether the row is full or not. -/
theorem rawByte_st (b : Byte) (s : State) (full : Bool) :
    (if full then commitRow (captureRowByte b s) else captureRowByte b s).st = .rawRow := by
  cases full <;> rfl

/-- Settles O39: an operation ends in ERR only through `raise`, on the state it began in but for `eos`. -/
theorem errorsArePrecise : Obligations.ErrorsArePrecise := by
  intro i s t hraw h hst
  rcases exec_next_cases h with ⟨b, -, rfl⟩ | ⟨-, -, rfl⟩ | ⟨-, -, rfl⟩ | ⟨-, rfl⟩ | ⟨w, x, -, rfl⟩ | ⟨w, x, hi, -⟩ |
    ⟨c, -, rfl⟩ | ⟨d, -, rfl⟩ | ⟨-, rfl⟩ | ⟨c, -, rfl⟩ | ⟨d, -, rfl⟩ | ⟨-, rfl⟩ | ⟨-, rfl⟩ | ⟨-, rfl⟩ | ⟨b, -, rfl⟩ | ⟨-, rfl⟩
  · split at hst <;> cases hst
  · exact ⟨rfl, nofun, fun _ => .inl rfl⟩
  · cases hst
  · exact ⟨rfl, nofun, fun hne => absurd rfl hne⟩
  · cases hst
  · exact absurd hi (hraw w x)
  · cases hst
  · simp only [litByte_st] at hst
    split at hst <;> cases hst
  · exact ⟨rfl, nofun, fun _ => .inr rfl⟩
  · cases hst
  · cases hst
  · simp only [replayOnce_st] at hst
    split at hst <;> cases hst
  · cases hst
  · rw [boundCheck_of_st_err hst]
    exact ⟨rfl, nofun, fun hne => absurd rfl hne⟩
  · cases (rawByte_st b _ _).symm.trans hst
  · cases hst

/-! ### Registers an operation does not read -/

/-- If `k` and the change `f` of a register commute, and `f` touches neither `off` nor the parameters, an operation that
consumes a byte and goes on with `k` does not read that register. -/
theorem withByte_map {s t : State} {k f : State → State} (hcfg : (f s).cfg = s.cfg) (hoff : (f s).off = s.off)
    (hk : k { f s with off := s.off + 1 } = f (k { s with off := s.off + 1 })) (h : withByte s k = .next t) :
    withByte (f s) k = .next (f t) := by
  obtain ⟨ha, rfl⟩ := withByte_eq_next_iff.mp h
  exact withByte_eq_next_iff.mpr ⟨by rw [hcfg, hoff]; exact ha, by rw [hoff, hk]⟩

/-- The same where a data byte is due: `End` and `Err` read nothing but `off`. -/
theorem onData_map {s t : State} {k : Byte → State → State} {f : State → State} {a : Symbol} (hcfg : (f s).cfg = s.cfg)
    (hoff : (f s).off = s.off) (hk : ∀ d, k d { f s with off := s.off + 1 } = f (k d { s with off := s.off + 1 }))
    (hend : raise .truncatedStream (takeEnd (f s)) = f (raise .truncatedStream (takeEnd s)))
    (herr : raise .ioFailure (f s) = f (raise .ioFailure s)) (h : onData a k s = .next t) : onData a k (f s) = .next (f t) := by
  cases a with
  | byte d => exact withByte_map hcfg hoff (hk d) h
  | endSym => cases h; exact congrArg Host.Outcome.next hend
  | errSym => cases h; exact congrArg Host.Outcome.next herr

/-- A changed `abort_short`. -/
def setAbortShort (v : Bool) (s : State) : State := { s with abortShort := v }

/-- A changed `height`. -/
def setHeight (h : Field) (s : State) : State := { s with height := h }

theorem rawEntry_setAbortShort (v : Bool) (s : State) : rawEntry (setAbortShort v s) = setAbortShort v (rawEntry s) := by
  unfold rawEntry
  rw [apply_ite (setAbortShort v)]
  rfl

theorem boundCheck_setAbortShort (v : Bool) (s : State) : boundCheck (setAbortShort v s) = setAbortShort v (boundCheck s) := by
  unfold boundCheck
  rw [apply_ite (setAbortShort v), apply_ite (setAbortShort v)]
  rfl

/-- Settles O35: every operation but HDR_SHORT commutes with a change of `abort_short`. -/
theorem onlyShortHeaderReadsAbortShort : Obligations.OnlyShortHeaderReadsAbortShort := by
  intro i s t v hi h
  refine ⟨(exec_frame h).2.1, ?_⟩
  change exec i (setAbortShort v s) = .next (setAbortShort v t)
  cases i with
  | hdrShort => exact absurd rfl hi
  | hdrByte b => exact withByte_map rfl rfl rfl h
  | hdrErr => cases h; rfl
  | selRle w x => cases h; rfl
  | selRaw w x => cases h; exact congrArg Host.Outcome.next (rawEntry_setAbortShort v (latchFields w x false s))
  | rleLit p =>
    cases p with
    | ctrl c => exact withByte_map rfl rfl rfl h
    | data a => exact onData_map rfl rfl (fun _ => rfl) rfl rfl h
  | rleRep p =>
    cases p with
    | ctrl c => exact withByte_map rfl rfl rfl h
    | data a => exact onData_map rfl rfl (fun _ => rfl) rfl rfl h
    | replay => cases h; rfl
  | rleEnd => cases h; rfl
  | rleCtrlErr => cases h; rfl
  | rleChk => cases h; exact congrArg Host.Outcome.next (boundCheck_setAbortShort v s)
  | rawByte b => exact withByte_map rfl rfl (by rw [apply_ite (setAbortShort v)]; rfl) h
  | rawEnd => cases h; rfl
  | rawErr => cases h; rfl

/-- Settles O31: the three operations of the raw path commute with a change of `height`. -/
theorem rawPathIgnoresHeight : Obligations.RawPathIgnoresHeight := by
  intro s t b x i hi h
  change exec i (setHeight x s) = .next (setHeight x t)
  simp only [List.mem_cons, List.not_mem_nil, or_false] at hi
  rcases hi with rfl | rfl | rfl
  · exact withByte_map rfl rfl (by rw [apply_ite (setHeight x)]; rfl) h
  · cases h; rfl
  · cases h; rfl

/-! ### The RLE path's write gate -/

/-- R86: a group drops every pixel at or past `lim`. -/
theorem read_rleWrite8_of_lim_le (d : Byte) {s : State} {c : Nat} (h : s.lim.toNat ≤ c) :
    Memory.read (rleWrite8 d s).pb c = Memory.read s.pb c := by
  rw [read_rleWrite8, if_neg (by omega)]

/-- Settles O25: the literal data byte and the replay write one gated group, the other operations leave `pb`. -/
theorem noCellAtOrPastLimWritten : Obligations.NoCellAtOrPastLimWritten := by
  intro s t p q i hi h c hc
  by_cases hpb : t.pb = s.pb
  · rw [hpb]
  · rcases onlyPixelStepsWritePixels i s t h hpb with ⟨d, rfl⟩ | rfl | ⟨b, rfl⟩
    · obtain ⟨-, rfl⟩ := withByte_eq_next_iff.mp h
      exact read_rleWrite8_of_lim_le d (s := { s with off := s.off + 1 }) hc
    · cases h
      exact read_rleWrite8_of_lim_le s.pat hc
    · simp at hi

end Sys2Proof.Machine
end

section
/-! PROOF. The raw image: every cell a raw decode has written is the bit of the stream that R80 names (R79 to R81,
95_test_vectors.md E5). -/

namespace Sys2Proof.Machine

/-! ### What the image says of the stores -/

/-- What `RawImage` says of the stores on the raw path. -/
def RawCells (s : State) : Prop :=
  (∀ y < s.pbRows, ∀ x < s.width.toNat,
    Memory.read s.pb (y * s.width.toNat + x) = streamPixel s.stream (64 + y * s.nb.toNat + x / 8) (x % 8)) ∧
  (∀ j < s.rowCnt.toNat, Memory.read s.rowbuf j = s.stream.byteAt (64 + s.pbRows * s.nb.toNat + j))

theorem rawImage_iff {s : State} : RawImage s ↔ HostKeepsStream s ∧ (s.compressed = false → RawCells s) := Iff.rfl

/-- Before the first row byte there is nothing to say. -/
theorem rawCells_of_no_rows {s : State} (hrows : s.pbRows = 0) (hcnt : s.rowCnt = 0) : RawCells s := by
  simp [RawCells, hrows, hcnt]

/-! ### The bytes of the rows -/

/-- Index `x` of row `y`, among those of the rows before `rows`. -/
theorem row_index_lt {n x y rows : Nat} (hx : x < n) (hy : y < rows) : y * n + x < rows * n :=
  calc y * n + x < y * n + n := Nat.add_lt_add_left hx _
    _ = (y + 1) * n := (Nat.succ_mul y n).symm
    _ ≤ rows * n := Nat.mul_le_mul_right n hy

/-- R66: the byte of column `x` is one of the row's. -/
theorem Inv.column_byte_lt {s : State} (h : Inv s) (hnb : s.nb ≠ 0) {x : Nat} (hx : x < s.width.toNat) : x / 8 < s.nb.toNat := by
  obtain ⟨-, ⟨-, -, hlen, -⟩, -⟩ := h.raw.2 hnb
  rw [hlen, rowLength_toNat]
  omega

/-- The bytes of the rows committed and of the row under way have all been consumed. -/
theorem Inv.rows_le_off {s : State} (h : Inv s) (hnb : s.nb ≠ 0) :
    (s.pbRows = 0 ∧ s.rowCnt = 0) ∨ 64 + s.pbRows * s.nb.toNat + s.rowCnt.toNat ≤ s.off := by
  obtain ⟨-, ⟨hcompressed, -⟩, hshort, -, hread, hdone⟩ := h.raw.2 hnb
  cases hw : s.warnShort with
  | true => exact .inl (hshort hw)
  | false =>
    right
    by_cases e : s.st = .done
    · obtain ⟨-, -, hcnt⟩ := h.ended.2.2 e hcompressed
      rw [hcnt]
      exact (hdone e hw).1
    · exact (hread e hw).ge

/-- The image so far rests on consumed bytes alone. -/
theorem rawCells_withStream {s : State} (h : Inv s) (hc : s.compressed = false) {x : Stream}
    (hx : ∀ k < s.off, x.byteAt k = s.stream.byteAt k) (himg : RawCells s) : RawCells { s with stream := x } := by
  by_cases hnb : s.nb = 0
  · obtain ⟨hcnt, -, -, hrows, -⟩ := (h.offPath hc).2 hnb
    exact rawCells_of_no_rows hrows hcnt
  · rcases h.rows_le_off hnb with ⟨hrows, hcnt⟩ | hread
    · exact rawCells_of_no_rows hrows hcnt
    · refine ⟨fun y (hy : y < s.pbRows) c hcol => ?_, fun j (hj : j < s.rowCnt.toNat) => ?_⟩
      · have hlt := row_index_lt (h.column_byte_lt hnb hcol) hy
        have hbyte := hx (64 + y * s.nb.toNat + c / 8) (by omega)
        exact (himg.1 y hy c hcol).trans (congrArg (Option.map _) hbyte.symm)
      · exact (himg.2 j hj).trans (hx _ (by omega)).symm

/-! ### The steps that change the stores -/

/-- R79: a row byte held. -/
theorem rawCells_captureRowByte {s : State} {b : Byte} (hoff : s.off = 64 + s.pbRows * s.nb.toNat + s.rowCnt.toNat)
    (hb : s.stream.byteAt s.off = some b) (hcnt : s.rowCnt.toNat + 1 < 16384) (himg : RawCells s) :
    RawCells (captureRowByte b { s with off := s.off + 1 }) := by
  refine ⟨himg.1, fun j hj => ?_⟩
  have hj : j < s.rowCnt.toNat + 1 := captureRowByte_rowCnt_toNat b (s := { s with off := s.off + 1 }) hcnt ▸ hj
  rw [captureRowByte_rowbuf, Memory.read_write]
  split
  next e =>
    subst e
    exact hb.symm.trans (congrArg s.stream.byteAt hoff)
  next hne => exact himg.2 j (Nat.lt_of_le_of_ne (Nat.le_of_lt_succ hj) hne)

/-- R79, R80: a row committed. -/
theorem rawCells_commitRow {s : State} {b : Byte} (h : Inv s) (hst : s.st = .rawRow)
    (hoff : s.off = 64 + s.pbRows * s.nb.toNat + s.rowCnt.toNat)
    (hb : s.stream.byteAt s.off = some b) (hrow : s.rowCnt.toNat + 1 = s.nb.toNat) (himg : RawCells s) :
    RawCells (commitRow (captureRowByte b { s with off := s.off + 1 })) := by
  have hnb := h.raw.1 hst
  have hsome (j : Nat) (hj : j ≤ s.rowCnt.toNat) : ∃ d, s.stream.byteAt (64 + s.pbRows * s.nb.toNat + j) = some d :=
    Option.isSome_iff_exists.mp (byteAt_isSome_below_succ h.stream.1 hb _ (by omega))
  choose! r hr using hsome
  have hlast : r s.rowCnt.toNat = b := Option.some.inj ((hr _ le_rfl).symm.trans (hoff ▸ hb))
  have hbuf (j : Nat) (hj : j < s.rowCnt.toNat) : Memory.read s.rowbuf j = some (r j) := (himg.2 j hj).trans (hr j hj.le)
  refine ⟨fun y hy x hx => ?_, nofun⟩
  obtain hlt | rfl : y < s.pbRows ∨ y = s.pbRows := Nat.lt_succ_iff_lt_or_eq.mp hy
  · refine Eq.trans ?_ (himg.1 y hlt x hx)
    exact read_commitRow_pb_of_outside (s := captureRowByte b { s with off := s.off + 1 }) (.inl (row_index_lt hx hlt))
  · have hcol := h.column_byte_lt hnb hx
    have hwidth : s.width.toNat ≤ 8 * (s.rowCnt.toNat + 1) := by
      obtain ⟨-, ⟨-, -, hlen, -⟩, -⟩ := h.raw.2 hnb
      rw [hrow, hlen, rowLength_toNat]
      omega
    have hbyte := hr (x / 8) (by omega)
    exact (read_commitRow_captureRowByte_pb (s := { s with off := s.off + 1 }) hwidth hbuf hlast hx).trans
      (congrArg (Option.map fun d => pixelOf d (x % 8)) hbyte).symm

/-! ### Every step -/

/-- An operation of the raw path keeps the image. -/
theorem rawCells_decodeRaw {s t : State} {a : Symbol} (h : Inv s) (hst : s.st = .rawRow) (ha : nextSymbol s = some a)
    (himg : RawCells s) (ht : exec (decodeRaw a) s = .next t) : RawCells t := by
  cases a with
  | errSym => cases ht; exact himg
  | endSym => cases ht; exact ⟨himg.1, nofun⟩
  | byte b =>
    obtain ⟨heos, hb⟩ := nextSymbol_byte_iff.mp ha
    obtain ⟨-, ⟨-, -, -, -, hlt, -⟩, -, -, hread, -⟩ := h.raw.2 (h.raw.1 hst)
    have hoff := hread (by simp [hst]) (h.warnShort_eq_false heos)
    have hcnt : s.rowCnt.toNat + 1 < 16384 := by have := s.nb.isLt; omega
    obtain ⟨-, rfl⟩ := execRawByte_eq_next_iff.mp ht
    simp only [rowFull_succ_iff hcnt]
    split
    next hrow => exact rawCells_commitRow h hst hoff hb hrow himg
    next => exact rawCells_captureRowByte hoff hb hcnt himg

/-- R78: the raw path is entered with no row. -/
theorem rawCells_decodeDispatch {s t : State} {l : List Byte} (h : Inv s) (hst : s.st = .dispatch)
    (hc : t.compressed = false) (ht : exec (decodeDispatch l) s = .next t) : RawCells t := by
  unfold decodeDispatch at ht
  split at ht
  · cases ht
    cases hc
  · cases ht
    obtain ⟨⟨-, -, -, -, -, -, ⟨hcnt, -, -, hrows, -⟩, -⟩, -⟩ := h.of_dispatch hst
    by_cases hw : hdrWidth l = 0
    · rw [rawEntry_zero (s := latchFields (hdrWidth l) (hdrHeight l) false s) hw]
      exact rawCells_of_no_rows hrows hcnt
    · rw [rawEntry_pos (s := latchFields (hdrWidth l) (hdrHeight l) false s) hw]
      exact rawCells_of_no_rows rfl rfl

/-- In the header no row is committed, whatever comes. -/
theorem rawCells_decodeHdr {s t : State} {a : Symbol} (h : Inv s) (hst : s.st = .hdr)
    (ht : exec (decodeHdr a) s = .next t) : RawCells t := by
  obtain ⟨⟨-, -, -, -, -, -, ⟨hcnt, -, -, hrows, -⟩, -⟩, -⟩ := h.of_hdr hst
  cases a with
  | byte b =>
    obtain ⟨-, rfl⟩ := withByte_eq_next_iff.mp ht
    exact rawCells_of_no_rows hrows hcnt
  | errSym =>
    cases ht
    exact rawCells_of_no_rows hrows hcnt
  | endSym =>
    cases habort : s.abortShort with
    | false => cases (exec_hdrShort_warn habort).symm.trans ht; exact rawCells_of_no_rows hrows hcnt
    | true => cases (exec_hdrShort_abort habort).symm.trans ht; exact rawCells_of_no_rows hrows hcnt

/-- A step of the FSM is none, in a terminal state and in a hold, or is the operation that its state decodes. -/
theorem fsmStep_next_cases {s t : State} (h : fsmStep s = .next t) :
    (t = s ∧ (terminal s.st = true ∨ fetch s = none)) ∨ ∃ u i, fetch s = some u ∧ decode s.st u = .ok i ∧ exec i s = .next t := by
  unfold fsmStep at h
  split at h
  next hst => cases h; exact .inl ⟨rfl, .inl hst⟩
  · split at h
    next hu => cases h; exact .inl ⟨rfl, .inr hu⟩
    next u hu =>
      unfold runUnit at h
      split at h
      next i hi => exact .inr ⟨u, i, hu, hi, h⟩
      next => cases h

/-- R21, R67: outside DISPATCH the FSM selects no operation that writes the three fields. -/
theorem fsmStep_fields {s t : State} (hst : s.st ≠ .dispatch) (h : fsmStep s = .next t) :
    t.width = s.width ∧ t.height = s.height ∧ t.compressed = s.compressed := by
  rcases fsmStep_next_cases h with ⟨rfl, -⟩ | ⟨u, i, -, hi, ht⟩
  · exact ⟨rfl, rfl, rfl⟩
  · obtain ⟨-, hplace, -⟩ := decodedBelongsToItsState _ _ _ hi
    exact fieldsLatchedOnlyAtDispatch i s t (by rintro w x rfl; exact hst hplace.symm)
      (by rintro w x rfl; exact hst hplace.symm) ht

/-- Every step of the FSM keeps what the image says on the raw path. -/
theorem rawCells_fsmStep {s t : State} (h : Inv s) (himg : s.compressed = false → RawCells s) (ht : fsmStep s = .next t)
    (hc : t.compressed = false) : RawCells t := by
  by_cases hs : onRlePath s.st = true
  · obtain ⟨-, -, e⟩ := fsmStep_fields (ne_of_onRlePath hs).2.2.1 ht
    exact absurd ((h.rle.1 hs).symm.trans (e.symm.trans hc)) nofun
  · rcases fsmStep_cases s with ⟨-, e⟩ | ⟨-, -, e⟩ | ⟨hst, a, ha, e⟩ | ⟨hst, e⟩ | ⟨hst, -⟩ | ⟨hst, -⟩ | ⟨hst, -⟩ | ⟨hst, -⟩ |
      ⟨hst, -⟩ | ⟨hst, a, ha, e⟩
    · cases e.symm.trans ht; exact himg hc
    · cases e.symm.trans ht; exact himg hc
    · exact rawCells_decodeHdr h hst (e.symm.trans ht)
    · exact rawCells_decodeDispatch h hst hc (e.symm.trans ht)
    iterate 5 exact absurd (by rw [hst]; rfl) hs
    · obtain ⟨-, ⟨hcompressed, -⟩, -⟩ := h.raw.2 (h.raw.1 hst)
      exact rawCells_decodeRaw h hst ha (himg hcompressed) (e.symm.trans ht)

/-! ### The host -/

/-- R57: the FSM leaves the host's pending moves and the stream. -/
theorem fsmStep_env {s t : State} (h : fsmStep s = .next t) : t.stream = s.stream ∧ t.host = s.host ∧ t.cfg = s.cfg := by
  rcases fsmStep_next_cases h with ⟨rfl, -⟩ | ⟨u, i, -, -, ht⟩
  · exact ⟨rfl, rfl, rfl⟩
  · exact operationsNeverWriteTheStream i s t ht

/-- What a step can be while the host leaves the stream's bytes alone: the FSM's step or none, a state with nothing decoded, or
the next symbol's coming to the channel. -/
theorem step_cases_of_keepsStream {s t : State} (hkeep : HostKeepsStream s) (ht : step s = .next t) :
    HostKeepsStream t ∧ ∃ rest,
      fsmStep { s with host := rest } = .next t ∨ t = { s with host := rest } ∨ Blank t ∨
      ∃ a, t = { s with host := rest, stream := s.stream.supply a } := by
  rcases step_cases s with ⟨-, e⟩ | ⟨e, rest, hhost, hmove⟩
  · have hfsm := e.symm.trans ht
    obtain ⟨-, hhost, -⟩ := fsmStep_env hfsm
    exact ⟨fun e he => hkeep e (hhost ▸ he), s.host, .inl hfsm⟩
  · have hrest : ∀ e ∈ rest, keepsStream e = true := fun e he => hkeep e (hhost ▸ List.mem_cons_of_mem _ he)
    rw [hmove] at ht
    cases e with
    | reset => cases ht; exact ⟨hrest, rest, .inr (.inr (.inl (by simp [Blank, NoRleRegs, NoRawRegs])))⟩
    | start a x =>
      cases ht
      unfold hostStart
      split
      · exact ⟨hrest, rest, .inr (.inl rfl)⟩
      · exact ⟨hrest, rest, .inr (.inr (.inl (by simp [Blank, NoRleRegs, NoRawRegs])))⟩
    | supply a => cases ht; exact ⟨hrest, rest, .inr (.inr (.inr ⟨a, rfl⟩))⟩
    | alter k b => exact absurd (hkeep (.alter k b) (by simp [hhost])) nofun
    | run =>
      have hfsm : fsmStep { s with host := rest } = .next t := ht
      have hhost' : t.host = rest := (fsmStep_env hfsm).2.1
      exact ⟨fun e he => hrest e (hhost' ▸ he), rest, .inl hfsm⟩

/-- Settles O47: a row byte is captured as the stream has it, a full row is committed from the captured bytes, and no other step
of the FSM touches the image; the host's other moves leave the bytes consumed. -/
theorem stepKeepsTheRawImage : Obligations.StepKeepsTheRawImage := by
  intro s t h himg ht
  obtain ⟨hkeep, hcells⟩ := rawImage_iff.mp himg
  obtain ⟨hkeep', rest, hstep⟩ := step_cases_of_keepsStream hkeep ht
  refine ⟨hkeep', fun hc => ?_⟩
  rcases hstep with hfsm | rfl | hblank | ⟨a, rfl⟩
  · exact rawCells_fsmStep (h.withHost rest) hcells hfsm hc
  · exact hcells hc
  · obtain ⟨-, -, -, -, -, -, ⟨hcnt, -, -, hrows, -⟩, -⟩ := hblank
    exact rawCells_of_no_rows hrows hcnt
  · exact rawCells_withStream (h.withHost rest) hc (fun k hk => Stream.byteAt_supply_eq a (h.stream.1 k hk)) (hcells hc)

end Sys2Proof.Machine
end

section
/-! PROOF. The RLE image: every cell an RLE decode has written is the bit of its pixel group, the groups being those that a
reader of the consumed bytes has read (R60 to R62, R86 to R93, R95). -/

namespace Sys2Proof.Machine

/-! ### The reader -/

theorem parseBytes_concat (bs : List Byte) (b : Byte) : parseBytes (bs ++ [b]) = parseByte (parseBytes bs) b := by
  simp [parseBytes]

/-- The reader after the pixel bytes consumed so far. -/
def reader (s : State) : Parse := parseBytes (pixelBytesRead s)

/-- The reader has read consumed bytes alone. -/
theorem reader_congr {s t : State} (hoff : t.off = s.off) (hx : ∀ k < s.off, t.stream.byteAt k = s.stream.byteAt k) :
    reader t = reader s := by
  have hbytes : pixelBytesRead t = pixelBytesRead s := by
    unfold pixelBytesRead
    rw [hoff]
    refine List.filterMap_congr fun j hj => hx _ ?_
    have := List.mem_range.mp hj
    omega
  rw [reader, reader, hbytes]

/-- R43: before the header is behind, the reader has read nothing. -/
theorem reader_of_off_le {s : State} (h : s.off ≤ 64) : reader s = { phase := .ctrl, groups := [] } := by
  have h0 : s.off - 64 = 0 := by omega
  rw [reader, pixelBytesRead, h0]
  rfl

/-- With a pixel byte consumed the reader has read one byte more. -/
theorem reader_takeByte {s t : State} {b : Byte} (h64 : 64 ≤ s.off) (hb : s.stream.byteAt s.off = some b)
    (hoff : t.off = s.off + 1) (hx : t.stream = s.stream) : reader t = parseByte (reader s) b := by
  have hlen : t.off - 64 = (s.off - 64) + 1 := by omega
  have hlast : 64 + (s.off - 64) = s.off := by omega
  have hbytes : pixelBytesRead t = pixelBytesRead s ++ [b] := by
    simp [pixelBytesRead, hlen, hx, List.range_succ, hlast, hb]
  rw [reader, hbytes, parseBytes_concat, reader]

/-! ### What the image says of the stores -/

/-- The cells below `n` of `m` are the bits of the groups `gs`, in order. -/
def CellsOf (m : Memory Pixel) (n : Nat) (gs : List Byte) : Prop :=
  ∀ i < n, Memory.read m i = gs[i / 8]?.map fun d => pixelOf d (i % 8)

/-- What `RleImage` says of a state on the RLE path and a reader that stands beside it. -/
def ReaderMatches (s : State) (p : Parse) : Prop :=
  PhaseMatches s p.phase ∧
  8 * p.groups.length = s.pos.toNat + (if s.st = .rleRepw then 8 * s.repRem.toNat else 0) ∧
  (s.st = .rleRepw → ∀ k < s.repRem.toNat, p.groups[s.pos.toNat / 8 + k]? = some s.pat) ∧
  CellsOf s.pb (min s.pos.toNat s.lim.toNat) p.groups

theorem rleImage_iff {s : State} :
    RleImage s ↔ HostKeepsStream s ∧ (s.compressed = true → ReaderMatches s (reader s)) := Iff.rfl

/-- More groups say nothing else of the cells that have their groups already. -/
theorem CellsOf.append {m : Memory Pixel} {n : Nat} {gs : List Byte} (h : CellsOf m n gs) (hn : n ≤ 8 * gs.length)
    (more : List Byte) : CellsOf m n (gs ++ more) := by
  intro i hi
  rw [List.getElem?_append_left (by omega)]
  exact h i hi

/-- R86: the group at the cursor, written through the gate. -/
theorem CellsOf.rleWrite8 {s : State} {d : Byte} {gs : List Byte}
    (h : CellsOf s.pb (min s.pos.toNat s.lim.toNat) gs) (hmod : s.pos.toNat % 8 = 0) (hadd : (s.pos + 8).toNat = s.pos.toNat + 8)
    (hd : gs[s.pos.toNat / 8]? = some d) : CellsOf (rleWrite8 d s).pb (min (s.pos + 8).toNat s.lim.toNat) gs := by
  intro i hi
  rw [read_rleWrite8]
  split
  next hin =>
    have hdiv : i / 8 = s.pos.toNat / 8 := by omega
    have hrem : i % 8 = i - s.pos.toNat := by omega
    rw [hdiv, hd, hrem]
    rfl
  next hout => exact h i (by omega)

/-! ### The steps of the RLE path -/

/-- Where no replay is under way, a step that leaves cursor and cells keeps what the image says, if the reader stands where the
new state says. -/
theorem ReaderMatches.move {s t : State} {p q : Parse} (h : ReaderMatches s p) (hs : s.st ≠ .rleRepw) (ht : t.st ≠ .rleRepw)
    (hgroups : q.groups = p.groups) (hphase : PhaseMatches t q.phase) (hpos : t.pos = s.pos) (hlim : t.lim = s.lim)
    (hpb : t.pb = s.pb) : ReaderMatches t q := by
  obtain ⟨-, hlen, -, hcells⟩ := h
  rw [if_neg hs] at hlen
  refine ⟨hphase, ?_, fun e => absurd e ht, ?_⟩
  · rw [if_neg ht, hgroups, hpos]
    exact hlen
  · rw [hpos, hlim, hpb, hgroups]
    exact hcells

/-- The end of a decode, normal or by an error. -/
theorem ReaderMatches.ended {s t : State} {p : Parse} (h : ReaderMatches s p) (hs : s.st ≠ .rleRepw)
    (ht : t.st = .done ∨ t.st = .err) (hpos : t.pos = s.pos) (hlim : t.lim = s.lim) (hpb : t.pb = s.pb) : ReaderMatches t p := by
  have hne : t.st ≠ .rleCtrl ∧ t.st ≠ .rleLit ∧ t.st ≠ .rleRepd ∧ t.st ≠ .rleRepw ∧ t.st ≠ .rleChk := by
    rcases ht with e | e <;> simp [e]
  obtain ⟨h1, h2, h3, h4, h5⟩ := hne
  refine h.move hs h4 rfl ?_ hpos hlim hpb
  simp [PhaseMatches, h1, h2, h3, h4, h5]

/-- R87: a control byte of a literal run. -/
theorem ReaderMatches.litStart {s : State} {p : Parse} {c : Byte} (h : ReaderMatches s p) (hst : s.st = .rleCtrl)
    (hc : c.toNat < 128) : ReaderMatches (litStart c { s with off := s.off + 1 }) (parseByte p c) := by
  have hphase : p.phase = .ctrl := h.1.1 (.inl hst)
  have hnext : parseByte p c = { p with phase := .lit (c.toNat + 1) } := by simp [parseByte, hphase, hc]
  rw [hnext]
  exact h.move (by simp [hst]) nofun rfl ⟨nofun, fun _ => by simp [litCount_toNat hc], nofun⟩ rfl rfl rfl

/-- R87: a control byte of a repeat run. -/
theorem ReaderMatches.repStart {s : State} {p : Parse} {c : Byte} (h : ReaderMatches s p) (hst : s.st = .rleCtrl)
    (hc : ¬ c.toNat < 128) : ReaderMatches (repStart c { s with off := s.off + 1 }) (parseByte p c) := by
  have hphase : p.phase = .ctrl := h.1.1 (.inl hst)
  have hnext : parseByte p c = { p with phase := .rep (257 - c.toNat) } := by simp [parseByte, hphase, hc]
  rw [hnext]
  exact h.move (by simp [hst]) nofun rfl ⟨nofun, nofun, fun _ => by simp [repCount_toNat (Nat.le_of_not_lt hc)]⟩ rfl rfl rfl

/-- R90: a literal data byte is one group. -/
theorem ReaderMatches.litByte {s : State} {p : Parse} {d : Byte} (h : ReaderMatches s p) (hst : s.st = .rleLit)
    (hone : 1 ≤ s.litRem.toNat) (hadd : (s.pos + 8).toNat = s.pos.toNat + 8) :
    ReaderMatches (litByte d { s with off := s.off + 1 }) (parseByte p d) := by
  obtain ⟨hphase, hlen, -, hcells⟩ := h
  have hphase := hphase.2.1 hst
  rw [if_neg (by simp [hst])] at hlen
  have hnext : parseByte p d =
      { phase := if s.litRem.toNat ≤ 1 then .ctrl else .lit (s.litRem.toNat - 1), groups := p.groups ++ [d] } := by
    simp [parseByte, hphase]
  have hgroup : (p.groups ++ [d])[s.pos.toNat / 8]? = some d := by
    rw [show s.pos.toNat / 8 = p.groups.length by omega]
    simp
  have hcells' := (hcells.append (by omega) [d]).rleWrite8 (by omega) hadd hgroup
  have hlen' : 8 * (p.groups ++ [d]).length = (s.pos + 8).toNat + 0 := by
    rw [List.length_append, List.length_singleton]
    omega
  rw [hnext, litByte_eq]
  by_cases hlast : s.litRem = 1
  · rw [if_pos hlast, if_pos (by simp [hlast])]
    exact ⟨⟨fun _ => rfl, nofun, nofun⟩, hlen', nofun, hcells'⟩
  · rw [if_neg hlast, if_neg (Nat.not_le.mpr (one_lt_toNat hone hlast))]
    exact ⟨⟨nofun, fun _ => congrArg ParsePhase.lit (toNat_pred hone).symm, nofun⟩, hlen', nofun, hcells'⟩

/-- R91: the data byte of a repeat run is read as all its groups at once. -/
theorem ReaderMatches.repByte {s : State} {p : Parse} {d : Byte} (h : ReaderMatches s p) (hst : s.st = .rleRepd) :
    ReaderMatches (repByte d { s with off := s.off + 1 }) (parseByte p d) := by
  obtain ⟨hphase, hlen, -, hcells⟩ := h
  have hphase := hphase.2.2 hst
  rw [if_neg (by simp [hst])] at hlen
  have hnext : parseByte p d = { phase := .ctrl, groups := p.groups ++ List.replicate s.repRem.toNat d } := by
    simp [parseByte, hphase]
  have hlen' : 8 * (p.groups ++ List.replicate s.repRem.toNat d).length = s.pos.toNat + 8 * s.repRem.toNat := by
    rw [List.length_append, List.length_replicate]
    omega
  have hgroups (k : Nat) (hk : k < s.repRem.toNat) :
      (p.groups ++ List.replicate s.repRem.toNat d)[s.pos.toNat / 8 + k]? = some d := by
    rw [show s.pos.toNat / 8 + k = p.groups.length + k by omega]
    simp [hk]
  rw [hnext]
  exact ⟨⟨fun _ => rfl, nofun, nofun⟩, hlen', fun _ => hgroups, hcells.append (by omega) _⟩

/-- R92: one replay writes a group that is read already. -/
theorem ReaderMatches.replayOnce {s : State} {p : Parse} (h : ReaderMatches s p) (hst : s.st = .rleRepw)
    (hone : 1 ≤ s.repRem.toNat) (hmod : s.pos.toNat % 8 = 0) (hadd : (s.pos + 8).toNat = s.pos.toNat + 8) :
    ReaderMatches (replayOnce s) p := by
  obtain ⟨hphase, hlen, hgroups, hcells⟩ := h
  have hphase := hphase.1 (.inr (.inl hst))
  have hgroups := hgroups hst
  rw [if_pos hst] at hlen
  have hcells' := hcells.rleWrite8 hmod hadd (hgroups 0 hone)
  have hpred := toNat_pred hone
  rw [replayOnce_eq]
  by_cases hlast : s.repRem = 1
  · have hlen' : 8 * p.groups.length = (s.pos + 8).toNat + 0 := by
      rw [hlast] at hlen
      exact hlen.trans hadd.symm
    rw [if_pos hlast]
    exact ⟨⟨fun _ => hphase, nofun, nofun⟩, hlen', nofun, hcells'⟩
  · have hlen' : 8 * p.groups.length = (s.pos + 8).toNat + 8 * (s.repRem - 1).toNat := by omega
    have hgroups' (k : Nat) (hk : k < (s.repRem - 1).toNat) : p.groups[(s.pos + 8).toNat / 8 + k]? = some s.pat := by
      rw [show (s.pos + 8).toNat / 8 + k = s.pos.toNat / 8 + (k + 1) by omega]
      exact hgroups (k + 1) (by omega)
    rw [if_neg hlast]
    exact ⟨⟨fun _ => hphase, nofun, nofun⟩, hlen', fun _ => hgroups', hcells'⟩

/-- R93: the bound check moves nothing but the FSM. -/
theorem ReaderMatches.boundCheck {s : State} {p : Parse} (h : ReaderMatches s p) (hst : s.st = .rleChk) :
    ReaderMatches (boundCheck s) p := by
  have hphase : p.phase = .ctrl := h.1.1 (.inr (.inr hst))
  by_cases hw : s.width = 0
  · rw [boundCheck_zero hw]
    exact h.ended (by simp [hst]) (.inr rfl) rfl rfl rfl
  · rcases Nat.lt_or_ge s.pos.toNat s.lim.toNat with hlt | hge
    · rw [boundCheck_goOn hw hlt]
      exact h.move (by simp [hst]) nofun rfl ⟨fun _ => hphase, nofun, nofun⟩ rfl rfl rfl
    · rw [boundCheck_stop hw hge]
      exact h.ended (by simp [hst]) (.inl rfl) rfl rfl rfl

/-! ### Every step -/

/-- R43: a byte consumed on the RLE path is a pixel byte. -/
theorem Inv.off_ge_of_rle {s : State} (h : Inv s) (hs : onRlePath s.st = true) (heos : s.eos = false) : 64 ≤ s.off := by
  obtain ⟨-, -, -, -, -, -, -, -, -, -, -, hfull⟩ := h.rle.2 (h.rle.1 hs)
  obtain ⟨-, -, hcntoff, -⟩ := h.header
  rw [hfull (h.warnShort_eq_false heos)] at hcntoff
  exact hcntoff

/-- With a byte consumed, what the image says is to be shown beside the reader that has read it. -/
theorem readerMatches_of_takeByte {s t : State} {b : Byte} (h : Inv s) (hs : onRlePath s.st = true)
    (ha : nextSymbol s = some (.byte b)) (hoff : t.off = s.off + 1) (hx : t.stream = s.stream)
    (himg : ReaderMatches t (parseByte (reader s) b)) : ReaderMatches t (reader t) := by
  obtain ⟨heos, hb⟩ := nextSymbol_byte_iff.mp ha
  rw [reader_takeByte (h.off_ge_of_rle hs heos) hb hoff hx]
  exact himg

/-- A step in RLE_CTRL. -/
theorem readerMatches_decodeCtrl {s t : State} {a : Symbol} (h : Inv s) (hst : s.st = .rleCtrl) (ha : nextSymbol s = some a)
    (himg : ReaderMatches s (reader s)) (ht : exec (decodeCtrl a) s = .next t) : ReaderMatches t (reader t) := by
  cases a with
  | byte c =>
    have hs : onRlePath s.st = true := by rw [hst]; rfl
    rw [decodeCtrl_byte] at ht
    split at ht
    next hc =>
      obtain ⟨-, rfl⟩ := withByte_eq_next_iff.mp ht
      exact readerMatches_of_takeByte h hs ha rfl rfl (himg.litStart hst hc)
    next hc =>
      obtain ⟨-, rfl⟩ := withByte_eq_next_iff.mp ht
      exact readerMatches_of_takeByte h hs ha rfl rfl (himg.repStart hst hc)
  | endSym => cases ht; exact himg.ended (by simp [hst]) (.inl rfl) rfl rfl rfl
  | errSym => cases ht; exact himg.ended (by simp [hst]) (.inr rfl) rfl rfl rfl

/-- A step that waits for a data byte, in RLE_LIT or RLE_REPD. -/
theorem readerMatches_onData {s t : State} {a : Symbol} {k : Byte → State → State} (h : Inv s) (hs : onRlePath s.st = true)
    (hne : s.st ≠ .rleRepw) (ha : nextSymbol s = some a) (himg : ReaderMatches s (reader s))
    (hoff : ∀ d u, (k d u).off = u.off ∧ (k d u).stream = u.stream)
    (hk : ∀ d, ReaderMatches (k d { s with off := s.off + 1 }) (parseByte (reader s) d)) (ht : onData a k s = .next t) :
    ReaderMatches t (reader t) := by
  rcases onData_eq_next_iff.mp ht with ⟨d, rfl, -, rfl⟩ | ⟨rfl, rfl⟩ | ⟨rfl, rfl⟩
  · exact readerMatches_of_takeByte h hs ha (hoff d _).1 (hoff d _).2 (hk d)
  · exact himg.ended hne (.inr rfl) rfl rfl rfl
  · exact himg.ended hne (.inr rfl) rfl rfl rfl

/-- R84: the RLE path is entered with nothing read and nothing written. -/
theorem readerMatches_decodeDispatch {s t : State} {l : List Byte} (h : Inv s) (hst : s.st = .dispatch)
    (hc : t.compressed = true) (ht : exec (decodeDispatch l) s = .next t) : ReaderMatches t (reader t) := by
  unfold decodeDispatch at ht
  split at ht
  · cases ht
    have hoff : s.off ≤ 64 := by
      cases hw : s.warnShort with
      | false => exact ((h.of_dispatch hst).2.2 hw).2.le
      | true =>
        obtain ⟨hlt, hoff, -⟩ := h.header.2.2.2.2.1 hw
        omega
    rw [reader_of_off_le (s := rleEntry (latchFields (hdrWidth l) (hdrHeight l) true s)) hoff]
    exact ⟨⟨fun _ => rfl, nofun, nofun⟩, rfl, nofun, fun i hi => absurd hi (by simp)⟩
  · cases ht
    simp at hc

/-- Every step of the FSM keeps what the image says on the RLE path. -/
theorem readerMatches_fsmStep {s t : State} (h : Inv s) (himg : s.compressed = true → ReaderMatches s (reader s))
    (ht : fsmStep s = .next t) (hc : t.compressed = true) : ReaderMatches t (reader t) := by
  by_cases hdispatch : s.st = .dispatch
  · exact readerMatches_decodeDispatch h hdispatch hc ((fsmStep_dispatch hdispatch).symm.trans ht)
  · have hcs : s.compressed = true := (fsmStep_fields hdispatch ht).2.2.symm.trans hc
    have himg := himg hcs
    obtain ⟨hpath, -, -, -, hmod, -⟩ := h.rle.2 hcs
    rcases fsmStep_cases s with ⟨-, e⟩ | ⟨-, -, e⟩ | ⟨hst, -⟩ | ⟨hst, -⟩ | ⟨hst, a, ha, e⟩ | ⟨hst, a, ha, e⟩ | ⟨hst, a, ha, e⟩ |
      ⟨hst, e⟩ | ⟨hst, e⟩ | ⟨hst, -⟩
    · cases e.symm.trans ht; exact himg
    · cases e.symm.trans ht; exact himg
    · simp [hst, onRlePath] at hpath
    · exact absurd hst hdispatch
    · exact readerMatches_decodeCtrl h hst ha himg (e.symm.trans ht)
    · obtain ⟨-, hone, -, hpos⟩ := h.runs.2.2.2.1 hst
      have hs : onRlePath s.st = true := by rw [hst]; rfl
      have hadd (d : Byte) := (h.write8 hs d (by omega)).1
      exact readerMatches_onData (k := litByte) h hs (by simp [hst]) ha himg (fun _ _ => ⟨rfl, rfl⟩)
        (fun d => himg.litByte hst hone (hadd d)) (e.symm.trans ht)
    · exact readerMatches_onData (k := repByte) h (by rw [hst]; rfl) (by simp [hst]) ha himg (fun _ _ => ⟨rfl, rfl⟩)
        (fun d => himg.repByte hst) (e.symm.trans ht)
    · obtain ⟨-, hone, -, hpos⟩ := h.runs.2.2.2.2.2 hst
      have hadd := (h.write8 (by rw [hst]; rfl) s.pat (by omega)).1
      cases e.symm.trans ht
      exact himg.replayOnce hst hone hmod hadd
    · cases e.symm.trans ht
      rw [reader_congr (s := s) (boundCheck_off s) (fun _ _ => by rw [boundCheck_stream])]
      exact himg.boundCheck hst
    · simp [hst, onRlePath] at hpath

/-- Settles O48: the reader takes each byte with the FSM, and no other step of the FSM moves the one without the other; the host's
other moves leave the bytes consumed. -/
theorem stepKeepsTheRleImage : Obligations.StepKeepsTheRleImage := by
  intro s t h himg ht
  obtain ⟨hkeep, hcells⟩ := rleImage_iff.mp himg
  obtain ⟨hkeep', rest, hstep⟩ := step_cases_of_keepsStream hkeep ht
  refine ⟨hkeep', fun hc => ?_⟩
  rcases hstep with hfsm | rfl | hblank | ⟨a, rfl⟩
  · exact readerMatches_fsmStep (h.withHost rest) hcells hfsm hc
  · exact hcells hc
  · exact absurd (hblank.2.2.1.symm.trans hc) nofun
  · have hread : reader { s with host := rest, stream := s.stream.supply a } = reader s :=
      reader_congr rfl fun k hk => Stream.byteAt_supply_eq a (h.stream.1 k hk)
    change ReaderMatches _ (reader _)
    rw [hread]
    exact hcells hc

end Sys2Proof.Machine
end

section
/-! PROOF. Steps and refusals: what a step runs, when it is refused, what leaves a terminal state, and how `off` counts (R10,
R16, R42, R67, R104, R111, R112). -/

namespace Sys2Proof.Machine

/-! ### Fetch, decode, run -/

theorem wantsSymbol_not_terminal {q : Fsm} (h : wantsSymbol q = true) : terminal q = false := by
  cases q <;> revert h <;> decide

/-- IDLE, DONE and ERR decode nothing. -/
theorem not_terminal_of_decode {q : Fsm} {u : CodeUnit} {i : Instr} (h : decode q u = .ok i) : terminal q = false := by
  cases q with
  | idle => cases h
  | done => cases h
  | err => cases h
  | _ => rfl

/-- R67: the FSM runs the operation that its state and the code unit select. -/
theorem fsmStep_of_decode {s : State} {u : CodeUnit} {i : Instr} (hu : fetch s = some u) (hi : decode s.st u = .ok i) :
    fsmStep s = exec i s := by
  simp [fsmStep, not_terminal_of_decode hi, hu, runUnit, hi]

/-- R67: in a state that consumes input, the operation that the channel's answer selects. -/
theorem fsmStep_of_symbol {s : State} {a : Symbol} {i : Instr} (hwants : wantsSymbol s.st = true) (ha : nextSymbol s = some a)
    (hi : decode s.st (.symbol a) = .ok i) : fsmStep s = exec i s :=
  fsmStep_of_decode (fetch_symbol hwants ha) hi

/-- Settles O6: without a pending move a step is the FSM's, and the move `run` is one too. -/
theorem stepRunsDecodedInstruction : Obligations.StepRunsDecodedInstruction := by
  intro s i hhost
  refine ⟨fun u hu hi => ⟨?_, fun rest => ?_⟩, fun b hwants heos hb hi => ?_, fun hwants heos hi => ?_⟩
  · rw [step_fsm hhost]
    exact fsmStep_of_decode hu hi
  · exact (step_host (s := { s with host := .run :: rest }) rfl).trans (fsmStep_of_decode (s := { s with host := rest }) hu hi)
  · rw [step_fsm hhost]
    exact fsmStep_of_symbol hwants (nextSymbol_byte_iff.mpr ⟨heos, hb⟩) hi
  · rw [step_fsm hhost]
    exact fsmStep_of_symbol hwants (nextSymbol_end_iff.mpr (.inl heos)) hi

/-- Settles O7: a terminal state and a hold are the two cases in which the FSM runs no operation. -/
theorem terminalAndHoldChangeNothing : Obligations.TerminalAndHoldChangeNothing := by
  intro s hhost
  rw [step_fsm hhost]
  exact ⟨fsmStep_terminal, fun hwants heos hle ht => fsmStep_hold hwants (nextSymbol_none_iff.mpr ⟨heos, hle, ht⟩)⟩

/-! ### Refusals -/

/-- R42: a state that consumes input fetches the channel's answer, any other fetches none. -/
theorem fetch_symbol_iff {s : State} {a : Symbol} :
    fetch s = some (.symbol a) ↔ wantsSymbol s.st = true ∧ nextSymbol s = some a := by
  unfold fetch
  split
  next h => simp [h]
  next h => split <;> simp [h]

theorem decode_symbol_ok {q : Fsm} (h : wantsSymbol q = true) (a : Symbol) : ∃ i, decode q (.symbol a) = .ok i := by
  cases q with
  | hdr => exact ⟨_, rfl⟩
  | rleCtrl => exact ⟨_, rfl⟩
  | rleLit => exact ⟨_, rfl⟩
  | rleRepd => exact ⟨_, rfl⟩
  | rawRow => exact ⟨_, rfl⟩
  | _ => cases h

/-- A state that is not terminal decodes the code unit that it fetches (log 22). -/
theorem decode_fetch_ok {s : State} {u : CodeUnit} (hst : terminal s.st = false) (hu : fetch s = some u) :
    ∃ i, decode s.st u = .ok i := by
  by_cases hwants : wantsSymbol s.st = true
  · simp only [fetch, hwants, if_true, Option.map_eq_some_iff] at hu
    obtain ⟨a, -, rfl⟩ := hu
    exact decode_symbol_ok hwants a
  · cases hq : s.st with
    | dispatch =>
      have hheader : fetch s = some (.header (capturedHeader s)) := by simp [fetch, hq, wantsSymbol]
      cases hheader.symm.trans hu
      exact ⟨_, decode_dispatch_of_length (capturedHeader_length s)⟩
    | rleRepw =>
      have hinternal : fetch s = some .internal := by simp [fetch, hq, wantsSymbol]
      cases hinternal.symm.trans hu
      exact ⟨_, rfl⟩
    | rleChk =>
      have hinternal : fetch s = some .internal := by simp [fetch, hq, wantsSymbol]
      cases hinternal.symm.trans hu
      exact ⟨_, rfl⟩
    | _ => simp [hq, wantsSymbol, terminal] at hwants hst

/-- A decoded operation consumes a byte exactly if that byte is the code unit it is decoded from. -/
theorem byte_unit_iff {q : Fsm} {u : CodeUnit} {i : Instr} (hi : decode q u = .ok i) (b : Byte) :
    (encode i).2 = .symbol (.byte b) ↔ u = .symbol (.byte b) := by
  obtain ⟨-, hplace, hunit⟩ := decodedBelongsToItsState _ _ _ hi
  by_cases hq : q = .dispatch
  · subst hq
    obtain ⟨l, rfl, -, rfl⟩ := onHeader_eq_ok_iff.mp hi
    unfold decodeDispatch
    split <;> simp [encode]
  · rw [hunit hq]

theorem withByte_next_or_refused (s : State) (k : State → State) :
    (∃ t, withByte s k = .next t) ∨ (withByte s k = .refused .counterLimit ∧ s.cfg.counterLimit = some s.off) := by
  by_cases h : s.cfg.counterLimit = some s.off
  · exact .inr ⟨withByte_eq_refused_iff.mpr ⟨h, rfl⟩, h⟩
  · exact .inl ⟨_, withByte_of_ne h⟩

/-- R10, R42: an operation is refused only at COUNTER_LIMIT, and only if its code unit is a byte. -/
theorem exec_next_or_refused (i : Instr) (s : State) :
    (∃ t, exec i s = .next t) ∨ (exec i s = .refused .counterLimit ∧ s.cfg.counterLimit = some s.off ∧
      ∃ b, (encode i).2 = .symbol (.byte b)) := by
  have hbyte {b : Byte} (k : State → State) (he : exec i s = withByte s k) (hb : (encode i).2 = .symbol (.byte b)) :
      (∃ t, exec i s = .next t) ∨ (exec i s = .refused .counterLimit ∧ s.cfg.counterLimit = some s.off ∧
        ∃ b, (encode i).2 = .symbol (.byte b)) := by
    rw [he]
    exact (withByte_next_or_refused s k).imp_right fun ⟨h1, h2⟩ => ⟨h1, h2, b, hb⟩
  cases i with
  | hdrByte b => exact hbyte _ rfl rfl
  | hdrShort =>
    cases habort : s.abortShort with
    | true => exact .inl ⟨_, exec_hdrShort_abort habort⟩
    | false => exact .inl ⟨_, exec_hdrShort_warn habort⟩
  | rleLit p =>
    cases p with
    | ctrl c => exact hbyte _ rfl rfl
    | data a =>
      cases a with
      | byte d => exact hbyte _ rfl rfl
      | endSym => exact .inl ⟨_, rfl⟩
      | errSym => exact .inl ⟨_, rfl⟩
  | rleRep p =>
    cases p with
    | ctrl c => exact hbyte _ rfl rfl
    | replay => exact .inl ⟨_, rfl⟩
    | data a =>
      cases a with
      | byte d => exact hbyte _ rfl rfl
      | endSym => exact .inl ⟨_, rfl⟩
      | errSym => exact .inl ⟨_, rfl⟩
  | rawByte b => exact hbyte _ rfl rfl
  | _ => exact .inl ⟨_, rfl⟩

/-- R10: the FSM's step answers a next state unless a byte is due at COUNTER_LIMIT. -/
theorem fsmStep_next_or_refused (s : State) :
    (∃ t, fsmStep s = .next t) ∨
    (fsmStep s = .refused .counterLimit ∧ wantsSymbol s.st = true ∧ s.cfg.counterLimit = some s.off ∧
      ∃ b, nextSymbol s = some (.byte b)) := by
  cases hst : terminal s.st with
  | true => exact .inl ⟨s, fsmStep_terminal hst⟩
  | false =>
    cases hu : fetch s with
    | none => exact .inl ⟨s, by simp [fsmStep, hst, hu]⟩
    | some u =>
      obtain ⟨i, hi⟩ := decode_fetch_ok hst hu
      rw [fsmStep_of_decode hu hi]
      refine (exec_next_or_refused i s).imp_right fun ⟨href, hlimit, b, hb⟩ => ?_
      rw [(byte_unit_iff hi b).mp hb] at hu
      obtain ⟨hwants, ha⟩ := fetch_symbol_iff.mp hu
      exact ⟨href, hwants, hlimit, b, ha⟩

/-- Settles O9: a host move other than `run` answers a next state, and the rest is the FSM's step. -/
theorem refusedOnlyAtCounterLimit : Obligations.RefusedOnlyAtCounterLimit := by
  intro s
  rcases step_cases s with ⟨-, hstep⟩ | ⟨e, rest, -, hstep⟩ <;> rw [hstep]
  · exact fsmStep_next_or_refused s
  · cases e with
    | reset => exact .inl ⟨_, rfl⟩
    | start a x => exact .inl ⟨_, rfl⟩
    | supply a => exact .inl ⟨_, rfl⟩
    | alter k b => exact .inl ⟨_, rfl⟩
    | run => exact fsmStep_next_or_refused { s with host := rest }

/-- R42: an operation that takes the byte `b` of its code unit is refused at COUNTER_LIMIT. -/
theorem exec_refused_of_byte {i : Instr} {s : State} {b : Byte} (hb : (encode i).2 = .symbol (.byte b))
    (hlimit : s.cfg.counterLimit = some s.off) : exec i s = .refused .counterLimit := by
  have href (k : State → State) : withByte s k = .refused .counterLimit := withByte_eq_refused_iff.mpr ⟨hlimit, rfl⟩
  cases i with
  | hdrByte c => exact href _
  | rawByte c => exact href _
  | rleLit p =>
    cases p with
    | ctrl c => exact href _
    | data a => cases hb; exact href _
  | rleRep p =>
    cases p with
    | ctrl c => exact href _
    | data a => cases hb; exact href _
    | replay => cases hb
  | _ => cases hb

/-- Settles O10: a state that consumes input decodes the byte, and its operation is refused there. -/
theorem counterLimitRefusesTheNextByte : Obligations.CounterLimitRefusesTheNextByte := by
  intro s b hhost hwants heos hb hlimit
  obtain ⟨i, hi⟩ := decode_symbol_ok hwants (.byte b)
  rw [step_fsm hhost, fsmStep_of_symbol hwants (nextSymbol_byte_iff.mpr ⟨heos, hb⟩) hi]
  exact exec_refused_of_byte ((byte_unit_iff hi b).mpr rfl) hlimit

/-! ### Bytes consumed -/

/-- R16: an operation raises `off` by 1 exactly if its code unit is a byte. -/
theorem exec_off {i : Instr} {s t : State} (h : exec i s = .next t) :
    ((∃ b, (encode i).2 = .symbol (.byte b)) ∧ t.off = s.off + 1) ∨
    ((∀ b, (encode i).2 ≠ .symbol (.byte b)) ∧ t.off = s.off) := by
  rcases exec_next_cases h with ⟨b, rfl, rfl⟩ | ⟨rfl, -, rfl⟩ | ⟨rfl, -, rfl⟩ | ⟨hi, rfl⟩ | ⟨w, x, rfl, rfl⟩ | ⟨w, x, rfl, rfl⟩ |
    ⟨c, rfl, rfl⟩ | ⟨d, rfl, rfl⟩ | ⟨hi, rfl⟩ | ⟨c, rfl, rfl⟩ | ⟨d, rfl, rfl⟩ | ⟨rfl, rfl⟩ | ⟨rfl, rfl⟩ | ⟨rfl, rfl⟩ |
    ⟨b, rfl, rfl⟩ | ⟨rfl, rfl⟩
  pick_goal 4
  · rcases hi with rfl | rfl | rfl | rfl | rfl <;> simp [encode]
  pick_goal 8
  · rcases hi with rfl | rfl <;> simp [encode]
  all_goals simp [encode, apply_ite State.off]

/-- R42: the FSM fetches a byte exactly where it consumes input, `eos` is clear and the stream has one. -/
theorem fetch_byte_iff {s : State} :
    (∃ b, fetch s = some (.symbol (.byte b))) ↔
      wantsSymbol s.st = true ∧ s.eos = false ∧ (s.stream.byteAt s.off).isSome = true := by
  simp only [fetch_symbol_iff, nextSymbol_byte_iff, Option.isSome_iff_exists]
  exact ⟨fun ⟨b, hwants, heos, hb⟩ => ⟨hwants, heos, b, hb⟩, fun ⟨hwants, heos, b, hb⟩ => ⟨b, hwants, heos, hb⟩⟩

/-- Settles O33: `off` counts the bytes fetched, and the FSM fetches one exactly where it can consume one. -/
theorem offCountsConsumedBytes : Obligations.OffCountsConsumedBytes := by
  intro s t h
  simp only [← fetch_byte_iff]
  rcases fsmStep_next_cases h with ⟨rfl, hst | hu⟩ | ⟨u, i, hu, hi, ht⟩
  · rw [if_neg]
    rintro ⟨b, hb⟩
    have hwants := (fetch_symbol_iff.mp hb).1
    rw [wantsSymbol_not_terminal hwants] at hst
    cases hst
  · rw [if_neg]
    rintro ⟨b, hb⟩
    cases hu.symm.trans hb
  · simp only [hu, Option.some.injEq, ← byte_unit_iff hi]
    rcases exec_off ht with ⟨hb, hoff⟩ | ⟨hb, hoff⟩
    · rw [if_pos hb, hoff]
    · rw [if_neg (not_exists.mpr hb), hoff]

/-! ### Terminal states and the host's commands -/

/-- Settles O8: where the FSM takes no step, what is left of a step is the host's move. -/
theorem terminalLeftOnlyByStartOrReset : Obligations.TerminalLeftOnlyByStartOrReset := by
  intro s t hst h hreset hstart
  have hterm : terminal s.st = true := by rcases hst with e | e | e <;> rw [e] <;> rfl
  have hreq : s.requesting = false := by rcases hst with e | e | e <;> simp [State.requesting, wantsSymbol, e]
  refine ⟨?_, hreq⟩
  rcases step_cases s with ⟨hhost, hstep⟩ | ⟨e, rest, hhost, hstep⟩ <;> rw [hstep] at h
  · cases (fsmStep_terminal hterm).symm.trans h
    rw [hhost]
    exact congrArg (fun l => { s with host := l }) hhost
  · rw [hhost]
    cases e with
    | reset => exact absurd hhost (hreset rest)
    | start a x => exact absurd hhost (hstart a x rest)
    | supply a => cases h; rfl
    | alter k b => cases h; rfl
    | run => cases (fsmStep_terminal (s := { s with host := rest }) hterm).symm.trans h; rfl

/-- Settles O42: `start` is taken exactly where the block is not busy. -/
theorem hostStartBeginsADecode : Obligations.HostStartBeginsADecode := by
  intro s a x rest hhost
  have hstep : step s = .next (hostStart a x { s with host := rest }) := step_host hhost
  rw [hstep, hostStart]
  refine ⟨fun hst => ?_, fun hst => ?_⟩
  · have hbusy : State.busy { s with host := rest } = false := (busy_eq_false_iff _).mpr (or_rotate.mp hst)
    rw [if_neg (by simp [hbusy])]
    rfl
  · have hbusy : State.busy { s with host := rest } = true :=
      Bool.eq_true_of_not_eq_false fun e => hst (or_rotate.mpr ((busy_eq_false_iff _).mp e))
    rw [if_pos hbusy]

/-- Settles O52: the step is `hostReset`, which takes all but four fields from `State.reset`. -/
theorem hostResetKeepsTheEnvironment : Obligations.HostResetKeepsTheEnvironment := fun _ _ hhost =>
  ⟨step_of_reset hhost, rfl, rfl, rfl, rfl⟩

/-- Settles O44: a step of block `k` sets entry `k` of the list to what the block's own step answers. -/
theorem instancesShareNothing : Obligations.InstancesShareNothing := by
  intro k ms ns h
  unfold stepInstance at h
  split at h
  next => cases h
  next s hs =>
    split at h
    next t ht =>
      cases h
      have hk : k < ms.length := (List.getElem?_eq_some_iff.mp hs).1
      exact ⟨⟨s, t, hs, ht, List.getElem?_set_self hk⟩, fun j hj => List.getElem?_set_ne (Ne.symm hj), List.length_set⟩
    next r _ => nomatch r
    next => cases h

end Sys2Proof.Machine
end

section
/-! PROOF. The short header and the dispatcher: the draws, and the fields that the captured bytes give (R73, R75, R77, R78). -/

namespace Sys2Proof.Machine

/-- Settles O12: the two branches of HDR_SHORT; the draws fill the entries from `hdr_cnt` to 63. -/
theorem hdrShortAbortsOrWarns : Obligations.HdrShortAbortsOrWarns := by
  intro s
  refine ⟨exec_hdrShort_abort, fun habort => ⟨_, exec_hdrShort_warn habort, rfl, fun i => ?_⟩⟩
  have hrange : s.hdrCnt.toNat ≤ i ∧ i < s.hdrCnt.toNat + (64 - s.hdrCnt.toNat) ↔ s.hdrCnt.toNat ≤ i ∧ i ≤ 63 := by omega
  simp only [drawMissing_hdr, takeEnd_cfg, takeEnd_draws, takeEnd_hdrCnt, takeEnd_hdr, read_fillDraws, hrange]

/-- Settles O16: one clause for each branch of the raw entry, on the latched fields. -/
theorem selRawEntersRawPath : Obligations.SelRawEntersRawPath := by
  intro s w h
  rw [exec_selRaw]
  refine ⟨fun hw => ?_, fun hw => ⟨_, rfl, ?_, ?_⟩⟩
  · rw [rawEntry_zero (s := latchFields w h false s) hw, hw]
    rfl
  · rw [rawEntry_pos (s := latchFields w h false s) hw]
    rfl
  · rw [rawEntry_pos (s := latchFields w h false s) hw]
    exact rowLength_toNat w

/-! ### The captured header -/

/-- R75: the operation that the captured header decodes to, by the five bytes it depends on. -/
theorem decodeDispatch_captured {s : State} {b34 b35 b36 b37 b39 : Byte}
    (h34 : Memory.read s.hdr 34 = some b34) (h35 : Memory.read s.hdr 35 = some b35) (h36 : Memory.read s.hdr 36 = some b36)
    (h37 : Memory.read s.hdr 37 = some b37) (h39 : Memory.read s.hdr 39 = some b39) :
    ∃ w x : Field, w.toNat = b35.toNat * 256 + b34.toNat ∧ x.toNat = b37.toNat * 256 + b36.toNat ∧
      decodeDispatch (capturedHeader s) = if b39.getLsbD 7 then .selRle w x else .selRaw w x := by
  have hbyte {i : Nat} {b : Byte} (hi : i < 64) (hr : Memory.read s.hdr i = some b) : (capturedHeader s).getD i 0 = b :=
    (capturedHeader_getD hi).trans (hdrByteAt_of_read hr)
  refine ⟨hdrWidth (capturedHeader s), hdrHeight (capturedHeader s), ?_, ?_, ?_⟩
  · rw [hdrWidth_toNat, hbyte (by decide) h34, hbyte (by decide) h35]
  · rw [hdrHeight_toNat, hbyte (by decide) h36, hbyte (by decide) h37]
  · rw [decodeDispatch, hdrCompressed, hbyte (by decide) h39]

/-- R77, R78: what the two dispatch operations latch, and where they go. -/
theorem exec_select (c : Bool) (w x : Field) (s : State) :
    ∃ t, exec (if c then .selRle w x else .selRaw w x) s = .next t ∧ t.width = w ∧ t.height = x ∧ t.compressed = c ∧
      t.off = s.off ∧ t.eos = s.eos ∧ t.warnShort = s.warnShort ∧
      t.st = if c then .rleCtrl else if w.toNat = 0 then .err else .rawRow := by
  cases c with
  | true => exact ⟨_, exec_selRle w x s, rfl, rfl, rfl, rfl, rfl, rfl, rfl⟩
  | false =>
    refine ⟨_, exec_selRaw w x s, by simp, by simp, by simp, by simp, by simp, by simp, ?_⟩
    by_cases hw : w = 0
    · rw [rawEntry_zero (s := latchFields w x false s) hw]
      simp [hw]
    · have hpos : w.toNat ≠ 0 := fun e => hw (BitVec.eq_of_toNat_eq e)
      rw [rawEntry_pos (s := latchFields w x false s) hw]
      simp [hpos]

/-- Settles O17: the dispatch step decodes the captured header and selects the path. -/
theorem dispatchLatchesCapturedHeader : Obligations.DispatchLatchesCapturedHeader := by
  intro s b34 b35 b36 b37 b39 hhost hst h34 h35 h36 h37 h39
  obtain ⟨w, x, hw, hx, hdecode⟩ := decodeDispatch_captured h34 h35 h36 h37 h39
  obtain ⟨t, ht, hwidth, hheight, hcompressed, hoff, heos, -, hst'⟩ := exec_select (b39.getLsbD 7) w x s
  refine ⟨w, x, t, hw, hx, ht, ?_, hwidth, hheight, hcompressed, hoff, heos, hw ▸ hst'⟩
  rw [step_fsm hhost, fsmStep_dispatch hst, hdecode, ht]

/-- R73: after the warning the block is in DISPATCH, and an entry received before the end of the stream keeps its byte among the
draws. -/
theorem step_hdrShort_warn {s : State} (hhost : s.host = []) (hst : s.st = .hdr) (habort : s.abortShort = false)
    (hend : nextSymbol s = some .endSym) :
    ∃ u, step s = .next u ∧ u.host = [] ∧ u.st = .dispatch ∧ u.warnShort = true ∧
      ∀ i < s.hdrCnt.toNat, Memory.read u.hdr i = Memory.read s.hdr i := by
  refine ⟨{ drawMissing (takeEnd s) with warnShort := true, st := .dispatch }, ?_, hhost, rfl, rfl, fun i hi => ?_⟩
  · rw [step_fsm hhost, fsmStep_hdr hst hend]
    exact exec_hdrShort_warn habort
  · rw [drawMissing_hdr, takeEnd_hdrCnt, takeEnd_hdr, read_fillDraws, if_neg (by omega)]

/-- Settles O13: HDR_SHORT keeps the 40 entries that the fields are in, and the dispatch step latches those. -/
theorem shortHeaderKeepsReceivedFields : Obligations.ShortHeaderKeepsReceivedFields := by
  intro s r hhost hst habort hend hge _ hread
  obtain ⟨u, hshort, uhost, ust, uwarn, hkept⟩ := step_hdrShort_warn hhost hst habort hend
  have hbyte (i : Nat) (hi : i < 40) : Memory.read u.hdr i = some (r i) := (hkept i (by omega)).trans (hread i (by omega))
  obtain ⟨w, x, hw, hx, hdecode⟩ := decodeDispatch_captured (hbyte 34 (by decide)) (hbyte 35 (by decide)) (hbyte 36 (by decide))
    (hbyte 37 (by decide)) (hbyte 39 (by decide))
  obtain ⟨t, ht, hwidth, hheight, hcompressed, -, -, hwarn, -⟩ := exec_select ((r 39).getLsbD 7) w x u
  have hselect : step u = .next t := by rw [step_fsm uhost, fsmStep_dispatch ust, hdecode, ht]
  refine ⟨t, ?_, hwarn.trans uwarn, hwidth ▸ hw, hheight ▸ hx, hcompressed⟩
  rw [run_succ_of_next hshort]
  exact run_succ_of_next hselect

end Sys2Proof.Machine
end

section
/-! PROOF. A whole RLE block: the FSM, left to itself, comes to what the block function gives, in a known number of steps; and
what the block function gives where all the block's bytes are there (R94). -/

namespace Sys2Proof.Machine

/-! ### The FSM and the block function -/

/-- What a block comes to when a part of it gives `f`: the bound check where it goes on (R94). -/
def Flow.close : Flow → Result
  | .go t => .next (boundCheck t)
  | .ended r => r

theorem rleBlock_eq (s : State) : rleBlock s = (blockBody s).close := by
  unfold rleBlock
  cases blockBody s <;> rfl

/-- From `s` the FSM comes within `n` steps to what `f` gives, and in exactly `n` if the block goes on to its bound check. -/
def RunsTo (n : Nat) (s : State) (f : Flow) : Prop :=
  ∃ m, 1 ≤ m ∧ m ≤ n ∧ run m s = f.close ∧ ((∃ u, f = .go u) → m = n)

/-- One step before a part of a block. -/
theorem RunsTo.step {n : Nat} {s t : State} {f : Flow} (h : RunsTo n t f) (hs : step s = .next t) : RunsTo (n + 1) s f := by
  obtain ⟨m, -, hle, hrun, hexact⟩ := h
  refine ⟨m + 1, Nat.le_add_left 1 m, Nat.succ_le_succ hle, ?_, fun hgo => congrArg (· + 1) (hexact hgo)⟩
  rw [run_succ_of_next hs, hrun]

/-- A part of a block that ends with the first step. -/
theorem runsTo_ended {n : Nat} {s : State} {r : Result} (hs : Machine.step s = r) : RunsTo (n + 1) s (.ended r) := by
  refine ⟨1, le_rfl, Nat.le_add_left 1 n, ?_, fun ⟨_, hgo⟩ => nomatch hgo⟩
  rw [run_succ, hs]
  cases r <;> rfl

/-- `next byte` (R94) against a state of the FSM that takes a byte by `k`, ends the block with `End` and `Err`, and holds. -/
theorem runsTo_nextByte {n : Nat} {s : State} {onEnd : State → State} {k : Byte → State → State} {f : Byte → State → Flow}
    (hhost : s.host = []) (hwants : wantsSymbol s.st = true)
    (hbyte : ∀ b, nextSymbol s = some (.byte b) → fsmStep s = withByte s (k b))
    (hend : nextSymbol s = some .endSym → fsmStep s = .next (onEnd (takeEnd s)))
    (herr : nextSymbol s = some .errSym → fsmStep s = .next (raise .ioFailure s))
    (hrest : ∀ b, nextSymbol s = some (.byte b) → RunsTo n (k b { s with off := s.off + 1 }) (f b { s with off := s.off + 1 })) :
    RunsTo (n + 1) s (nextByte onEnd s f) := by
  rw [← step_fsm hhost] at hbyte hend herr
  unfold nextByte
  split
  next ha => exact runsTo_ended ((step_fsm hhost).trans (fsmStep_hold hwants ha))
  next b ha =>
    by_cases hlimit : s.cfg.counterLimit = some s.off
    · have hnone : takeByte s = none := if_pos hlimit
      rw [hnone]
      exact runsTo_ended ((hbyte b ha).trans (withByte_eq_refused_iff.mpr ⟨hlimit, rfl⟩))
    · rw [takeByte_of_ne hlimit]
      exact (hrest b ha).step ((hbyte b ha).trans (withByte_of_ne hlimit))
  next ha => exact runsTo_ended (hend ha)
  next ha => exact runsTo_ended (herr ha)

/-- The bound check that closes a block. -/
theorem runsTo_boundCheck {s : State} (hhost : s.host = []) (hst : s.st = .rleChk) : RunsTo 1 s (.go s) := by
  refine ⟨1, le_rfl, le_rfl, ?_, fun _ => rfl⟩
  exact run_succ_of_next ((step_fsm hhost).trans (fsmStep_rleChk hst))

/-- `next byte` where a data byte is due. -/
theorem runsTo_data {n : Nat} {s : State} {k : Byte → State → State} {f : Byte → State → Flow} (hhost : s.host = [])
    (hwants : wantsSymbol s.st = true) (hstep : ∀ a, nextSymbol s = some a → fsmStep s = onData a k s)
    (hrest : ∀ b, RunsTo n (k b { s with off := s.off + 1 }) (f b { s with off := s.off + 1 })) :
    RunsTo (n + 1) s (nextByte (raise .truncatedStream) s f) :=
  runsTo_nextByte hhost hwants (fun b => hstep (.byte b)) (hstep .endSym) (hstep .errSym) fun b _ => hrest b

/-- A counter at `k + 2` goes to `k + 1`, and the run is not over. -/
theorem pred_eq_ofNat {n : BitVec 8} {k : Nat} (h : n.toNat = k + 2) : n - 1 = BitVec.ofNat 8 (k + 1) ∧ n ≠ 1 := by
  constructor
  · bv_omega
  · rintro rfl
    simp at h

theorem eq_one_of_toNat {n : BitVec 8} (h : n.toNat = 1) : n = 1 := BitVec.eq_of_toNat_eq h

/-- R90, R94: the data bytes of a literal run. -/
theorem runsTo_litData {k : Nat} {s : State} (hhost : s.host = []) (hst : s.st = .rleLit) (hcount : s.litRem.toNat = k + 1) :
    RunsTo (k + 2) s (litData (k + 1) s) := by
  induction k generalizing s with
  | zero =>
    refine runsTo_data hhost (by rw [hst]; rfl) (fun a => fsmStep_rleLit hst) fun d => ?_
    have hlast : litByte d { s with off := s.off + 1 } =
        { rleWrite8 d { s with off := s.off + 1 } with litRem := BitVec.ofNat 8 0, st := .rleChk } := by
      rw [litByte_eq, if_pos (eq_one_of_toNat hcount), eq_one_of_toNat hcount]
      rfl
    rw [hlast]
    exact runsTo_boundCheck hhost rfl
  | succ k ih =>
    refine runsTo_data hhost (by rw [hst]; rfl) (fun a => fsmStep_rleLit hst) fun d => ?_
    obtain ⟨hpred, hmore⟩ := pred_eq_ofNat hcount
    have hnext : litByte d { s with off := s.off + 1 } =
        { rleWrite8 d { s with off := s.off + 1 } with litRem := BitVec.ofNat 8 (k + 1) } := by
      rw [litByte_eq, if_neg hmore, hpred, ← hst]
      rfl
    rw [hnext]
    refine ih hhost hst ?_
    rw [← hpred, toNat_pred (by omega), hcount]
    rfl

/-- R92, R94: the replays of a repeat run. -/
theorem runsTo_replays {k : Nat} {s : State} (hhost : s.host = []) (hst : s.st = .rleRepw) (hcount : s.repRem.toNat = k + 1) :
    RunsTo (k + 2) s (.go (replays (k + 1) s)) := by
  induction k generalizing s with
  | zero =>
    have hlast : replayOnce s = replays 1 s := by
      rw [replayOnce_eq, if_pos (eq_one_of_toNat hcount), eq_one_of_toNat hcount]
      rfl
    refine RunsTo.step ?_ ((step_fsm hhost).trans (fsmStep_rleRepw hst))
    rw [hlast]
    exact runsTo_boundCheck hhost rfl
  | succ k ih =>
    obtain ⟨hpred, hmore⟩ := pred_eq_ofNat hcount
    have hnext : replayOnce s = { rleWrite8 s.pat s with repRem := BitVec.ofNat 8 (k + 1) } := by
      rw [replayOnce_eq, if_neg hmore, hpred, ← hst]
      rfl
    refine RunsTo.step ?_ ((step_fsm hhost).trans (fsmStep_rleRepw hst))
    rw [hnext]
    refine ih (s := { rleWrite8 s.pat s with repRem := BitVec.ofNat 8 (k + 1) }) hhost hst ?_
    rw [← hpred, toNat_pred (by omega), hcount]
    rfl

/-- How many steps a block with the control byte `c` takes that goes on to its bound check. -/
def blockSteps (c : Byte) : Nat := if c.toNat < 128 then c.toNat + 3 else 260 - c.toNat

/-- R94: the FSM refines the block function, up to the block's bound check. -/
theorem runsTo_blockBody {n : Nat} {s : State} (hhost : s.host = []) (hst : s.st = .rleCtrl)
    (hn : ∀ c, nextSymbol s = some (.byte c) → n + 1 = blockSteps c) : RunsTo (n + 1) s (blockBody s) := by
  have hstep (a : Symbol) (ha : nextSymbol s = some a) : fsmStep s = exec (decodeCtrl a) s := fsmStep_rleCtrl hst ha
  refine runsTo_nextByte (k := fun c => if c.toNat < 128 then litStart c else repStart c) hhost (by rw [hst]; rfl)
    (fun c hc => ?_) (hstep .endSym) (hstep .errSym) fun c hc => ?_
  · rw [hstep _ hc, decodeCtrl_byte]
    split
    · rfl
    · rfl
  · have hn := hn c hc
    unfold blockSteps at hn
    split
    next hlit =>
      rw [if_pos hlit] at hn
      obtain rfl : n = c.toNat + 2 := by omega
      exact runsTo_litData hhost rfl (litCount_toNat hlit)
    next hrep =>
      have hc256 := c.isLt
      rw [if_neg hrep] at hn
      obtain rfl : n = (256 - c.toNat) + 2 + 1 := by omega
      refine runsTo_data hhost rfl (fun a => fsmStep_rleRepd rfl) fun d => ?_
      refine runsTo_replays hhost rfl ?_
      have hcount := repCount_toNat (Nat.le_of_not_lt hrep)
      exact hcount.trans (by omega)

theorem blockSteps_pos (c : Byte) : ∃ n, n + 1 = blockSteps c ∧ n ≤ 131 := by
  have hc := c.isLt
  unfold blockSteps
  split
  · exact ⟨c.toNat + 2, rfl, by omega⟩
  · exact ⟨259 - c.toNat, by omega, by omega⟩

/-- Settles O28: the longest block, a repeat block of 129 groups, takes 132 steps. -/
theorem blockFunctionRefined : Obligations.BlockFunctionRefined := by
  intro s hhost hst
  obtain ⟨n, hn, hle⟩ : ∃ n, (∀ c, nextSymbol s = some (.byte c) → n + 1 = blockSteps c) ∧ n ≤ 131 := by
    cases ha : nextSymbol s with
    | none => exact ⟨0, nofun, Nat.zero_le _⟩
    | some a =>
      cases a with
      | byte c =>
        obtain ⟨n, hn, hle⟩ := blockSteps_pos c
        exact ⟨n, fun c' hc' => by cases hc'; exact hn, hle⟩
      | endSym => exact ⟨0, nofun, Nat.zero_le _⟩
      | errSym => exact ⟨0, nofun, Nat.zero_le _⟩
  obtain ⟨m, hpos, hm, hrun, -⟩ := runsTo_blockBody hhost hst hn
  exact ⟨m, hpos, by omega, hrun.trans (rleBlock_eq s).symm⟩

/-! ### What the block function gives -/

/-- From `s` to `t` the `n` groups `d 0`, `d 1`, … are written through the gate, one after the other (R86). -/
def GroupsWritten (n : Nat) (d : Nat → Byte) (s t : State) : Prop :=
  t.pos.toNat = s.pos.toNat + 8 * n ∧
  ∀ i, Memory.read t.pb i =
    if s.pos.toNat ≤ i ∧ i < s.pos.toNat + 8 * n ∧ i < s.lim.toNat then
      some ((d ((i - s.pos.toNat) / 8)).getLsbD (7 - (i - s.pos.toNat) % 8))
    else Memory.read s.pb i

theorem groupsWritten_zero {d : Nat → Byte} {s t : State} (hpos : t.pos = s.pos) (hpb : t.pb = s.pb) :
    GroupsWritten 0 d s t := by
  refine ⟨by rw [hpos, Nat.mul_zero, Nat.add_zero], fun i => ?_⟩
  rw [if_neg (by omega), hpb]

/-- One group and then the rest. -/
theorem groupsWritten_succ {n : Nat} {d : Nat → Byte} {s u t : State} (hroom : s.pos.toNat + 8 < 2 ^ 32)
    (hpos : u.pos = s.pos + 8) (hpb : u.pb = (rleWrite8 (d 0) s).pb) (hlim : u.lim = s.lim)
    (h : GroupsWritten n (fun k => d (k + 1)) u t) : GroupsWritten (n + 1) d s t := by
  obtain ⟨hcursor, hcells⟩ := h
  have hadd : u.pos.toNat = s.pos.toNat + 8 := by rw [hpos]; bv_omega
  refine ⟨by omega, fun i => ?_⟩
  rw [hcells, hadd, hlim, hpb, read_rleWrite8]
  by_cases hfirst : s.pos.toNat ≤ i ∧ i < s.pos.toNat + 8 ∧ i < s.lim.toNat
  · have hdiv : (i - s.pos.toNat) / 8 = 0 := by omega
    have hrem : (i - s.pos.toNat) % 8 = i - s.pos.toNat := by omega
    rw [if_neg (by omega), if_pos hfirst, if_pos (by omega), hdiv, hrem, pixelOf_eq]
  · rw [if_neg hfirst]
    by_cases hrest : s.pos.toNat + 8 ≤ i ∧ i < s.pos.toNat + 8 + 8 * n ∧ i < s.lim.toNat
    · have hdiv : (i - s.pos.toNat) / 8 = (i - (s.pos.toNat + 8)) / 8 + 1 := by omega
      have hrem : (i - s.pos.toNat) % 8 = (i - (s.pos.toNat + 8)) % 8 := by omega
      rw [if_pos hrest, if_pos (by omega), hdiv, hrem]
    · rw [if_neg hrest, if_neg (by omega)]

/-- The data bytes of a literal run, all there. -/
theorem litData_eq_go {n : Nat} {d : Nat → Byte} {s : State} (heos : s.eos = false) (hlimit : s.cfg.counterLimit = none)
    (hroom : s.pos.toNat + 8 * n < 2 ^ 32) (hbytes : ∀ k < n, s.stream.byteAt (s.off + k) = some (d k)) :
    ∃ t, litData n s = .go t ∧
      t = { s with off := s.off + n, pos := t.pos, litRem := t.litRem, pb := t.pb, st := .rleChk } ∧ GroupsWritten n d s t := by
  induction n generalizing s d with
  | zero => exact ⟨_, rfl, rfl, groupsWritten_zero rfl rfl⟩
  | succ n ih =>
    have ha : nextSymbol s = some (.byte (d 0)) := nextSymbol_byte_iff.mpr ⟨heos, hbytes 0 (Nat.succ_pos n)⟩
    have hstep : litData (n + 1) s =
        litData n { rleWrite8 (d 0) { s with off := s.off + 1 } with litRem := BitVec.ofNat 8 n } := by
      rw [litData, nextByte, ha]
      simp only [takeByte, hlimit]
      rfl
    have hroom' : (s.pos + 8).toNat + 8 * n < 2 ^ 32 := by
      have : (s.pos + 8).toNat = s.pos.toNat + 8 := by bv_omega
      omega
    have hbytes' (k : Nat) (hk : k < n) : s.stream.byteAt (s.off + 1 + k) = some (d (k + 1)) := by
      rw [Nat.add_right_comm]
      exact hbytes (k + 1) (Nat.succ_lt_succ hk)
    obtain ⟨t, hgo, ht, hwritten⟩ := ih (s := { rleWrite8 (d 0) { s with off := s.off + 1 } with litRem := BitVec.ofNat 8 n })
      (d := fun k => d (k + 1)) heos hlimit hroom' hbytes'
    refine ⟨t, hstep.trans hgo, ?_, groupsWritten_succ (by omega) rfl rfl rfl hwritten⟩
    rw [show s.off + (n + 1) = s.off + 1 + n from (Nat.add_right_comm s.off 1 n).symm]
    exact ht

/-- The replays of a repeat run. -/
theorem replays_eq {n : Nat} {s : State} (hroom : s.pos.toNat + 8 * n < 2 ^ 32) :
    replays n s = { s with pos := (replays n s).pos, repRem := (replays n s).repRem, pb := (replays n s).pb, st := .rleChk } ∧
    GroupsWritten n (fun _ => s.pat) s (replays n s) := by
  induction n generalizing s with
  | zero => exact ⟨rfl, groupsWritten_zero rfl rfl⟩
  | succ n ih =>
    have hroom' : (s.pos + 8).toNat + 8 * n < 2 ^ 32 := by
      have : (s.pos + 8).toNat = s.pos.toNat + 8 := by bv_omega
      omega
    obtain ⟨heq, hwritten⟩ := ih (s := { rleWrite8 s.pat s with repRem := BitVec.ofNat 8 n }) hroom'
    exact ⟨heq, groupsWritten_succ (by omega) rfl rfl rfl hwritten⟩

/-! ### A block of the FSM -/

/-- A block that goes on takes exactly its steps, and the bound check closes it. -/
theorem run_block {s t : State} {c : Byte} (hhost : s.host = []) (hst : s.st = .rleCtrl) (ha : nextSymbol s = some (.byte c))
    (hgo : blockBody s = .go t) : run (blockSteps c) s = .next (boundCheck t) := by
  obtain ⟨n, hn, -⟩ := blockSteps_pos c
  obtain ⟨m, -, -, hrun, hexact⟩ := runsTo_blockBody hhost hst fun c' hc' => by
    cases ha.symm.trans hc'
    exact hn
  rw [← hn, ← hexact ⟨t, hgo⟩, hrun, hgo]
  rfl

/-- A literal block whose bytes are all there. -/
theorem blockBody_literal {s : State} {c : Byte} {d : Nat → Byte} (heos : s.eos = false) (hlimit : s.cfg.counterLimit = none)
    (hroom : s.pos.toNat + 8 * (c.toNat + 1) < 2 ^ 32) (hc : c.toNat < 128) (hb : s.stream.byteAt s.off = some c)
    (hbytes : ∀ k < c.toNat + 1, s.stream.byteAt (s.off + 1 + k) = some (d k)) :
    ∃ t, blockBody s = .go t ∧
      t = { s with off := s.off + 1 + (c.toNat + 1), ctrl := c, pos := t.pos, litRem := t.litRem, pb := t.pb, st := .rleChk } ∧
      GroupsWritten (c.toNat + 1) d s t := by
  have ha : nextSymbol s = some (.byte c) := nextSymbol_byte_iff.mpr ⟨heos, hb⟩
  have hstep : blockBody s = litData (c.toNat + 1) (litStart c { s with off := s.off + 1 }) := by
    rw [blockBody, nextByte, ha]
    simp only [takeByte, hlimit, reduceCtorEq, if_false, hc, if_true]
  obtain ⟨t, hgo, ht, hwritten⟩ := litData_eq_go (s := litStart c { s with off := s.off + 1 }) heos hlimit hroom hbytes
  exact ⟨t, hstep.trans hgo, ht, hwritten⟩

/-- A repeat block whose bytes are both there. -/
theorem blockBody_repeat {s : State} {c d : Byte} (heos : s.eos = false) (hlimit : s.cfg.counterLimit = none)
    (hroom : s.pos.toNat + 8 * (257 - c.toNat) < 2 ^ 32) (hc : 128 ≤ c.toNat) (hb : s.stream.byteAt s.off = some c)
    (hd : s.stream.byteAt (s.off + 1) = some d) :
    ∃ t, blockBody s = .go t ∧
      t = { s with off := s.off + 1 + 1, ctrl := c, pat := d, pos := t.pos, repRem := t.repRem, pb := t.pb, st := .rleChk } ∧
      GroupsWritten (257 - c.toNat) (fun _ => d) s t := by
  have ha : nextSymbol s = some (.byte c) := nextSymbol_byte_iff.mpr ⟨heos, hb⟩
  have ha' : nextSymbol (repStart c { s with off := s.off + 1 }) = some (.byte d) := nextSymbol_byte_iff.mpr ⟨heos, hd⟩
  have hcount : (256 - c.toNat) + 1 = 257 - c.toNat := by have := c.isLt; omega
  have hstep : blockBody s = .go (replays (257 - c.toNat) (repByte d (repStart c { s with off := s.off + 1 + 1 }))) := by
    rw [blockBody, nextByte, ha]
    simp only [takeByte, hlimit, reduceCtorEq, if_false, Nat.not_lt.mpr hc, hcount]
    rw [nextByte, ha']
    simp only [takeByte, repStart_cfg, hlimit, reduceCtorEq, if_false]
    rfl
  obtain ⟨ht, hwritten⟩ := replays_eq (s := repByte d (repStart c { s with off := s.off + 1 + 1 })) hroom
  exact ⟨_, hstep, ht, hwritten⟩

/-- R23: a whole block fits between a cursor at a control byte and the end of the 32 bits. -/
theorem Inv.block_room {s : State} (h : Inv s) (hst : s.st = .rleCtrl) {n : Nat} (hn : n ≤ 129) : s.pos.toNat + 8 * n < 2 ^ 32 := by
  obtain ⟨-, hlim, -⟩ := h.rle.2 (h.rle.1 (by rw [hst]; rfl))
  have hpos := h.runs.2.2.1 hst
  have hmax := pixelCount_le s.width s.height
  rw [← hlim] at hmax
  unfold lastCell at hpos
  omega

/-- R93: where the bound check goes, by the width and the cursor. -/
theorem boundCheck_st (s : State) :
    (boundCheck s).st = if s.width = 0 then .err else if s.lim.toNat ≤ s.pos.toNat then .done else .rleCtrl := by
  by_cases hw : s.width = 0
  · rw [boundCheck_zero hw, if_pos hw]
    rfl
  · rw [if_neg hw]
    rcases Nat.lt_or_ge s.pos.toNat s.lim.toNat with hlt | hge
    · rw [boundCheck_goOn hw hlt, if_neg (Nat.not_le.mpr hlt)]
    · rw [boundCheck_stop hw hge, if_pos hge]
      rfl

/-- Settles O26: the block function's literal data are the block's groups, and the FSM takes exactly that many steps. -/
theorem literalBlockEffect : Obligations.LiteralBlockEffect := by
  intro s c d h ⟨hhost, hlimit⟩ hst heos hc hb hbytes
  obtain ⟨t, hgo, ht, hcursor, hcells⟩ := blockBody_literal heos hlimit (h.block_room hst (by omega)) hc hb
    fun k hk => hbytes k (Nat.le_of_lt_succ hk)
  have hrun := run_block hhost hst (nextSymbol_byte_iff.mpr ⟨heos, hb⟩) hgo
  rw [blockSteps, if_pos hc] at hrun
  refine ⟨boundCheck t, hrun, ?_, ?_, ?_, ?_⟩
  · have hoff : t.off = s.off + 1 + (c.toNat + 1) := by rw [ht]
    rw [boundCheck_off, hoff]
    omega
  · rw [boundCheck_pos, hcursor]
  · rw [boundCheck_pb]
    exact hcells
  · have hwidth : t.width = s.width := by rw [ht]
    have hlim : t.lim = s.lim := by rw [ht]
    rw [boundCheck_st, hwidth, hlim, hcursor]

/-- Settles O27: the replays of the block function are the block's groups, all the same. -/
theorem repeatBlockEffect : Obligations.RepeatBlockEffect := by
  intro s c d h ⟨hhost, hlimit⟩ hst heos hc hb hd
  obtain ⟨t, hgo, ht, hcursor, hcells⟩ := blockBody_repeat heos hlimit (h.block_room hst (by omega)) hc hb hd
  have hrun := run_block hhost hst (nextSymbol_byte_iff.mpr ⟨heos, hb⟩) hgo
  rw [blockSteps, if_neg (Nat.not_lt.mpr hc)] at hrun
  refine ⟨boundCheck t, hrun, ?_, ?_, ?_, ?_⟩
  · rw [boundCheck_off, ht]
  · rw [boundCheck_pos, hcursor]
  · rw [boundCheck_pb]
    exact hcells
  · have hwidth : t.width = s.width := by rw [ht]
    have hlim : t.lim = s.lim := by rw [ht]
    rw [boundCheck_st, hwidth, hlim, hcursor]

end Sys2Proof.Machine
end

section
/-! PROOF. Cells that are written stay, and runs of the raw path (R49, R79, R83, R95, R120). -/

namespace Sys2Proof.Machine

/-! ### Written cells -/

theorem lt_of_read_eq_some {α : Type} {m : Memory α} {n i : Nat} {v : α} (h : Memory.keys m = List.range n)
    (hi : Memory.read m i = some v) : i < n :=
  (Memory.read_isSome_of_keys h i).mp (by rw [hi]; rfl)

/-- R86: a group is written at the cursor, after every cell written before. -/
theorem Inv.read_rleWrite8_of_written {s : State} (h : Inv s) (hs : onRlePath s.st = true) (d : Byte) {i : Nat} {v : Pixel}
    (hi : Memory.read s.pb i = some v) : Memory.read (rleWrite8 d s).pb i = some v := by
  obtain ⟨-, -, -, -, -, -, hkeys, -⟩ := h.rle.2 (h.rle.1 hs)
  have hlt := lt_of_read_eq_some hkeys hi
  rw [read_rleWrite8, if_neg (by omega), hi]

/-- R79: a row is committed after every row before. -/
theorem Inv.read_commitRow_of_written {s : State} (h : Inv s) (hst : s.st = .rawRow) {pix : Nat → Pixel} {i : Nat} {v : Pixel}
    (hi : Memory.read s.pb i = some v) :
    Memory.read (writeRow (s.pbRows * s.width.toNat) s.width.toNat pix s.pb) i = some v := by
  obtain ⟨-, ⟨-, -, -, -, -, -, hkeys⟩, -⟩ := h.raw.2 (h.raw.1 hst)
  have hlt := lt_of_read_eq_some hkeys hi
  rw [read_writeRow, if_neg (by omega), hi]

/-- A step of the FSM leaves every written cell. -/
theorem read_of_fsmStep {s t : State} (h : Inv s) (ht : fsmStep s = .next t) {i : Nat} {v : Pixel}
    (hi : Memory.read s.pb i = some v) : Memory.read t.pb i = some v := by
  rcases fsmStep_next_cases ht with ⟨rfl, -⟩ | ⟨u, op, -, hop, hexec⟩
  · exact hi
  · obtain ⟨-, hplace, -⟩ := decodedBelongsToItsState _ _ _ hop
    by_cases hpb : t.pb = s.pb
    · rw [hpb, hi]
    · rcases onlyPixelStepsWritePixels op s t hexec hpb with ⟨d, rfl⟩ | rfl | ⟨b, rfl⟩
      · obtain ⟨-, rfl⟩ := withByte_eq_next_iff.mp hexec
        exact h.read_rleWrite8_of_written (by rw [← hplace]; rfl) d hi
      · cases hexec
        exact h.read_rleWrite8_of_written (by rw [← hplace]; rfl) s.pat hi
      · obtain ⟨-, rfl⟩ := execRawByte_eq_next_iff.mp hexec
        split
        · exact h.read_commitRow_of_written hplace.symm hi
        · exact hi

/-- Settles O40: within a decode only the FSM writes cells, each past those written. -/
theorem writtenCellsNeverChange : Obligations.WrittenCellsNeverChange := by
  intro s t i v h hstep hreset hstart hi
  rcases step_cases s with ⟨-, e⟩ | ⟨e, rest, hhost, hmove⟩
  · exact read_of_fsmStep h (e.symm.trans hstep) hi
  · rw [hmove] at hstep
    cases e with
    | reset => exact absurd hhost (hreset rest)
    | start a x => exact absurd hhost (hstart a x rest)
    | supply a => cases hstep; exact hi
    | alter k b => cases hstep; exact hi
    | run => exact read_of_fsmStep (h.withHost rest) hstep hi

/-! ### Runs of the raw path -/

/-- One byte of a raw row that comes. -/
theorem step_rawRow {s : State} (h : Inv s) (hu : Undisturbed s) (hst : s.st = .rawRow) (heos : s.eos = false)
    (hb : (s.stream.byteAt s.off).isSome = true) :
    ∃ t, step s = .next t ∧ Undisturbed t ∧ t.st = .rawRow ∧ t.eos = false ∧ t.stream = s.stream ∧ t.off = s.off + 1 ∧
      t.nb = s.nb ∧ t.pbRows * t.nb.toNat + t.rowCnt.toNat = s.pbRows * s.nb.toNat + s.rowCnt.toNat + 1 := by
  obtain ⟨hhost, hlimit⟩ := hu
  obtain ⟨b, hb⟩ := Option.isSome_iff_exists.mp hb
  have hallowed : ByteAllowed s := by simp [ByteAllowed, hlimit]
  have hstep : step s = exec (.rawByte b) s :=
    (step_fsm hhost).trans (fsmStep_rawRow hst (nextSymbol_byte_iff.mpr ⟨heos, hb⟩))
  obtain ⟨-, ⟨-, -, -, -, hlt, -⟩, -⟩ := h.raw.2 (h.raw.1 hst)
  have hcnt : s.rowCnt.toNat + 1 < 16384 := by have := s.nb.isLt; omega
  by_cases hrow : s.rowCnt.toNat + 1 = s.nb.toNat
  · refine ⟨_, hstep.trans (exec_rawByte_commit b hallowed hrow), ⟨hhost, hlimit⟩, rfl, heos, rfl, rfl, rfl, ?_⟩
    have hsum : (s.pbRows + 1) * s.nb.toNat + 0 = s.pbRows * s.nb.toNat + s.rowCnt.toNat + 1 := by
      rw [Nat.succ_mul]
      omega
    exact hsum
  · refine ⟨_, hstep.trans (exec_rawByte_hold b hallowed hcnt hrow), ⟨hhost, hlimit⟩, rfl, heos, rfl, rfl, rfl, ?_⟩
    rw [captureRowByte_rowCnt_toNat b (s := { s with off := s.off + 1 }) hcnt]
    rfl

/-- The raw path takes every byte that comes. -/
theorem run_rawRow {n : Nat} {s : State} (h : Inv s) (hu : Undisturbed s) (hst : s.st = .rawRow) (heos : s.eos = false)
    (hbytes : ∀ k < n, (s.stream.byteAt (s.off + k)).isSome = true) :
    ∃ t, run n s = .next t ∧ Inv t ∧ t.st = .rawRow ∧ t.off = s.off + n ∧ t.nb = s.nb ∧
      t.pbRows * t.nb.toNat + t.rowCnt.toNat = s.pbRows * s.nb.toNat + s.rowCnt.toNat + n := by
  induction n generalizing s with
  | zero => exact ⟨s, rfl, h, hst, rfl, rfl, rfl⟩
  | succ n ih =>
    obtain ⟨u, hstep, hu', ust, ueos, ustream, uoff, unb, hsum⟩ := step_rawRow h hu hst heos (hbytes 0 (Nat.succ_pos n))
    have hbytes' (k : Nat) (hk : k < n) : (u.stream.byteAt (u.off + k)).isSome = true := by
      rw [ustream, uoff, Nat.add_right_comm]
      exact hbytes (k + 1) (Nat.succ_lt_succ hk)
    obtain ⟨t, hrun, ht, tst, toff, tnb, hsum'⟩ := ih (h.step hstep) hu' ust ueos hbytes'
    exact ⟨t, (run_succ_of_next hstep).trans hrun, ht, tst, by omega, tnb.trans unb, by omega⟩

/-- Settles O32: `n` bytes are `n` steps of RAW_ROW. -/
theorem rawPathRunsWhileBytesCome : Obligations.RawPathRunsWhileBytesCome := by
  intro s n h hu hst heos hbytes
  obtain ⟨t, hrun, -, tst, toff, -, hsum⟩ := run_rawRow h hu hst heos hbytes
  exact ⟨t, hrun, tst, toff, hsum⟩

/-- Settles O53: the bytes of an endless stream keep coming, and `n` of them fill a row each time `row_cnt` comes to `nb`. -/
theorem endlessRawDecodeNeverEnds : Obligations.EndlessRawDecodeNeverEnds := by
  intro s e n h hu hst htail
  have heos : s.eos = false := Bool.eq_false_iff.mpr fun he => by
    have := (h.stream.2.1 he).2
    simp [htail] at this
  obtain ⟨t, hrun, ht, tst, toff, tnb, hsum⟩ := run_rawRow h hu hst heos fun k _ => Stream.byteAt_isSome_of_forever htail _
  refine ⟨t, hrun, tst, toff, ?_⟩
  obtain ⟨-, ⟨-, -, -, -, hlt, -⟩, -⟩ := ht.raw.2 (ht.raw.1 tst)
  rw [tnb] at hsum hlt
  have hpos : 0 < s.nb.toNat := by omega
  calc t.pbRows = (t.pbRows * s.nb.toNat + t.rowCnt.toNat) / s.nb.toNat := by
        rw [Nat.add_comm, Nat.add_mul_div_right _ _ hpos, Nat.div_eq_of_lt hlt, Nat.zero_add]
    _ = (s.pbRows * s.nb.toNat + (s.rowCnt.toNat + n)) / s.nb.toNat := by rw [hsum, Nat.add_assoc]
    _ = s.pbRows + (s.rowCnt.toNat + n) / s.nb.toNat := by
        rw [Nat.add_comm, Nat.add_mul_div_right _ _ hpos, Nat.add_comm]

end Sys2Proof.Machine
end

section
/-! PROOF. Termination: over a stream with a terminator, and of an RLE decode while bytes come (R120). -/

namespace Sys2Proof.Machine

/-! ### A terminated stream -/

/-- A bound on the steps the FSM takes from a state on without consuming a byte. -/
def stepsWithoutByte (s : State) : Nat :=
  match s.st with
  | .idle => 0
  | .hdr => 3
  | .dispatch => 2
  | .rleCtrl => 1
  | .rleLit => 1
  | .rleRepd => 1
  | .rleRepw => s.repRem.toNat + 2
  | .rleChk => 2
  | .rawRow => 1
  | .done => 0
  | .err => 0

/-- A repeat run has at most 129 replays to come. -/
theorem Inv.stepsWithoutByte_le {s : State} (h : Inv s) : stepsWithoutByte s ≤ 131 := by
  have hrep := h.runs.2.1
  unfold stepsWithoutByte
  split <;> omega

/-- A path ends in one step where no byte comes. -/
theorem stepsWithoutByte_le_one {s : State} (h : s.st = .rleCtrl ∨ s.st = .rawRow ∨ s.st = .done ∨ s.st = .err) :
    stepsWithoutByte s ≤ 1 := by
  rcases h with e | e | e | e <;> simp [stepsWithoutByte, e]

theorem boundCheck_steps_le (s : State) : stepsWithoutByte (boundCheck s) ≤ 1 := by
  refine stepsWithoutByte_le_one ?_
  rw [boundCheck_st]
  split
  · simp
  · split <;> simp

theorem rawEntry_steps_le (s : State) : stepsWithoutByte (rawEntry s) ≤ 1 := by
  refine stepsWithoutByte_le_one ?_
  unfold rawEntry
  split <;> simp

/-- R92: a replay leaves one replay less, or the bound check. -/
theorem replayOnce_steps_lt {s : State} (h : Inv s) (hst : s.st = .rleRepw) :
    stepsWithoutByte (replayOnce s) < stepsWithoutByte s := by
  obtain ⟨-, hone, -⟩ := h.runs.2.2.2.2.2 hst
  have hpred := toNat_pred hone
  have hs : stepsWithoutByte s = s.repRem.toNat + 2 := by simp [stepsWithoutByte, hst]
  rw [replayOnce_eq, hs]
  by_cases hlast : s.repRem = 1
  · rw [if_pos hlast]
    exact Nat.lt_add_of_pos_left hone
  · rw [if_neg hlast]
    have hlt : (s.repRem - 1).toNat + 2 < s.repRem.toNat + 2 := by omega
    exact hlt

/-- Each step that consumes no byte, and is no hold, uses up one of these. -/
theorem stepsWithoutByte_lt {s t : State} {u : CodeUnit} {i : Instr} (h : Inv s) (hi : decode s.st u = .ok i)
    (hu : ∀ b, u ≠ .symbol (.byte b)) (ht : exec i s = .next t) : stepsWithoutByte t < stepsWithoutByte s := by
  obtain ⟨-, hplace, -⟩ := decodedBelongsToItsState _ _ _ hi
  have hbyte (b : Byte) : (encode i).2 ≠ .symbol (.byte b) := fun e => hu b ((byte_unit_iff hi b).mp e)
  rcases exec_next_cases ht with ⟨b, rfl, -⟩ | ⟨rfl, -, rfl⟩ | ⟨rfl, -, rfl⟩ | ⟨hop, rfl⟩ | ⟨w, x, rfl, rfl⟩ | ⟨w, x, rfl, rfl⟩ |
    ⟨c, rfl, -⟩ | ⟨d, rfl, -⟩ | ⟨hop, rfl⟩ | ⟨c, rfl, -⟩ | ⟨d, rfl, -⟩ | ⟨rfl, rfl⟩ | ⟨rfl, rfl⟩ | ⟨rfl, rfl⟩ |
    ⟨b, rfl, -⟩ | ⟨rfl, rfl⟩
  · exact absurd rfl (hbyte b)
  · simp [stepsWithoutByte, ← hplace, encode]
  · simp [stepsWithoutByte, ← hplace, encode]
  · rcases hop with rfl | rfl | rfl | rfl | rfl <;> simp [stepsWithoutByte, ← hplace, encode]
  · simp [stepsWithoutByte, ← hplace, encode]
  · exact Nat.lt_of_le_of_lt (rawEntry_steps_le _) (by simp [stepsWithoutByte, ← hplace, encode])
  · exact absurd rfl (hbyte c)
  · exact absurd rfl (hbyte d)
  · rcases hop with rfl | rfl <;> simp [stepsWithoutByte, ← hplace, encode]
  · exact absurd rfl (hbyte c)
  · exact absurd rfl (hbyte d)
  · exact replayOnce_steps_lt h hplace.symm
  · simp [stepsWithoutByte, ← hplace, encode]
  · exact Nat.lt_of_le_of_lt (boundCheck_steps_le s) (by simp [stepsWithoutByte, ← hplace, encode])
  · exact absurd rfl (hbyte b)
  · simp [stepsWithoutByte, ← hplace, encode]

/-- The bytes left, at 200 steps each, and the steps that need no byte. -/
def stepsBound (s : State) : Nat := 200 * (s.stream.bytes.length - s.off) + stepsWithoutByte s

/-- A terminated stream has a byte only where it is written out. -/
theorem Stream.lt_length_of_byteAt {x : Stream} {k : Nat} (hx : ∃ e, x.tail = .ends e) (h : (x.byteAt k).isSome = true) :
    k < x.bytes.length := by
  obtain ⟨e, he⟩ := hx
  refine Nat.lt_of_not_le fun hle => ?_
  rw [Stream.byteAt_eq_none_iff.mpr ⟨hle, by simp [he]⟩] at h
  cases h

/-- Only a channel that has not answered leaves nothing to fetch. -/
theorem nextSymbol_of_fetch_none {s : State} (h : fetch s = none) : nextSymbol s = none := by
  unfold fetch at h
  split at h
  · simpa using h
  · split at h <;> cases h

/-- R120: over a terminated stream every step of the FSM that is not in a terminal state brings the end nearer. -/
theorem step_stepsBound_lt {s : State} (h : Inv s) (hu : Undisturbed s) (hx : ∃ e, s.stream.tail = .ends e)
    (hst : terminal s.st = false) :
    ∃ t, step s = .next t ∧ Undisturbed t ∧ t.stream = s.stream ∧ stepsBound t < stepsBound s := by
  obtain ⟨hhost, hlimit⟩ := hu
  obtain ⟨t, ht⟩ : ∃ t, fsmStep s = .next t := by
    rcases fsmStep_next_or_refused s with hnext | ⟨-, -, hl, -⟩
    · exact hnext
    · simp [hlimit] at hl
  obtain ⟨tstream, thost, tcfg⟩ := fsmStep_env ht
  refine ⟨t, (step_fsm hhost).trans ht, ⟨thost.trans hhost, tcfg ▸ hlimit⟩, tstream, ?_⟩
  unfold stepsBound
  rw [tstream]
  have hoff := offCountsConsumedBytes s t ht
  by_cases hbyte : ∃ b, fetch s = some (.symbol (.byte b))
  · have hlt := Stream.lt_length_of_byteAt hx (fetch_byte_iff.mp hbyte).2.2
    have hle := (h.fsmStep ht).stepsWithoutByte_le
    rw [if_pos (fetch_byte_iff.mp hbyte)] at hoff
    omega
  · rw [if_neg (mt fetch_byte_iff.mpr hbyte)] at hoff
    rcases fsmStep_next_cases ht with ⟨-, hterm | hnone⟩ | ⟨u, i, hfetch, hi, hexec⟩
    · rw [hst] at hterm
      cases hterm
    · obtain ⟨e, he⟩ := hx
      have := (nextSymbol_none_iff.mp (nextSymbol_of_fetch_none hnone)).2.2
      simp [he] at this
    · have hlt := stepsWithoutByte_lt h hi (fun b e => hbyte ⟨b, e ▸ hfetch⟩) hexec
      omega

/-- R120: so a terminal state is reached before the bound is used up. -/
theorem run_terminal {n : Nat} {s : State} (h : Inv s) (hu : Undisturbed s) (hx : ∃ e, s.stream.tail = .ends e)
    (hn : stepsBound s ≤ n) : ∃ m ≤ n, ∃ t, run m s = .next t ∧ terminal t.st = true := by
  induction n generalizing s with
  | zero =>
    cases hst : terminal s.st with
    | true => exact ⟨0, le_rfl, s, rfl, hst⟩
    | false =>
      obtain ⟨t, -, -, -, hlt⟩ := step_stepsBound_lt h hu hx hst
      omega
  | succ n ih =>
    cases hst : terminal s.st with
    | true => exact ⟨0, Nat.zero_le _, s, rfl, hst⟩
    | false =>
      obtain ⟨u, hstep, hu', ustream, hlt⟩ := step_stepsBound_lt h hu hx hst
      obtain ⟨m, hm, t, hrun, tst⟩ := ih (h.step hstep) hu' (ustream ▸ hx) (by omega)
      exact ⟨m + 1, Nat.succ_le_succ hm, t, (run_succ_of_next hstep).trans hrun, tst⟩

/-- Settles O49: `stepsLeft` is no less than the bound that every step brings down. -/
theorem finiteStreamsTerminate : Obligations.FiniteStreamsTerminate := by
  intro s h hu hx
  refine run_terminal h hu hx ?_
  have := h.stepsWithoutByte_le
  unfold stepsBound stepsLeft
  omega

/-! ### An RLE decode while bytes come -/

/-- The invariant along a run. -/
theorem Inv.run {n : Nat} {s t : State} (h : Inv s) (ht : run n s = .next t) : Inv t := by
  induction n generalizing s with
  | zero => cases ht; exact h
  | succ n ih =>
    rw [run_succ] at ht
    split at ht
    next u hu => exact ih (h.step hu) ht
    next => cases ht
    next => cases ht

/-- What one block does, of either kind, whose bytes are all there: within 132 steps the bound check closes it, with at most 129
bytes consumed and at least one group counted. -/
theorem run_one_block {s : State} (h : Inv s) (hu : Undisturbed s) (hst : s.st = .rleCtrl) (heos : s.eos = false)
    (hbytes : ∀ k < 129, (s.stream.byteAt (s.off + k)).isSome = true) :
    ∃ n ≤ 132, ∃ t, Machine.run n s = .next (boundCheck t) ∧ s.off ≤ t.off ∧ t.off ≤ s.off + 129 ∧ s.pos.toNat + 8 ≤ t.pos.toNat ∧
      t.width = s.width ∧ t.lim = s.lim ∧ t.eos = s.eos ∧ t.stream = s.stream ∧ t.host = s.host ∧ t.cfg = s.cfg := by
  obtain ⟨hhost, hlimit⟩ := hu
  have hget (k : Nat) (hk : k < 129) : ∃ d, s.stream.byteAt (s.off + k) = some d := Option.isSome_iff_exists.mp (hbytes k hk)
  choose! d hd using hget
  have hb : s.stream.byteAt s.off = some (d 0) := hd 0 (by decide)
  have ha : nextSymbol s = some (.byte (d 0)) := nextSymbol_byte_iff.mpr ⟨heos, hb⟩
  have hsteps : blockSteps (d 0) ≤ 132 := by
    obtain ⟨n, hn, hle⟩ := blockSteps_pos (d 0)
    omega
  by_cases hc : (d 0).toNat < 128
  · have hdata (k : Nat) (hk : k < (d 0).toNat + 1) : s.stream.byteAt (s.off + 1 + k) = some (d (k + 1)) := by
      rw [Nat.add_right_comm]
      exact hd (k + 1) (by omega)
    obtain ⟨t, hgo, ht, hcursor, -⟩ := blockBody_literal heos hlimit (h.block_room hst (by omega)) hc hb hdata
    have hoff : t.off = s.off + 1 + ((d 0).toNat + 1) := by rw [ht]
    refine ⟨_, hsteps, t, run_block hhost hst ha hgo, by omega, by omega, by omega, ?_⟩
    rw [ht]
    exact ⟨rfl, rfl, rfl, rfl, rfl, rfl⟩
  · have hc256 := (d 0).isLt
    obtain ⟨t, hgo, ht, hcursor, -⟩ :=
      blockBody_repeat heos hlimit (h.block_room hst (by omega)) (Nat.le_of_not_lt hc) hb (hd 1 (by decide))
    have hoff : t.off = s.off + 1 + 1 := by rw [ht]
    refine ⟨_, hsteps, t, run_block hhost hst ha hgo, by omega, by omega, by omega, ?_⟩
    rw [ht]
    exact ⟨rfl, rfl, rfl, rfl, rfl, rfl⟩

/-- R120: with the bytes of `m` blocks to come and at most as many groups to write, the decode stops at the bound. -/
theorem run_to_boundsStop {m : Nat} {s : State} (h : Inv s) (hu : Undisturbed s) (hst : s.st = .rleCtrl) (heos : s.eos = false)
    (hw : s.width ≠ 0) (hm : 1 ≤ m) (hlim : s.lim.toNat ≤ s.pos.toNat + 8 * m)
    (hbytes : ∀ k < 129 * m, (s.stream.byteAt (s.off + k)).isSome = true) :
    ∃ n ≤ 132 * m, ∃ t, run n s = .next t ∧ t.st = .done ∧ t.boundsStop = true := by
  induction m generalizing s with
  | zero => exact absurd hm (by decide)
  | succ m ih =>
    obtain ⟨n, hn, u, hrun, uoff, uoff', upos, uwidth, ulim, ueos, ustream, uhost, ucfg⟩ :=
      run_one_block h hu hst heos fun k hk => hbytes k (by omega)
    rcases Nat.lt_or_ge u.pos.toNat u.lim.toNat with hlt | hge
    · have hinv := h.run hrun
      have hcont := boundCheck_goOn (uwidth ▸ hw) hlt
      have hm' : 1 ≤ m := by rw [ulim] at hlt; omega
      have hbytes' (k : Nat) (hk : k < 129 * m) : (u.stream.byteAt (u.off + k)).isSome = true := by
        have hk' := hbytes (u.off - s.off + k) (by omega)
        rw [← Nat.add_assoc, Nat.add_sub_cancel' uoff] at hk'
        exact ustream ▸ hk'
      have hlim' : u.lim.toNat ≤ u.pos.toNat + 8 * m := by rw [ulim]; omega
      rw [hcont] at hrun hinv
      obtain ⟨n', hn', t, hrun', hdone⟩ := ih hinv ⟨uhost.trans hu.1, ucfg ▸ hu.2⟩ rfl (ueos.trans heos) (uwidth ▸ hw) hm'
        hlim' hbytes'
      exact ⟨n + n', by omega, t, (run_add hrun).trans hrun', hdone⟩
    · rw [boundCheck_stop (uwidth ▸ hw) hge] at hrun
      exact ⟨n, by omega, _, hrun, rfl, rfl⟩

/-- Settles O50: `max 1 (ceil (lim / 8))` blocks write at least `lim` pixels, from wherever the cursor stands. -/
theorem rleDecodeEndsOverEndlessStream : Obligations.RleDecodeEndsOverEndlessStream := by
  intro s h hu hst heos hw hbytes
  exact run_to_boundsStop h hu hst heos hw (by omega) (by omega) hbytes

end Sys2Proof.Machine
end

section
/-! PROOF. The assembler's pseudo-operations against the reader of RLE blocks (R60 to R62, R70, R71). -/

namespace Sys2Proof.Machine

/-- The reader goes on over more bytes from where it stands. -/
def readFrom (p : Parse) (bs : List Byte) : Parse := bs.foldl parseByte p

theorem parseBytes_eq_readFrom (bs : List Byte) : parseBytes bs = readFrom { phase := .ctrl, groups := [] } bs := rfl

@[simp] theorem readFrom_nil (p : Parse) : readFrom p [] = p := rfl

@[simp] theorem readFrom_cons (p : Parse) (b : Byte) (bs : List Byte) : readFrom p (b :: bs) = readFrom (parseByte p b) bs := rfl

theorem readFrom_append (p : Parse) (bs cs : List Byte) : readFrom p (bs ++ cs) = readFrom (readFrom p bs) cs :=
  List.foldl_append

/-- R61: the data bytes of a literal run are its groups. -/
theorem readFrom_literal {ds gs : List Byte} (hds : ds ≠ []) :
    readFrom { phase := .lit ds.length, groups := gs } ds = { phase := .ctrl, groups := gs ++ ds } := by
  induction ds generalizing gs with
  | nil => exact absurd rfl hds
  | cons d rest ih =>
    by_cases hrest : rest = []
    · subst hrest
      simp [parseByte]
    · have hlen : ¬ rest.length + 1 ≤ 1 := by
        have := List.length_pos_of_ne_nil hrest
        omega
      rw [readFrom_cons, List.length_cons]
      have hnext : parseByte { phase := .lit (rest.length + 1), groups := gs } d =
          { phase := .lit rest.length, groups := gs ++ [d] } := by
        simp [parseByte, hrest]
      rw [hnext, ih hrest, List.append_assoc, List.singleton_append]

/-- R70: a literal block of 1 to 128 bytes. -/
theorem readFrom_litBlock {ds gs : List Byte} (hds : ds ≠ []) (hlen : ds.length ≤ 128) :
    readFrom { phase := .ctrl, groups := gs } (litBlock ds) = { phase := .ctrl, groups := gs ++ ds } := by
  have hpos := List.length_pos_of_ne_nil hds
  have hcount : (BitVec.ofNat 8 (ds.length - 1)).toNat = ds.length - 1 := Nat.mod_eq_of_lt (by omega)
  have hctrl : parseByte { phase := .ctrl, groups := gs } (BitVec.ofNat 8 (ds.length - 1)) =
      { phase := .lit ds.length, groups := gs } := by
    simp only [parseByte, hcount]
    rw [if_pos (by omega), Nat.sub_add_cancel hpos]
  rw [litBlock, readFrom_cons, hctrl, readFrom_literal hds]

/-- R70: a repeat block of 2 to 129 copies. -/
theorem readFrom_repBlock {k : Nat} (d : Byte) (gs : List Byte) (h2 : 2 ≤ k) (h129 : k ≤ 129) :
    readFrom { phase := .ctrl, groups := gs } (repBlock k d) = { phase := .ctrl, groups := gs ++ List.replicate k d } := by
  have hcount : (BitVec.ofNat 8 (257 - k)).toNat = 257 - k := Nat.mod_eq_of_lt (by omega)
  have hctrl : parseByte { phase := .ctrl, groups := gs } (BitVec.ofNat 8 (257 - k)) = { phase := .rep k, groups := gs } := by
    simp only [parseByte, hcount]
    rw [if_neg (by omega), show 257 - (257 - k) = k by omega]
  rw [repBlock, readFrom_cons, hctrl]
  rfl

/-- R71: a block of FILL takes 2 to 129 copies, no more than are left, and does not leave a single one. -/
theorem fillCount_bounds {n : Nat} (hn : 2 ≤ n) : 2 ≤ fillCount n ∧ fillCount n ≤ 129 ∧ fillCount n ≤ n := by
  unfold fillCount
  split
  · omega
  · split <;> omega

/-- R71: FILL's blocks, with enough fuel. -/
theorem readFrom_fillBlocks {f n : Nat} (d : Byte) (gs : List Byte) (hf : n ≤ f) :
    readFrom { phase := .ctrl, groups := gs } (fillBlocks f n d) = { phase := .ctrl, groups := gs ++ List.replicate n d } := by
  induction f generalizing n gs with
  | zero =>
    obtain rfl : n = 0 := by omega
    simp [fillBlocks]
  | succ f ih =>
    unfold fillBlocks
    split
    next h0 => simp [h0]
    next h0 =>
      split
      next h1 =>
        rw [readFrom_litBlock (by simp) (by simp), h1]
        rfl
      next h1 =>
        obtain ⟨h2, h129, hle⟩ := fillCount_bounds (n := n) (by omega)
        rw [readFrom_append, readFrom_repBlock d gs h2 h129, ih _ (by omega), List.append_assoc, ← List.replicate_add,
          Nat.add_sub_cancel' hle]

/-- R71: PIXELS' blocks, with enough fuel. -/
theorem readFrom_pixelBlocks {f : Nat} {ds : List Byte} (gs : List Byte) (hf : ds.length ≤ f) :
    readFrom { phase := .ctrl, groups := gs } (pixelBlocks f ds) = { phase := .ctrl, groups := gs ++ ds } := by
  induction f generalizing ds gs with
  | zero =>
    obtain rfl : ds = [] := List.length_eq_zero_iff.mp (by omega)
    simp [pixelBlocks]
  | succ f ih =>
    unfold pixelBlocks
    split
    next h0 => simp [h0]
    next h0 =>
      have hpos := List.length_pos_of_ne_nil h0
      have hdrop : (ds.drop 128).length ≤ f := by rw [List.length_drop]; omega
      rw [readFrom_append, readFrom_litBlock (by simp [h0]) (List.length_take_le 128 ds), ih _ hdrop, List.append_assoc,
        List.take_append_drop]

/-- Settles O51: `n` blocks are enough for `n` copies, and the reader takes them block by block. -/
theorem pseudoOperationsExpand : Obligations.PseudoOperationsExpand := by
  refine ⟨fun n d _ => ?_, fun ds _ => ?_⟩
  · rw [parseBytes_eq_readFrom, fillBytes, readFrom_fillBlocks d [] le_rfl, List.nil_append]
  · rw [parseBytes_eq_readFrom, pixelBytes, readFrom_pixelBlocks [] le_rfl, List.nil_append]

end Sys2Proof.Machine
end
